-- ==== Sys2Proof/Word.lean ====
section
/-! DEFINITION. The word types of the core. Every argument, result, control and counter register is 32 bits
(rules R3, R24, R25, R27 of spec/00_scope.md and spec/10_state.md), caller memory is bytes (R60), and the data
register, the transmit data and the shift register hold 9 bits (R31, R40). -/

namespace Sys2Proof

/-- A 32-bit register or address (R3 `ARG_WIDTH`, R22, R24, R25, R27, R60). -/
abbrev Word := BitVec 32

/-- One byte of caller memory (R60). -/
abbrev Byte := BitVec 8

/-- One serial frame: the 9 implemented bits of the data register (R3 `DR_WIDTH`, R31, R40). -/
abbrev Frame := BitVec 9

end Sys2Proof
end

