-- ==== Sys2Proof/Syntax.lean ====
section
/-! DEFINITION. The command set: one constructor of `Instr` for each row of spec/opcode_table.json, with the arguments
the command reads in the order A0, A1, A2 (rules R81, R82 and R89 of spec/30_encoding.md); and the form in which the
host hands a command over, the command word and the three argument registers (R80). -/

namespace Sys2Proof

/-- The sixteen operations of R81: fifteen host commands and the tick event. -/
inductive Instr where
  /-- TB_INIT (R100). -/
  | tbInit
  /-- TB_NOW (R104). -/
  | tbNow
  /-- TB_DELAY ms (R106): A0 = ms. -/
  | tbDelay (ms : Word)
  /-- TB_TICK (R102): the event of the TICK agent, not host-issuable. -/
  | tbTick
  /-- INIT_DEFAULT baud (R124): A0 = baud. -/
  | initDefault (baud : Word)
  /-- INIT_CONFIG present, baud, cfg (R126): A0, A1, A2. -/
  | initConfig (present baud cfg : Word)
  /-- TRANSMIT addr, size, timeout (R141): A0, A1, A2. -/
  | transmit (addr size timeout : Word)
  /-- SEND_BYTE byte (R143): A0. -/
  | sendByte (byte : Word)
  /-- SEND_STRING addr (R145): A0. -/
  | sendString (addr : Word)
  /-- RECEIVE addr, size, timeout (R160): A0, A1, A2. -/
  | receive (addr size timeout : Word)
  /-- RECEIVE_BYTE (R164). -/
  | receiveByte
  /-- IS_DATA_AVAILABLE (R166). -/
  | isDataAvailable
  /-- CLEAR_ERRORS (R180). -/
  | clearErrors
  /-- ENABLE_INTERRUPTS mask (R182): A0. -/
  | enableInterrupts (mask : Word)
  /-- DISABLE_INTERRUPTS mask (R184): A0. -/
  | disableInterrupts (mask : Word)
  /-- UPDATE_BAUD_RATE baud (R186): A0. -/
  | updateBaudRate (baud : Word)
  deriving DecidableEq, Repr

/-- What the host writes before it issues a command: the command word CMD and the arguments A0, A1, A2 (R24, R80). -/
structure HostCommand where
  cmd : Word
  a0 : Word
  a1 : Word
  a2 : Word
  deriving DecidableEq, Repr

end Sys2Proof
end

