-- ==== Sys2Proof/WellFormed.lean ====
section
/-! DEFINITION. Which instructions the host may issue (rules R81, R86 and R88 of spec/30_encoding.md). Argument values
that R87 calls illegal do not make a command ill-formed: such a command decodes, and raises BadArg when it runs. -/

namespace Sys2Proof

/-- The fifteen host-issuable commands of R88: every operation of R81 but the tick event (R86). -/
def Instr.wf : Instr → Bool
  | .tbInit => true
  | .tbNow => true
  | .tbDelay _ => true
  | .tbTick => false
  | .initDefault _ => true
  | .initConfig _ _ _ => true
  | .transmit _ _ _ => true
  | .sendByte _ => true
  | .sendString _ => true
  | .receive _ _ _ => true
  | .receiveByte => true
  | .isDataAvailable => true
  | .clearErrors => true
  | .enableInterrupts _ => true
  | .disableInterrupts _ => true
  | .updateBaudRate _ => true

end Sys2Proof
end

