-- ==== Sys2Proof/Decode.lean ====
section
/-! DEFINITION. The decoder and the encoder of rules R80 to R82, R86, R88 and R89 of spec/30_encoding.md. Both are
total. The decoder refuses a command by naming the reason; every reason is raised as BadCommand when the command is
run (R86). -/

namespace Sys2Proof

/-- Why a command word is not one of the host's commands (R86). -/
inductive Reject where
  /-- CMD[31:8] is not 0. -/
  | reservedBits
  /-- OPC is no opcode of R81. -/
  | unassignedOpcode
  /-- OPC is 0x04, the tick event, which the host cannot issue. -/
  | notHostIssuable
  deriving DecidableEq, Repr

/-- What a decoder answers: an instruction, or the reason for refusing the word. -/
inductive Decoded where
  | instr (i : Instr)
  | rejected (why : Reject)
  deriving DecidableEq, Repr

/-- CMD[7:0], the opcode field OPC (R80). -/
def opcodeField (cmd : Word) : Byte := cmd.extractLsb' 0 8

/-- CMD[31:8], the reserved field RSVD (R80). -/
def reservedField (cmd : Word) : BitVec 24 := cmd.extractLsb' 8 24

/-- The opcode map of R81 with the operands of R82, over all sixteen rows of the table, the tick event's code 0x04
(R102) among them. -/
def decodeOpcode (opc : Byte) (a0 a1 a2 : Word) : Option Instr :=
  match opc.toNat with
  | 0x01 => some .tbInit
  | 0x02 => some .tbNow
  | 0x03 => some (.tbDelay a0)
  | 0x04 => some .tbTick
  | 0x10 => some (.initDefault a0)
  | 0x11 => some (.initConfig a0 a1 a2)
  | 0x20 => some (.transmit a0 a1 a2)
  | 0x21 => some (.sendByte a0)
  | 0x22 => some (.sendString a0)
  | 0x30 => some (.receive a0 a1 a2)
  | 0x31 => some .receiveByte
  | 0x32 => some .isDataAvailable
  | 0x40 => some .clearErrors
  | 0x41 => some (.enableInterrupts a0)
  | 0x42 => some (.disableInterrupts a0)
  | 0x43 => some (.updateBaudRate a0)
  | _ => none

/-- The decoder over the whole opcode table: the host's commands and the code of the tick event. -/
def decodeTable (c : HostCommand) : Decoded :=
  if reservedField c.cmd ≠ 0 then .rejected .reservedBits
  else
    match decodeOpcode (opcodeField c.cmd) c.a0 c.a1 c.a2 with
    | some i => .instr i
    | none => .rejected .unassignedOpcode

/-- The decoder of the host's commands (R86, R88): as `decodeTable`, with the tick event refused. -/
def decodeCommand (c : HostCommand) : Decoded :=
  match decodeTable c with
  | .instr i => if i.wf then .instr i else .rejected .notHostIssuable
  | .rejected why => .rejected why

/-- The command whose 32-bit words, CMD first and then A0, A1, A2, are the bits of `v` from bit 0 up (R80: one command
word and three argument registers, each 32 bits). -/
def commandOfBits (v : Nat) : HostCommand where
  cmd := BitVec.ofNat 32 v
  a0 := BitVec.ofNat 32 (v / 2 ^ 32)
  a1 := BitVec.ofNat 32 (v / 2 ^ 64)
  a2 := BitVec.ofNat 32 (v / 2 ^ 96)

/-- The instruction the decoder reads from a row of spec/opcode_table.json: the low `nbits` bits of `w`, every bit
above them 0 (log entry 3: the row TB_TICK is the code of an event, so this is the decoder over the whole table). -/
def decodeTableWord (nbits w : Nat) : Option Instr :=
  match decodeTable (commandOfBits (w % 2 ^ nbits)) with
  | .instr i => some i
  | .rejected _ => none

/-- The opcode of an instruction (R81). -/
def opcodeOf : Instr → Byte
  | .tbInit => 0x01
  | .tbNow => 0x02
  | .tbDelay _ => 0x03
  | .tbTick => 0x04
  | .initDefault _ => 0x10
  | .initConfig _ _ _ => 0x11
  | .transmit _ _ _ => 0x20
  | .sendByte _ => 0x21
  | .sendString _ => 0x22
  | .receive _ _ _ => 0x30
  | .receiveByte => 0x31
  | .isDataAvailable => 0x32
  | .clearErrors => 0x40
  | .enableInterrupts _ => 0x41
  | .disableInterrupts _ => 0x42
  | .updateBaudRate _ => 0x43

/-- The word `zext_32(OPC)` of R89. -/
def commandWord (opc : Byte) : Word := opc.setWidth 32

/-- The assembled form of an instruction (R89): its command word, the arguments it reads in A0, A1, A2, and 0 in every
argument register it does not read (R89 allows any value there). -/
def encode (i : Instr) : HostCommand :=
  let w := commandWord (opcodeOf i)
  match i with
  | .tbInit => ⟨w, 0, 0, 0⟩
  | .tbNow => ⟨w, 0, 0, 0⟩
  | .tbDelay ms => ⟨w, ms, 0, 0⟩
  | .tbTick => ⟨w, 0, 0, 0⟩
  | .initDefault baud => ⟨w, baud, 0, 0⟩
  | .initConfig present baud cfg => ⟨w, present, baud, cfg⟩
  | .transmit addr size timeout => ⟨w, addr, size, timeout⟩
  | .sendByte byte => ⟨w, byte, 0, 0⟩
  | .sendString addr => ⟨w, addr, 0, 0⟩
  | .receive addr size timeout => ⟨w, addr, size, timeout⟩
  | .receiveByte => ⟨w, 0, 0, 0⟩
  | .isDataAvailable => ⟨w, 0, 0, 0⟩
  | .clearErrors => ⟨w, 0, 0, 0⟩
  | .enableInterrupts mask => ⟨w, mask, 0, 0⟩
  | .disableInterrupts mask => ⟨w, mask, 0, 0⟩
  | .updateBaudRate baud => ⟨w, baud, 0, 0⟩

/-- How many of A0, A1, A2 an instruction reads (R82: always the first ones). -/
def argsRead : Instr → Nat
  | .tbInit => 0
  | .tbNow => 0
  | .tbDelay _ => 1
  | .tbTick => 0
  | .initDefault _ => 1
  | .initConfig _ _ _ => 3
  | .transmit _ _ _ => 3
  | .sendByte _ => 1
  | .sendString _ => 1
  | .receive _ _ _ => 3
  | .receiveByte => 0
  | .isDataAvailable => 0
  | .clearErrors => 0
  | .enableInterrupts _ => 1
  | .disableInterrupts _ => 1
  | .updateBaudRate _ => 1

/-- A command with 0 in every argument register past the first `n`. -/
def HostCommand.keepArgs (c : HostCommand) (n : Nat) : HostCommand where
  cmd := c.cmd
  a0 := if 1 ≤ n then c.a0 else 0
  a1 := if 2 ≤ n then c.a1 else 0
  a2 := if 3 ≤ n then c.a2 else 0

end Sys2Proof
end

