-- ==== Sys2Proof/Config.lean ====
section
/-! DEFINITION. The parameters of the model (rule R3 of spec/00_scope.md). Those a rule reads, and whose value a claim
may want to vary, are the fields of `Params`; the machine's state carries one `Params`, which no step changes, so a
statement about every state is a statement about every parameter value (log entries 1 and 5). The two that no rule
reads are constants without a body (log entry 4). -/

namespace Sys2Proof

/-- R3 `ENV_MODEL`: which line-side behaviour the LINE agent may show (R200). -/
inductive EnvModel where
  /-- The STM32F4-like events of R201 to R204. -/
  | device
  /-- Any change of SR[9:0] and RDR (R208). -/
  | free
  deriving DecidableEq, Repr

/-- The kind of a caller-memory access, the second argument of `Admit` (R61). -/
inductive AccessKind where
  | read
  | write
  deriving DecidableEq, Repr

/-- One run of caller addresses and the kinds of access admitted there (R61). Finitely many regions describe every
predicate on the 32-bit address space (log entry 5). -/
structure Region where
  base : Nat
  size : Nat
  readable : Bool
  writable : Bool
  deriving DecidableEq, Repr

/-- The parameters a model takes as arguments (R3, R20, R61). -/
structure Params where
  /-- `CLOCK_HZ`, the fixed reference input clock frequency. -/
  clockHz : Nat
  /-- `TICK_INIT`, the value of the timebase counter at reset. -/
  tickInit : Word
  /-- `ENV_MODEL`. -/
  envModel : EnvModel
  /-- The caller memory's admission predicate `Admit`, as a list of regions. -/
  regions : List Region
  deriving DecidableEq, Repr

/-- The constraint R3 puts on `CLOCK_HZ`: 1000 <= CLOCK_HZ < 2^28. -/
def Params.wf (p : Params) : Bool :=
  decide (1000 ≤ p.clockHz) && decide (p.clockHz < 2 ^ 28)

/-- The defaults of R3, with every caller address admitted for both kinds of access (DESIGN CHOICE, log entry 5). -/
def Params.default : Params where
  clockHz := 16000000
  tickInit := 0
  envModel := .device
  regions := [{ base := 0, size := 2 ^ 32, readable := true, writable := true }]

/-- R3 `FIXED_TIMEOUT`: the timeout of SEND_BYTE and RECEIVE_BYTE, 1000 ticks. -/
def Config.fixedTimeout : Word := 1000

/-- R3 `USART_BASE`: OPEN, no default; a constant without a body, so no proof can see its value (log entry 4). -/
opaque Config.usartBase : Word

/-- R3 `CHANNEL_IRQ`: OPEN; the model keeps one bit (IRQ_ARMED) for the line and no rule reads its number (log entry 4). -/
opaque Config.channelIrq : Nat

end Sys2Proof
end

