-- ==== Sys2Proof/Machine/State.lean ====
section
/-! DEFINITION. The state of the core (rule R20 of spec/10_state.md), its reset values (R53), the two ways in which a
step may end other than in a next state, and, beside the spec's own state, what the run is given from outside: the
parameters, the host's command list and the schedule of the agents (log entries 1, 2 and 5). All of it is plain
data. -/

namespace Sys2Proof.Machine

open Sys2Proof

/-- Caller memory (R60, R61): address and byte pairs in canonical form. -/
abbrev Memory := List Host.Cell

/-- The model faults of R221, which a command marks in FAULT. -/
inductive FaultMark where
  | badCommand
  | badArg
  | divideByZero
  | bufferWrap
  deriving DecidableEq, Repr

/-- The error outcomes of R84, in the source's order. -/
inductive ErrorOutcome where
  | ok
  | timeout
  | busy
  | overflow
  | parity
  | framing
  | noise
  | overrun
  deriving DecidableEq, Repr

/-- The six channel registers (R27). -/
inductive ChanReg where
  | sr
  | dr
  | brr
  | cr1
  | cr2
  | cr3
  deriving DecidableEq, Repr

/-- The status flags the polling engine waits for (R140). -/
inductive PollFlag where
  | txe
  | tc
  | rxne
  deriving DecidableEq, Repr

/-- The events of the history H (R51). A result register of `finish` is `none` where the spec writes `-`: it holds no
value yet. -/
inductive Event where
  | issue (op : Byte) (a0 a1 a2 : Word)
  | regRd (r : ChanReg) (v : Word)
  | regWr (r : ChanReg) (v : Word)
  | tickRd (v : Word)
  | memRd (a : Word) (v : Byte)
  | memWr (a : Word) (v : Byte)
  | finish (op : Byte) (r0 r1 : Option Word)
  | tick (v : Word)
  | lineTx (f : Frame)
  | lineRx (f : Frame) (pe fe nf lost : Bool)
  | lineFree (sr : Word) (rdr : Frame)
  | fault (f : FaultMark)
  deriving DecidableEq, Repr

/-- The line-side events (R201 to R204, R208), each with the values the line supplies. -/
inductive LineEvent where
  /-- TX load (R201). -/
  | txLoad
  /-- TX done (R202). -/
  | txDone
  /-- A frame arrives: RX frame (R203) or, while RXNE = 1, RX overrun (R204). -/
  | rx (b : Frame) (pe fe nf : Bool)
  /-- The free change of the free model (R208). -/
  | free (sr : BitVec 10) (rdr : Frame)
  deriving DecidableEq, Repr

/-- Which agent moves next (R50). `core` is the host's issue while FG is Idle, and FG's next step while it is
Running. The host has no other move: that it writes no byte of caller memory between commands, where R77 excludes only
writes while a command runs, is a DESIGN CHOICE (log entry 23). -/
inductive Move where
  | core
  | tick
  | line (e : LineEvent)
  deriving DecidableEq, Repr

/-- The position `mpc` of a running command (R47): the statement of its pseudocode at which the micro-step about to run
begins. A micro-step runs from there up to and including the next statement marked (step), `atomic` block, `raise` or
`finish`: the tests, assignments and result writes on the way take no step of their own. A position that several
commands have is told apart by the decoded command (log entry 16). -/
inductive Mpc where
  /-- The command's first statement. -/
  | entry
  /-- The test of TE or RE in `c1`. -/
  | testDirection
  /-- What follows `start <- TickRead()`: the entry of TB_DELAY's loop, of a buffer's loop, or of a wait. -/
  | enterLoop
  /-- What follows `t <- TickRead()` in TB_NOW (`R1 <- t`) and TB_DELAY (the test of the elapsed time). -/
  | useTime
  /-- In `WaitFlag(k, ..)`, the test `s[k] == 1` (R140). -/
  | testFlag (k : PollFlag)
  /-- In `WaitFlag(k, ..)`, the test `(t - start) mod 2^32 > tmo` (R140). -/
  | testTimeout (k : PollFlag)
  /-- What follows `s <- RegRead(SR)` outside a wait: RECEIVE's `e <- Decode(s)`, IS_DATA_AVAILABLE's `R1 <- ..`,
  CLEAR_ERRORS's test. -/
  | useStatus
  /-- What follows `d <- RegRead(DR)`: RECEIVE's `if e != NONE`, RECEIVE_BYTE's `R1 <- ..`, CLEAR_ERRORS's `R0 <- Ok`. -/
  | useData
  /-- What follows `RegWrite(DR, ..)`: the end of the loop's body, or SEND_BYTE's `R0 <- Ok`. -/
  | endFrame
  /-- What follows `b <- MemRead(..)`: TRANSMIT's `RegWrite(DR, ..)`, SEND_STRING's test of the sentinel. -/
  | useByte
  /-- What follows RECEIVE's `MemWrite(..)`: the end of the loop's body. -/
  | endStore
  /-- What follows the command's `atomic` block: its result, if it has one, and `finish`. -/
  | conclude
  deriving DecidableEq, Repr

/-- The local variables of a running command, each 32 bits (R47), under the names of the commands' pseudocode (R104,
R106, R126, R140, R141, R145, R160, R164, R180, R186); `status` is `s`. A byte in `b` and a bit in `en` stand
zero-extended, and `e` holds the code of an outcome (R84), or 0 for NONE (log entry 16). -/
structure Locals where
  c1 : Word
  start : Word
  i : Word
  status : Word
  t : Word
  d : Word
  b : Word
  e : Word
  c : Word
  o : Word
  en : Word
  deriving DecidableEq, Repr

/-- Local variables before any assignment; no command reads one before it assigns it (DESIGN CHOICE, log entry 6). -/
def Locals.empty : Locals where
  c1 := 0
  start := 0
  i := 0
  status := 0
  t := 0
  d := 0
  b := 0
  e := 0
  c := 0
  o := 0
  en := 0

/-- A running command: `Running(op, args, mpc, locals)` of R47. -/
structure Running where
  op : Byte
  a0 : Word
  a1 : Word
  a2 : Word
  mpc : Mpc
  locals : Locals
  deriving DecidableEq, Repr

/-- FG_PHASE (R47). -/
inductive FgPhase where
  | idle
  | running (r : Running)
  deriving DecidableEq, Repr

/-- The timebase (R22, R23). -/
structure Timebase where
  /-- TICK_CNT. -/
  tickCnt : Word
  /-- TICK_EN. -/
  tickEn : Bool
  /-- TICK_PERIOD. -/
  tickPeriod : Word
  deriving DecidableEq, Repr

/-- The command interface (R24, R25). `r0Set` and `r1Set` say whether R0 and R1 hold a value, which the history's
Finish events show (R51, R53; log entry 6). -/
structure CommandIf where
  cmd : Word
  a0 : Word
  a1 : Word
  a2 : Word
  r0 : Word
  r1 : Word
  r0Set : Bool
  r1Set : Bool
  deriving DecidableEq, Repr

/-- The channel: its registers (R30 to R35; DR is RDR and TDR, R31), its hidden state (R40) and the line trace
TX_LINE (R41). -/
structure Channel where
  sr : Word
  brr : Word
  cr1 : Word
  cr2 : Word
  cr3 : Word
  rdr : Frame
  tdr : Frame
  shiftBusy : Bool
  shiftData : Frame
  errArmed : BitVec 4
  tcArmed : Bool
  txLine : List Frame
  deriving DecidableEq, Repr

/-- The platform bits (R43). -/
structure Platform where
  clkEn : Bool
  pinRoute : Bool
  irqArmed : Bool
  deriving DecidableEq, Repr

/-- The state of the core (R20) and, in its last three fields, what the run is given from outside. -/
structure State where
  /-- The timebase. -/
  tb : Timebase
  /-- The command interface. -/
  ci : CommandIf
  /-- The serial channel. -/
  chan : Channel
  /-- The platform bits. -/
  plat : Platform
  /-- FG_PHASE, with the running command's position and locals. -/
  phase : FgPhase
  /-- HPC, the index of the host's next command (R48). -/
  hpc : Nat
  /-- The history H (R51). -/
  hist : List Event
  /-- FAULT (R52). -/
  fault : Option FaultMark
  /-- Caller memory (R60, R61). -/
  mem : Memory
  /-- The parameters of R3 (log entry 5). -/
  params : Params
  /-- The host's command list (R48; log entry 1). -/
  program : List HostCommand
  /-- The moves of the agents still to come; when it is empty only `core` moves are left (log entry 2). -/
  schedule : List Move
  deriving DecidableEq, Repr

/-- Why the machine stops. -/
inductive Fault where
  /-- Raised by `step` in a state whose FAULT is set: no agent takes a step (R52, R222). Safe: the spec gives such a
  state no next state. -/
  | marked (f : FaultMark)
  deriving DecidableEq, Repr

/-- Why there is no meaning. -/
inductive Refusal where
  /-- Raised by `exec` for an instruction that has no meaning yet; no arm of this model raises it. Safe. -/
  | notModelled (mnemonic : String)
  /-- Raised by `exec` of a host command while FG is Idle: FG has no step (R50). `step` never calls `exec` so. Safe. -/
  | notRunning
  /-- Raised by `exec` of a host command at a position that is no position of that command (R47). No run reaches one.
  Safe. -/
  | noMicroStep
  deriving DecidableEq, Repr

/-- What `exec` and `step` answer. -/
abbrev Result := Host.Outcome State Fault Refusal

/-- The state right after reset (R53, R250), for given parameters, command list, memory contents and schedule. Where
R53 says unspecified (CMD, A0 to A2, R0, R1, RDR, TDR, SHIFT_DATA) the value is 0 (DESIGN CHOICE, log entry 6). -/
def State.boot (p : Params) (program : List HostCommand) (mem : Memory) (schedule : List Move) : State where
  tb := { tickCnt := p.tickInit, tickEn := false, tickPeriod := 0 }
  ci := { cmd := 0, a0 := 0, a1 := 0, a2 := 0, r0 := 0, r1 := 0, r0Set := false, r1Set := false }
  chan :=
    { sr := 0xC0, brr := 0, cr1 := 0, cr2 := 0, cr3 := 0, rdr := 0, tdr := 0, shiftBusy := false, shiftData := 0,
      errArmed := 0, tcArmed := false, txLine := [] }
  plat := { clkEn := false, pinRoute := false, irqArmed := false }
  phase := .idle
  hpc := 0
  hist := []
  fault := none
  mem := mem
  params := p
  program := program
  schedule := schedule

/-- The state right after reset with the default parameters, no command list, memory with nothing listed, and no moves
scheduled. -/
def State.reset : State := State.boot Params.default [] [] []

end Sys2Proof.Machine
end

