-- ==== Sys2Proof/Machine/Flags.lean ====
section
/-! DEFINITION. The bit positions of the channel registers (rules R7 and R30 to R35 of spec/10_state.md), reading and
writing one bit, the error-flag decoder (R161 of spec/43_receive.md), the result codes (R84 of spec/30_encoding.md),
the fault codes (R221 of spec/60_exceptions.md) and the interrupt request (R206 of spec/45_line_side.md, R228 of
spec/60_exceptions.md). -/

namespace Sys2Proof.Machine

open Sys2Proof

/-- `v[i]` (R5). -/
def bit (w : Word) (n : Nat) : Bool := w.getLsbD n

/-- Write bit `n` of a register, leaving every other bit unchanged (R6). -/
def setBit (w : Word) (n : Nat) (v : Bool) : Word :=
  if v then w ||| (1#32 <<< n) else w &&& ~~~(1#32 <<< n)

/-! SR (R30). -/

abbrev Sr.pe : Nat := 0
abbrev Sr.fe : Nat := 1
abbrev Sr.nf : Nat := 2
abbrev Sr.ore : Nat := 3
abbrev Sr.idle : Nat := 4
abbrev Sr.rxne : Nat := 5
abbrev Sr.tc : Nat := 6
abbrev Sr.txe : Nat := 7
abbrev Sr.lbd : Nat := 8
abbrev Sr.cts : Nat := 9

/-! CR1 (R33). -/

abbrev Cr1.sbk : Nat := 0
abbrev Cr1.rwu : Nat := 1
abbrev Cr1.re : Nat := 2
abbrev Cr1.te : Nat := 3
abbrev Cr1.idleie : Nat := 4
abbrev Cr1.rxneie : Nat := 5
abbrev Cr1.tcie : Nat := 6
abbrev Cr1.txeie : Nat := 7
abbrev Cr1.peie : Nat := 8
abbrev Cr1.ps : Nat := 9
abbrev Cr1.pce : Nat := 10
abbrev Cr1.wake : Nat := 11
abbrev Cr1.m : Nat := 12
abbrev Cr1.ue : Nat := 13
abbrev Cr1.over8 : Nat := 15

/-! CR2 (R34): ADD is bits 3:0, STOP is bits 13:12. -/

abbrev Cr2.lbdl : Nat := 5
abbrev Cr2.lbdie : Nat := 6
abbrev Cr2.lbcl : Nat := 8
abbrev Cr2.cpha : Nat := 9
abbrev Cr2.cpol : Nat := 10
abbrev Cr2.clken : Nat := 11
abbrev Cr2.stop : Nat := 12
abbrev Cr2.linen : Nat := 14

/-! CR3 (R35). -/

abbrev Cr3.eie : Nat := 0
abbrev Cr3.iren : Nat := 1
abbrev Cr3.irlp : Nat := 2
abbrev Cr3.hdsel : Nat := 3
abbrev Cr3.nack : Nat := 4
abbrev Cr3.scen : Nat := 5
abbrev Cr3.dmar : Nat := 6
abbrev Cr3.dmat : Nat := 7
abbrev Cr3.rtse : Nat := 8
abbrev Cr3.ctse : Nat := 9
abbrev Cr3.ctsie : Nat := 10
abbrev Cr3.onebit : Nat := 11

/-- CR2.STOP, bits 13:12 (R34). -/
def stopField (cr2 : Word) : BitVec 2 := cr2.extractLsb' 12 2

/-- Write CR2.STOP, leaving every other bit unchanged (R6, R34). -/
def setStop (cr2 : Word) (v : BitVec 2) : Word :=
  setBit (setBit cr2 12 (v.getLsbD 0)) 13 (v.getLsbD 1)

/-- The implemented bits of each register (R30 to R35); every other bit is reserved and reads as 0. DR reads as its 9
bits (R31). -/
def implementedMask : ChanReg → Word
  | .sr => 0x000003FF
  | .dr => 0x000001FF
  | .brr => 0x0000FFFF
  | .cr1 => 0x0000BFFF
  | .cr2 => 0x00007F6F
  | .cr3 => 0x00000FFF

/-- The bits of each control register that some command writes (the tables of R33 to R35). -/
def writtenMask : ChanReg → Word
  | .sr => 0
  | .dr => 0x000001FF
  | .brr => 0x0000FFFF
  | .cr1 => 0x0000B6EC
  | .cr2 => 0x00003000
  | .cr3 => 0x00000301

/-- The byte offset of a register from USART_BASE (R27). -/
def regOffset : ChanReg → Word
  | .sr => 0x00
  | .dr => 0x04
  | .brr => 0x08
  | .cr1 => 0x0C
  | .cr2 => 0x10
  | .cr3 => 0x14

/-- The address of a register (R27, R70). -/
def regAddress (r : ChanReg) : Word := Config.usartBase + regOffset r

/-- The position in SR of a flag the polling engine waits for (R30, R140). -/
def pollBit : PollFlag → Nat
  | .txe => Sr.txe
  | .tc => Sr.tc
  | .rxne => Sr.rxne

/-- The result code of an outcome (R84). -/
def ErrorOutcome.code : ErrorOutcome → Word
  | .ok => 0
  | .timeout => 1
  | .busy => 2
  | .overflow => 3
  | .parity => 4
  | .framing => 5
  | .noise => 6
  | .overrun => 7

/-- What the local `e` holds of Decode's answer: the outcome's code (R84), 0 for NONE (log entry 16). -/
def decodedCode : Option ErrorOutcome → Word
  | some o => o.code
  | none => 0

/-- The code of a fault, for a reader that wants FAULT as a number (R221). -/
def FaultMark.code : FaultMark → Nat
  | .badCommand => 1
  | .badArg => 2
  | .divideByZero => 3
  | .bufferWrap => 4

/-- The error-flag decoder `Decode(s)` (R161). -/
def decodeErrors (s : Word) : Option ErrorOutcome :=
  if bit s Sr.pe then some .parity
  else if bit s Sr.fe then some .framing
  else if bit s Sr.nf then some .noise
  else if bit s Sr.ore then some .overrun
  else none

/-- Whether any of PE, FE, NF, ORE is set, the test of CLEAR_ERRORS (R180). -/
def anyError (s : Word) : Bool :=
  bit s Sr.pe || bit s Sr.fe || bit s Sr.nf || bit s Sr.ore

/-- The channel's interrupt request CH_LINE (R206). -/
def chLine (c : Channel) : Bool :=
  (bit c.sr Sr.txe && bit c.cr1 Cr1.txeie)
    || (bit c.sr Sr.tc && bit c.cr1 Cr1.tcie)
    || ((bit c.sr Sr.rxne || bit c.sr Sr.ore) && bit c.cr1 Cr1.rxneie)
    || (bit c.sr Sr.idle && bit c.cr1 Cr1.idleie)
    || (bit c.sr Sr.pe && bit c.cr1 Cr1.peie)
    || (bit c.sr Sr.lbd && bit c.cr2 Cr2.lbdie)
    || (bit c.sr Sr.cts && bit c.cr3 Cr3.ctsie)
    || ((bit c.sr Sr.fe || bit c.sr Sr.nf || bit c.sr Sr.ore) && bit c.cr3 Cr3.eie && bit c.cr3 Cr3.dmar)

/-- The request of the channel's line at the interrupt controller, CH_REQ (R228). -/
def chReq (s : State) : Bool := s.plat.irqArmed && chLine s.chan

end Sys2Proof.Machine
end

