-- ==== Sys2Proof/Machine/Ops.lean ====
section
/-! DEFINITION. The named operations of the core: caller memory (rules R60 to R62 of spec/20_memory.md), the channel
registers with their side effects (R44, R66, R67), the timebase counter (R69), the result registers (R25), the history
(R51), the end of a command (R47, R48) and the raising of a model fault (R222 of spec/60_exceptions.md). The core has
no trap and no return from one (R229), so raising a fault is the one exceptional entry there is. -/

namespace Sys2Proof.Machine

open Sys2Proof

/-! ### Caller memory -/

/-- What a caller address that nothing has written reads as: 0x00 (DESIGN CHOICE, log entry 7). -/
def Memory.unlisted : Byte := 0

/-- One byte of caller memory (R61). -/
def Memory.get : Memory → Nat → Byte
  | [], _ => Memory.unlisted
  | (k, v) :: rest, a => if k = a then v else Memory.get rest a

/-- Store one byte of caller memory (R61), keeping the canonical form. -/
def Memory.set : Memory → Nat → Byte → Memory
  | [], a, v => if v = Memory.unlisted then [] else [(a, v)]
  | (k, w) :: rest, a, v =>
    if a < k then (if v = Memory.unlisted then (k, w) :: rest else (a, v) :: (k, w) :: rest)
    else if a = k then (if v = Memory.unlisted then rest else (a, v) :: rest)
    else (k, w) :: Memory.set rest a v

/-- Addresses strictly rising from `lo` on, all below 2^32 (R60), and no entry equal to what an unlisted address reads
as. -/
def Memory.wfFrom (lo : Nat) : Memory → Bool
  | [] => true
  | (k, v) :: rest =>
    decide (lo ≤ k) && decide (k < 2 ^ 32) && decide (v ≠ Memory.unlisted) && Memory.wfFrom (k + 1) rest

/-- The canonical form of caller memory. -/
def Memory.wf (m : Memory) : Bool := Memory.wfFrom 0 m

/-- The byte at a caller address, as a run's observer reads it. -/
def State.byteAt (s : State) (a : Word) : Byte := Memory.get s.mem a.toNat

/-- Whether a region admits an access (R61). -/
def regionGrants (g : Region) (a : Word) (k : AccessKind) : Bool :=
  decide (g.base ≤ a.toNat) && decide (a.toNat < g.base + g.size) &&
    (match k with | .read => g.readable | .write => g.writable)

/-- `Admit(a, kind)`, the caller memory's admission predicate (R61). -/
def State.grants (s : State) (a : Word) (k : AccessKind) : Bool := s.params.regions.any fun g => regionGrants g a k

/-! ### History, phase and results -/

/-- Append one event to the history H (R51). -/
def record (e : Event) (s : State) : State := { s with hist := s.hist ++ [e] }

/-- Leave the controller Running at `r` (R47). -/
def setRunning (r : Running) (s : State) : State := { s with phase := .running r }

/-- `R0 <- v` for a word `v`: bits 2:0 hold an outcome code, bits 31:3 read as 0 (R25). -/
def writeR0Code (v : Word) (s : State) : State := { s with ci := { s.ci with r0 := v &&& 7, r0Set := true } }

/-- `R0 <- outcome` (R25, R84). -/
def writeR0 (o : ErrorOutcome) (s : State) : State := writeR0Code o.code s

/-- `R1 <- v` (R25). -/
def writeR1 (v : Word) (s : State) : State := { s with ci := { s.ci with r1 := v, r1Set := true } }

/-- A result register as the history shows it: `none`, the spec's `-`, while it holds no value (R51). -/
def shownResult (isSet : Bool) (v : Word) : Option Word := if isSet then some v else none

/-- `finish`: append Finish(op, R0, R1), return to Idle, and let the host's index advance by 1 (R47, R48). -/
def finish (r : Running) (s : State) : State :=
  { s with
    phase := .idle
    hpc := s.hpc + 1
    hist := s.hist ++ [.finish r.op (shownResult s.ci.r0Set s.ci.r0) (shownResult s.ci.r1Set s.ci.r1)] }

/-- `R0 <- outcome; finish`, one step of FG (R47). -/
def finishWith (o : ErrorOutcome) (r : Running) (s : State) : State := finish r (writeR0 o s)

/-- `R0 <- v; finish` for a word `v`, one step of FG (R47). -/
def finishCode (v : Word) (r : Running) (s : State) : State := finish r (writeR0Code v s)

/-- `R1 <- v; finish`, one step of FG (R47). -/
def finishValue (v : Word) (r : Running) (s : State) : State := finish r (writeR1 v s)

/-- `raise Fault(name)`: mark the fault and append it to H, and change nothing else (R222). The assignments that the same
micro-step does before it are `stepRaise`'s (R47). -/
def raiseFault (f : FaultMark) (s : State) : State := { s with fault := some f, hist := s.hist ++ [.fault f] }

/-! ### Channel registers -/

/-- The 32-bit value of a channel register (R27, R31). -/
def Channel.value (c : Channel) : ChanReg → Word
  | .sr => c.sr
  | .dr => c.rdr.setWidth 32
  | .brr => c.brr
  | .cr1 => c.cr1
  | .cr2 => c.cr2
  | .cr3 => c.cr3

/-- SR bits a DR read clears: RXNE and the armed error flags (R66). -/
def readClears (c : Channel) : Word := c.errArmed.setWidth 32 ||| (1#32 <<< Sr.rxne)

/-- The side effects of a register read (R66). -/
def Channel.afterRead (c : Channel) : ChanReg → Channel
  | .sr => { c with errArmed := c.sr.extractLsb' 0 4, tcArmed := bit c.sr Sr.tc }
  | .dr => { c with sr := c.sr &&& ~~~(readClears c), errArmed := 0 }
  | .brr => c
  | .cr1 => c
  | .cr2 => c
  | .cr3 => c

/-- SR after a DR write: TXE cleared, and TC if it is armed (R67). -/
def srAfterDataWrite (c : Channel) : Word :=
  if c.tcArmed then setBit (setBit c.sr Sr.txe false) Sr.tc false else setBit c.sr Sr.txe false

/-- The effects of a whole-register write (R67): DR loads TDR; BRR and the control registers store their implemented
bits. No command writes SR (R30, R67), so a write to it has no effect. -/
def Channel.afterWrite (c : Channel) (r : ChanReg) (v : Word) : Channel :=
  match r with
  | .sr => c
  | .dr => { c with tdr := v.setWidth 9, sr := srAfterDataWrite c, tcArmed := false }
  | .brr => { c with brr := v &&& implementedMask .brr }
  | .cr1 => { c with cr1 := v &&& implementedMask .cr1 }
  | .cr2 => { c with cr2 := v &&& implementedMask .cr2 }
  | .cr3 => { c with cr3 := v &&& implementedMask .cr3 }

/-- The value `RegRead(r)` returns: the register, or 0 while the channel is unclocked (R44). -/
def readValue (r : ChanReg) (s : State) : Word := if s.plat.clkEn then s.chan.value r else 0

/-- The state after `RegRead(r)`: the read's side effects, none while the channel is unclocked, and the event
`RegRd(r, value)` (R6, R44, R66). -/
def regRead (r : ChanReg) (s : State) : State :=
  record (.regRd r (readValue r s)) { s with chan := if s.plat.clkEn then s.chan.afterRead r else s.chan }

/-- `RegWrite(r, v)`: the write's effects, none while the channel is unclocked, and the event `RegWr(r, v)` (R6, R44,
R67). -/
def regWrite (r : ChanReg) (v : Word) (s : State) : State :=
  record (.regWr r v) { s with chan := if s.plat.clkEn then s.chan.afterWrite r v else s.chan }

/-- One statement `r.F <- v` or `BRR <- v` of an `atomic` block (R6). -/
inductive FieldWrite where
  | brr (v : Word)
  | cr1 (n : Nat) (v : Bool)
  | cr2Stop (v : BitVec 2)
  | cr3 (n : Nat) (v : Bool)
  deriving DecidableEq, Repr

/-- The register a field write goes to. -/
def FieldWrite.reg : FieldWrite → ChanReg
  | .brr _ => .brr
  | .cr1 _ _ => .cr1
  | .cr2Stop _ => .cr2
  | .cr3 _ _ => .cr3

/-- The channel after a field write: that field alone changes (R6). -/
def FieldWrite.apply (w : FieldWrite) (c : Channel) : Channel :=
  match w with
  | .brr v => c.afterWrite .brr v
  | .cr1 n v => { c with cr1 := setBit c.cr1 n v }
  | .cr2Stop v => { c with cr2 := setStop c.cr2 v }
  | .cr3 n v => { c with cr3 := setBit c.cr3 n v }

/-- A field write inside an `atomic` block: no effect while the channel is unclocked (R44), and the event RegWr with
the whole value the register has after the statement (R6 and the opening of spec/41_init.md; log entry 8). -/
def writeField (s : State) (w : FieldWrite) : State :=
  let c := if s.plat.clkEn then w.apply s.chan else s.chan
  record (.regWr w.reg (c.value w.reg)) { s with chan := c }

/-- The field writes of an `atomic` block in program order (R6). -/
def writeFields (ws : List FieldWrite) (s : State) : State := ws.foldl writeField s

/-! ### FG's steps: each does one access and leaves the command at the statement after it (R6, R47) -/

/-- `raise Fault(name)` in a command. The assignments to locals that precede it are done in its step (R47) and stand in
`r`; the position stays (log entry 14). -/
def stepRaise (f : FaultMark) (r : Running) (s : State) : State := setRunning r (raiseFault f s)

/-- `c1 <- RegRead(CR1)`. -/
def stepReadCr1 (r : Running) (s : State) : State :=
  setRunning { r with mpc := .testDirection, locals := { r.locals with c1 := readValue .cr1 s } } (regRead .cr1 s)

/-- `s <- RegRead(SR)`, leaving the command at position `m`. -/
def stepReadStatus (m : Mpc) (r : Running) (s : State) : State :=
  setRunning { r with mpc := m, locals := { r.locals with status := readValue .sr s } } (regRead .sr s)

/-- `d <- RegRead(DR)`. -/
def stepReadData (r : Running) (s : State) : State :=
  setRunning { r with mpc := .useData, locals := { r.locals with d := readValue .dr s } } (regRead .dr s)

/-- `RegWrite(DR, v)`. -/
def stepWriteData (v : Word) (r : Running) (s : State) : State :=
  setRunning { r with mpc := .endFrame } (regWrite .dr v s)

/-- The state after `TickRead()`: the event `TickRd(value)` (R6, R69). -/
def tickRead (s : State) : State := record (.tickRd s.tb.tickCnt) s

/-- `start <- TickRead()`. -/
def stepReadStart (r : Running) (s : State) : State :=
  setRunning { r with mpc := .enterLoop, locals := { r.locals with start := s.tb.tickCnt } } (tickRead s)

/-- `t <- TickRead()`, leaving the command at position `m`. -/
def stepReadTime (m : Mpc) (r : Running) (s : State) : State :=
  setRunning { r with mpc := m, locals := { r.locals with t := s.tb.tickCnt } } (tickRead s)

/-- `b <- MemRead(a, 1)`. Where the caller memory does not admit the read FG has no step: it stays where it is, for
ever, while the other agents may go on (R61, R223; log entry 9). -/
def stepReadByte (a : Word) (r : Running) (s : State) : State :=
  if s.grants a .read then
    setRunning { r with mpc := .useByte, locals := { r.locals with b := (s.byteAt a).setWidth 32 } }
      (record (.memRd a (s.byteAt a)) s)
  else s

/-- `MemWrite(a, 1, v)`, stuck in the same way where it is not admitted (R61, R223; log entry 9). -/
def stepWriteByte (a : Word) (v : Byte) (r : Running) (s : State) : State :=
  if s.grants a .write then
    setRunning { r with mpc := .endStore } (record (.memWr a v) { s with mem := Memory.set s.mem a.toNat v })
  else s

/-- Run one step of a host command: FG must be Running (R50). -/
def whileRunning (s : State) (k : Running → Result) : Result :=
  match s.phase with
  | .idle => .refused .notRunning
  | .running r => k r

end Sys2Proof.Machine
end

