-- ==== Sys2Proof/Machine/Operands.lean ====
section
/-! DEFINITION. The forms of the arguments: buffer bounds (rule R62 of spec/20_memory.md), the SEND_BYTE argument (R87),
the configuration word of INIT_CONFIG (R83, R90 of spec/30_encoding.md, R127 of spec/41_init.md) and the interrupt mask
(R85). -/

namespace Sys2Proof.Machine

open Sys2Proof

/-- `x[0] + x[1] > 2^32`: the buffer would wrap around the top of the address space (R62). -/
def bufferWraps (addr size : Word) : Bool := decide (2 ^ 32 < addr.toNat + size.toNat)

/-- `x[0] == 0 or x[1] == 0`: the buffer is absent or empty (R63, R141, R160). -/
def bufferAbsent (addr size : Word) : Bool := addr == 0 || size == 0

/-- The address of byte `i` of a buffer (R62). -/
def byteAddress (addr i : Word) : Word := addr + i

/-- `x[0] + i` has reached 2^32 (R62, R145). -/
def pastTop (addr i : Word) : Bool := decide (2 ^ 32 ≤ addr.toNat + i.toNat)

/-- SEND_BYTE's argument is a byte: A0[31:8] = 0 (R87, R143). -/
def isByteArg (x : Word) : Bool := x.extractLsb' 8 24 == 0

/-- The interrupt mask is legal: bits 31:4 are 0 (R85, R87). -/
def maskLegal (mask : Word) : Bool := mask.extractLsb' 4 28 == 0

/-- The CFG word is legal: RSVD (bits 31:10) is 0 and PAR (bits 4:3) is not 11 (R83). -/
def cfgLegal (c : Word) : Bool := c.extractLsb' 10 22 == 0 && !(c.extractLsb' 3 2 == 3#2)

/-- The oversampling factor: 8 where the bit says 8x, else 16 (R126, R186). -/
def oversampling (over8 : Bool) : Nat := if over8 then 8 else 16

/-! ### The operand form `cfg(...)` of the assembler (R90) -/

/-- Stop-bit counts in the source's order (R83). -/
inductive StopBits where
  | one
  | half
  | two
  | oneAndHalf
  deriving DecidableEq, Repr

/-- Parity modes in the source's order (R83). -/
inductive Parity where
  | none
  | even
  | odd
  deriving DecidableEq, Repr

/-- The SerialConfiguration value, less its baud rate (R83). -/
structure SerialConfig where
  nineBits : Bool
  stop : StopBits
  parity : Parity
  tx : Bool
  rx : Bool
  over8 : Bool
  rts : Bool
  cts : Bool
  deriving DecidableEq, Repr

/-- The STOP code (R83). -/
def StopBits.code : StopBits → BitVec 2
  | .one => 0
  | .half => 1
  | .two => 2
  | .oneAndHalf => 3

/-- The PAR code (R83). -/
def Parity.code : Parity → BitVec 2
  | .none => 0
  | .even => 1
  | .odd => 2

/-- The CFG word `cfg(...)` stands for (R83, R90). -/
def SerialConfig.pack (c : SerialConfig) : Word :=
  (BitVec.ofBool c.nineBits).setWidth 32
    ||| (c.stop.code.setWidth 32 <<< 1)
    ||| (c.parity.code.setWidth 32 <<< 3)
    ||| ((BitVec.ofBool c.tx).setWidth 32 <<< 5)
    ||| ((BitVec.ofBool c.rx).setWidth 32 <<< 6)
    ||| ((BitVec.ofBool c.over8).setWidth 32 <<< 7)
    ||| ((BitVec.ofBool c.rts).setWidth 32 <<< 8)
    ||| ((BitVec.ofBool c.cts).setWidth 32 <<< 9)

end Sys2Proof.Machine
end

