-- ==== Sys2Proof/Machine/Divisor.lean ====
section
/-! DEFINITION. The baud-rate divisor calculator (rules R120 to R123 of spec/41_init.md), in exact natural-number
arithmetic (R9 of spec/00_scope.md). -/

namespace Sys2Proof.Machine

open Sys2Proof

/-- `Div(clk, b, o)`: mantissa and fraction, truncated (R120). -/
def divisor (clk b o : Nat) : Nat × Nat := ((clk / b) / o, (clk / b) % o)

/-- The remainder scaled by 16 (R121). -/
def scaledRemainder (clk b : Nat) : Nat := ((clk % b) * 16) / b

/-- `DivRound(clk, b)`: the 16x divisor rounded on its scaled remainder, with the carry into the mantissa (R121). -/
def divisorRounded (clk b : Nat) : Nat × Nat :=
  let d := divisor clk b 16
  if 8 ≤ scaledRemainder clk b then (if d.2 = 15 then (d.1 + 1, 0) else (d.1, d.2 + 1)) else d

/-- `Pack(m, f) = ((m << 4) | f) mod 2^16`, the value written to BRR (R123). -/
def packDivisor (d : Nat × Nat) : Word := BitVec.ofNat 32 (((d.1 <<< 4) ||| d.2) % 2 ^ 16)

end Sys2Proof.Machine
end

