-- ==== Sys2Proof/Machine/ControlCmds.lean ====
section
/-! DEFINITION. CLEAR_ERRORS, ENABLE_INTERRUPTS, DISABLE_INTERRUPTS and UPDATE_BAUD_RATE (rules R180 to R188 of
spec/44_error_interrupt.md). -/

namespace Sys2Proof.Machine

open Sys2Proof

/-- One FG step of CLEAR_ERRORS: one SR read, and a DR read only where it saw an error flag (R180). -/
def execClearErrors (s : State) : Result :=
  whileRunning s fun r =>
    match r.mpc with
    | .entry => .next (stepReadStatus .useStatus r s)
    | .useStatus =>
      if anyError r.locals.status then .next (stepReadData r s) else .next (finishWith .ok r s)
    | .useData => .next (finishWith .ok r s)
    | _ => .refused .noMicroStep

/-- The enable-bit statements for a mask: each selected enable bit gets the value `v`, in the order RXNEIE, TXEIE, TCIE,
EIE (R85, R182, R184). -/
def enableBitWrites (mask : Word) (v : Bool) : List FieldWrite :=
  (if bit mask 0 then [.cr1 Cr1.rxneie v] else [])
    ++ (if bit mask 1 then [.cr1 Cr1.txeie v] else [])
    ++ (if bit mask 2 then [.cr1 Cr1.tcie v] else [])
    ++ (if bit mask 3 then [.cr3 Cr3.eie v] else [])

/-- `IRQ_ARMED <- 1` (R43, R182). -/
def armLine (s : State) : State := { s with plat := { s.plat with irqArmed := true } }

/-- One FG step of ENABLE_INTERRUPTS (R182). -/
def execEnableInterrupts (mask : Word) (s : State) : Result :=
  whileRunning s fun r =>
    match r.mpc with
    | .entry =>
      if maskLegal mask = false then .next (stepRaise .badArg r s)
      else .next (setRunning { r with mpc := .conclude } (armLine (writeFields (enableBitWrites mask true) s)))
    | .conclude => .next (finish r s)
    | _ => .refused .noMicroStep

/-- One FG step of DISABLE_INTERRUPTS (R184). -/
def execDisableInterrupts (mask : Word) (s : State) : Result :=
  whileRunning s fun r =>
    match r.mpc with
    | .entry =>
      if maskLegal mask = false then .next (stepRaise .badArg r s)
      else .next (setRunning { r with mpc := .conclude } (writeFields (enableBitWrites mask false) s))
    | .conclude => .next (finish r s)
    | _ => .refused .noMicroStep

/-- The register statements of UPDATE_BAUD_RATE's `atomic` block, for the value `c1` it read from CR1 (R186). -/
def updateBaudWrites (clk : Nat) (baud c1 : Word) : List FieldWrite :=
  [.cr1 Cr1.ue false,
   .brr (packDivisor (divisor clk baud.toNat (oversampling (bit c1 Cr1.over8)))),
   .cr1 Cr1.ue (bit c1 Cr1.ue)]

/-- UPDATE_BAUD_RATE's assignments `c1 <- CR1`, `en <- c1[UE]` and `o <- 8 if c1[OVER8] == 1 else 16` (R186). -/
def updateBaudLocals (c1 : Word) (l : Locals) : Locals :=
  { l with
    c1 := c1
    en := (BitVec.ofBool (bit c1 Cr1.ue)).setWidth 32
    o := BitVec.ofNat 32 (oversampling (bit c1 Cr1.over8)) }

/-- One FG step of UPDATE_BAUD_RATE (R186). -/
def execUpdateBaudRate (baud : Word) (s : State) : Result :=
  whileRunning s fun r =>
    match r.mpc with
    | .entry =>
      if baud = 0 then .next (finishWith .busy r s)
      else
        .next (setRunning { r with mpc := .conclude, locals := updateBaudLocals (readValue .cr1 s) r.locals }
          (writeFields (updateBaudWrites s.params.clockHz baud (readValue .cr1 s)) (regRead .cr1 s)))
    | .conclude => .next (finishWith .ok r s)
    | _ => .refused .noMicroStep

end Sys2Proof.Machine
end

