-- ==== Sys2Proof/Machine/InitCmds.lean ====
section
/-! DEFINITION. INIT_DEFAULT and INIT_CONFIG (rules R124 to R129 of spec/41_init.md). -/

namespace Sys2Proof.Machine

open Sys2Proof

/-- `CLK_EN <- 1; PIN_ROUTE <- 1` (R43, R124, R126). -/
def enableClockAndPins (s : State) : State := { s with plat := { s.plat with clkEn := true, pinRoute := true } }

/-- The register statements of INIT_DEFAULT's `atomic` block (R124). -/
def initDefaultWrites (clk : Nat) (baud : Word) : List FieldWrite :=
  [.brr (packDivisor (divisorRounded clk baud.toNat)),
   .cr1 Cr1.over8 false,
   .cr1 Cr1.m false,
   .cr1 Cr1.pce false,
   .cr1 Cr1.ps false,
   .cr2Stop 0,
   .cr1 Cr1.te true,
   .cr1 Cr1.re true,
   .cr1 Cr1.ue true]

/-- One FG step of INIT_DEFAULT (R124). -/
def execInitDefault (baud : Word) (s : State) : Result :=
  whileRunning s fun r =>
    match r.mpc with
    | .entry =>
      if baud = 0 then .next (stepRaise .divideByZero r s)
      else
        .next (setRunning { r with mpc := .conclude }
          (writeFields (initDefaultWrites s.params.clockHz baud) (enableClockAndPins s)))
    | .conclude => .next (finish r s)
    | _ => .refused .noMicroStep

/-- The register statements of INIT_CONFIG's `atomic` block for a CFG word (R126, R127). -/
def initConfigWrites (clk : Nat) (baud cfg : Word) : List FieldWrite :=
  [.cr1 Cr1.ue false,
   .cr1 Cr1.over8 (bit cfg 7),
   .brr (packDivisor (divisor clk baud.toNat (oversampling (bit cfg 7)))),
   .cr1 Cr1.m (bit cfg 0),
   .cr1 Cr1.pce (cfg.extractLsb' 3 2 != 0#2),
   .cr1 Cr1.ps (cfg.extractLsb' 3 2 == 2#2),
   .cr2Stop (cfg.extractLsb' 1 2),
   .cr3 Cr3.rtse (bit cfg 8),
   .cr3 Cr3.ctse (bit cfg 9),
   .cr1 Cr1.te (bit cfg 5),
   .cr1 Cr1.re (bit cfg 6),
   .cr1 Cr1.ue true]

/-- INIT_CONFIG's assignment `c <- x[2]`, which its raises follow in one step (R47, R126). -/
def configWord (cfg : Word) (l : Locals) : Locals := { l with c := cfg }

/-- INIT_CONFIG's assignments `c <- x[2]` and `o <- 8 if c[7] == 1 else 16` (R126). -/
def configLocals (cfg : Word) (l : Locals) : Locals :=
  { configWord cfg l with o := BitVec.ofNat 32 (oversampling (bit cfg 7)) }

/-- One FG step of INIT_CONFIG: Busy for an absent configuration comes first, then BadArg, then DivideByZero (R126,
R224). -/
def execInitConfig (present baud cfg : Word) (s : State) : Result :=
  whileRunning s fun r =>
    match r.mpc with
    | .entry =>
      if present = 0 then .next (finishWith .busy r s)
      else if cfgLegal cfg = false then .next (stepRaise .badArg { r with locals := configWord cfg r.locals } s)
      else if baud = 0 then .next (stepRaise .divideByZero { r with locals := configWord cfg r.locals } s)
      else
        .next (setRunning { r with mpc := .conclude, locals := configLocals cfg r.locals }
          (writeFields (initConfigWrites s.params.clockHz baud cfg) (enableClockAndPins s)))
    | .conclude => .next (finishWith .ok r s)
    | _ => .refused .noMicroStep

end Sys2Proof.Machine
end

