-- ==== Sys2Proof/Machine/Wait.lean ====
section
/-! DEFINITION. The polling engine `WaitFlag` (rule R140 of spec/42_transmit.md) and elapsed time (R105 of
spec/40_timebase.md). -/

namespace Sys2Proof.Machine

open Sys2Proof

/-- `Elapsed(s, t) = (t - s) mod 2^32` (R105). -/
def elapsed (start t : Word) : Word := t - start

/-- `(t - start) mod 2^32 > tmo`: the timeout has expired, strictly (R140). -/
def expired (start t tmo : Word) : Bool := tmo.ult (elapsed start t)

/-- The SR read that opens an iteration of `WaitFlag(k, ..)` (R140). -/
def stepPoll (k : PollFlag) (r : Running) (s : State) : State := stepReadStatus (.testFlag k) r s

/-- `WaitFlag(k, start, tmo)` after its SR read: the flag is tested first; where it is set the command goes on with
`ready`, else the clock is read, or, with no timeout, SR again (R140). -/
def waitPolled (k : PollFlag) (tmo : Option Word) (ready : Running → State → State) (r : Running) (s : State) : State :=
  if bit r.locals.status (pollBit k) then ready r s
  else
    match tmo with
    | some _ => stepReadTime (.testTimeout k) r s
    | none => stepPoll k r s

/-- `WaitFlag(k, start, tmo)` after its TickRead: where the timeout has expired the command goes on with `timedOut`,
else SR is read again (R140). -/
def waitTimed (k : PollFlag) (tmo : Word) (timedOut : Running → State → State) (r : Running) (s : State) : State :=
  if expired r.locals.start r.locals.t tmo then timedOut r s else stepPoll k r s

end Sys2Proof.Machine
end

