-- ==== Sys2Proof/Machine/TransmitCmds.lean ====
section
/-! DEFINITION. TRANSMIT, SEND_BYTE and SEND_STRING (rules R141 to R148 of spec/42_transmit.md). -/

namespace Sys2Proof.Machine

open Sys2Proof

/-- The next step after byte `i` of a buffer of `size` bytes: `more`, with the loop variable advanced, while bytes are
left, else `last` (the `for` loop of R141 and R160). -/
def nextByte (size : Word) (more : Running → State → State) (last : Running → State → State) (r : Running) (s : State) :
    State :=
  if r.locals.i.toNat + 1 < size.toNat then more { r with locals := { r.locals with i := r.locals.i + 1 } } s
  else last r s

/-- One FG step of TRANSMIT (R141). -/
def execTransmit (addr size timeout : Word) (s : State) : Result :=
  whileRunning s fun r =>
    match r.mpc with
    | .entry => if bufferAbsent addr size then .next (finishWith .busy r s) else .next (stepReadCr1 r s)
    | .testDirection =>
      if bit r.locals.c1 Cr1.te = false then .next (finishWith .busy r s)
      else if bufferWraps addr size then .next (stepRaise .bufferWrap r s)
      else .next (stepReadStart r s)
    | .enterLoop => .next (stepPoll .txe { r with locals := { r.locals with i := 0 } } s)
    | .testFlag .txe =>
      .next (waitPolled .txe (some timeout) (fun r s => stepReadByte (byteAddress addr r.locals.i) r s) r s)
    | .testTimeout .txe => .next (waitTimed .txe timeout (finishWith .timeout) r s)
    | .useByte => .next (stepWriteData r.locals.b r s)
    | .endFrame => .next (nextByte size (stepPoll .txe) (stepPoll .tc) r s)
    | .testFlag .tc => .next (waitPolled .tc (some timeout) (finishWith .ok) r s)
    | .testTimeout .tc => .next (waitTimed .tc timeout (finishWith .timeout) r s)
    | _ => .refused .noMicroStep

/-- One FG step of SEND_BYTE (R143). -/
def execSendByte (byte : Word) (s : State) : Result :=
  whileRunning s fun r =>
    match r.mpc with
    | .entry => if isByteArg byte = false then .next (stepRaise .badArg r s) else .next (stepReadCr1 r s)
    | .testDirection => if bit r.locals.c1 Cr1.te = false then .next (finishWith .busy r s) else .next (stepReadStart r s)
    | .enterLoop => .next (stepPoll .txe r s)
    | .testFlag .txe =>
      .next (waitPolled .txe (some Config.fixedTimeout) (stepWriteData ((byte.setWidth 8).setWidth 32)) r s)
    | .testTimeout .txe => .next (waitTimed .txe Config.fixedTimeout (finishWith .timeout) r s)
    | .endFrame => .next (finishWith .ok r s)
    | _ => .refused .noMicroStep

/-- The loop head of SEND_STRING: BufferWrap at address 2^32, else the memory read of byte `i` (R62, R145). -/
def stringByte (addr : Word) (r : Running) (s : State) : State :=
  if pastTop addr r.locals.i then stepRaise .bufferWrap r s else stepReadByte (byteAddress addr r.locals.i) r s

/-- The end of the loop body of SEND_STRING, `i <- i + 1`, and its head again (R145). -/
def nextStringByte (addr : Word) (r : Running) (s : State) : State :=
  stringByte addr { r with locals := { r.locals with i := r.locals.i + 1 } } s

/-- One FG step of SEND_STRING (R145). -/
def execSendString (addr : Word) (s : State) : Result :=
  whileRunning s fun r =>
    match r.mpc with
    | .entry =>
      if addr = 0 then .next (stepRaise .badArg r s)
      else .next (stringByte addr { r with locals := { r.locals with i := 0 } } s)
    | .useByte => if r.locals.b = 0 then .next (stepPoll .tc r s) else .next (stepPoll .txe r s)
    | .testFlag .txe => .next (waitPolled .txe none (fun r s => stepWriteData r.locals.b r s) r s)
    | .endFrame => .next (nextStringByte addr r s)
    | .testFlag .tc => .next (waitPolled .tc none finish r s)
    | _ => .refused .noMicroStep

end Sys2Proof.Machine
end

