-- ==== Sys2Proof/Machine/ReceiveCmds.lean ====
section
/-! DEFINITION. RECEIVE, RECEIVE_BYTE and IS_DATA_AVAILABLE (rules R160 to R167 of spec/43_receive.md). -/

namespace Sys2Proof.Machine

open Sys2Proof

/-- The low byte of a value read from DR, `d[7:0]` (R160, R164). -/
def lowByte (d : Word) : Byte := d.setWidth 8

/-- After RECEIVE's DR read: a decoded error ends the command, otherwise the byte goes to the buffer (R160, R162). -/
def storeOrReport (addr : Word) (r : Running) (s : State) : State :=
  if r.locals.e ≠ 0 then finishCode r.locals.e r s
  else stepWriteByte (byteAddress addr r.locals.i) (lowByte r.locals.d) r s

/-- One FG step of RECEIVE (R160). -/
def execReceive (addr size timeout : Word) (s : State) : Result :=
  whileRunning s fun r =>
    match r.mpc with
    | .entry => if bufferAbsent addr size then .next (finishWith .busy r s) else .next (stepReadCr1 r s)
    | .testDirection =>
      if bit r.locals.c1 Cr1.re = false then .next (finishWith .busy r s)
      else if bufferWraps addr size then .next (stepRaise .bufferWrap r s)
      else .next (stepReadStart r s)
    | .enterLoop => .next (stepPoll .rxne { r with locals := { r.locals with i := 0 } } s)
    | .testFlag .rxne => .next (waitPolled .rxne (some timeout) (stepReadStatus .useStatus) r s)
    | .testTimeout .rxne => .next (waitTimed .rxne timeout (finishWith .timeout) r s)
    | .useStatus =>
      .next (stepReadData { r with locals := { r.locals with e := decodedCode (decodeErrors r.locals.status) } } s)
    | .useData => .next (storeOrReport addr r s)
    | .endStore => .next (nextByte size (stepPoll .rxne) (finishWith .ok) r s)
    | _ => .refused .noMicroStep

/-- One FG step of RECEIVE_BYTE (R164). -/
def execReceiveByte (s : State) : Result :=
  whileRunning s fun r =>
    match r.mpc with
    | .entry => .next (stepReadStart r s)
    | .enterLoop => .next (stepPoll .rxne r s)
    | .testFlag .rxne => .next (waitPolled .rxne (some Config.fixedTimeout) stepReadData r s)
    | .testTimeout .rxne => .next (waitTimed .rxne Config.fixedTimeout (finishValue 0) r s)
    | .useData => .next (finishValue ((lowByte r.locals.d).setWidth 32) r s)
    | _ => .refused .noMicroStep

/-- `zext_32(s[RXNE])` (R166). -/
def rxneValue (status : Word) : Word := if bit status Sr.rxne then 1 else 0

/-- One FG step of IS_DATA_AVAILABLE (R166). -/
def execIsDataAvailable (s : State) : Result :=
  whileRunning s fun r =>
    match r.mpc with
    | .entry => .next (stepReadStatus .useStatus r s)
    | .useStatus => .next (finishValue (rxneValue r.locals.status) r s)
    | _ => .refused .noMicroStep

end Sys2Proof.Machine
end

