-- ==== Sys2Proof/Machine/TimebaseCmds.lean ====
section
/-! DEFINITION. The timebase commands TB_INIT, TB_NOW and TB_DELAY and the tick event TB_TICK (rules R100 to R109 of
spec/40_timebase.md). -/

namespace Sys2Proof.Machine

open Sys2Proof

/-- The `atomic` block of TB_INIT: TICK_PERIOD <- CLOCK_HZ / 1000, TICK_EN <- 1 (R100). -/
def startTickSource (s : State) : State :=
  { s with tb := { s.tb with tickPeriod := BitVec.ofNat 32 (s.params.clockHz / 1000), tickEn := true } }

/-- One FG step of TB_INIT (R100). -/
def execTbInit (s : State) : Result :=
  whileRunning s fun r =>
    match r.mpc with
    | .entry => .next (setRunning { r with mpc := .conclude } (startTickSource s))
    | .conclude => .next (finish r s)
    | _ => .refused .noMicroStep

/-- One FG step of TB_NOW (R104). -/
def execTbNow (s : State) : Result :=
  whileRunning s fun r =>
    match r.mpc with
    | .entry => .next (stepReadTime .useTime r s)
    | .useTime => .next (finishValue r.locals.t r s)
    | _ => .refused .noMicroStep

/-- One FG step of TB_DELAY: it ends at the first read with elapsed >= ms (R106). -/
def execTbDelay (ms : Word) (s : State) : Result :=
  whileRunning s fun r =>
    match r.mpc with
    | .entry => .next (stepReadStart r s)
    | .enterLoop => .next (stepReadTime .useTime r s)
    | .useTime =>
      if ms.ule (elapsed r.locals.start r.locals.t) then .next (finish r s) else .next (stepReadTime .useTime r s)
    | _ => .refused .noMicroStep

/-- The tick: the counter goes up by exactly 1, modulo 2^32, and the event Tick records its new value (R102, R103). -/
def tickCounter (s : State) : State :=
  record (.tick (s.tb.tickCnt + 1)) { s with tb := { s.tb with tickCnt := s.tb.tickCnt + 1 } }

/-- TB_TICK, one step of the TICK agent: enabled while TICK_EN = 1; while TICK_EN = 0 the event does not occur, so the
state stays as it is (R102; log entry 2). -/
def execTbTick (s : State) : Result := if s.tb.tickEn then .next (tickCounter s) else .next s

end Sys2Proof.Machine
end

