-- ==== Sys2Proof/Machine/Dispatch.lean ====
section
/-! DEFINITION. One arm per instruction: the next step FG takes in a running command (rule R47 of spec/10_state.md), or,
for TB_TICK, the step of the TICK agent (R102). -/

namespace Sys2Proof.Machine

open Sys2Proof

def exec (i : Instr) (s : State) : Host.Outcome State Fault Refusal :=
  match i with
  | .tbInit => Sys2Proof.Machine.execTbInit s
  | .tbNow => Sys2Proof.Machine.execTbNow s
  | .tbDelay ms => Sys2Proof.Machine.execTbDelay ms s
  | .tbTick => Sys2Proof.Machine.execTbTick s
  | .initDefault baud => Sys2Proof.Machine.execInitDefault baud s
  | .initConfig present baud cfg => Sys2Proof.Machine.execInitConfig present baud cfg s
  | .transmit addr size timeout => Sys2Proof.Machine.execTransmit addr size timeout s
  | .sendByte byte => Sys2Proof.Machine.execSendByte byte s
  | .sendString addr => Sys2Proof.Machine.execSendString addr s
  | .receive addr size timeout => Sys2Proof.Machine.execReceive addr size timeout s
  | .receiveByte => Sys2Proof.Machine.execReceiveByte s
  | .isDataAvailable => Sys2Proof.Machine.execIsDataAvailable s
  | .clearErrors => Sys2Proof.Machine.execClearErrors s
  | .enableInterrupts mask => Sys2Proof.Machine.execEnableInterrupts mask s
  | .disableInterrupts mask => Sys2Proof.Machine.execDisableInterrupts mask s
  | .updateBaudRate baud => Sys2Proof.Machine.execUpdateBaudRate baud s

end Sys2Proof.Machine
end

