-- ==== Sys2Proof/Machine/Line.lean ====
section
/-! DEFINITION. The LINE agent: the line-side events of the channel (rules R200 to R208 of spec/45_line_side.md). -/

namespace Sys2Proof.Machine

open Sys2Proof

/-- The guard common to every event of the device model: ENV_MODEL = device, CLK_EN = 1 and CR1.UE = 1 (R200, R207). -/
def deviceLineRuns (s : State) : Bool :=
  decide (s.params.envModel = .device) && s.plat.clkEn && bit s.chan.cr1 Cr1.ue

/-- The draws a frame may carry: b[8] = 0 when CR1.M = 0, and pe = 1 only when CR1.PCE = 1 (R203). -/
def drawLegal (cr1 : Word) (b : Frame) (pe : Bool) : Bool :=
  (bit cr1 Cr1.m || !(b.getLsbD 8)) && (bit cr1 Cr1.pce || !pe)

/-- When a LINE event is enabled (R200 to R204, R208). -/
def lineEnabled (e : LineEvent) (s : State) : Bool :=
  match e with
  | .txLoad => deviceLineRuns s && bit s.chan.cr1 Cr1.te && !(bit s.chan.sr Sr.txe) && !s.chan.shiftBusy
  | .txDone => deviceLineRuns s && s.chan.shiftBusy
  | .rx b pe _ _ => deviceLineRuns s && bit s.chan.cr1 Cr1.re && drawLegal s.chan.cr1 b pe
  | .free _ _ => decide (s.params.envModel = .free) && s.plat.clkEn

/-- The data bits of the frame in TDR: 9 with CR1.M = 1, else 8 (R201). -/
def frameBits (c : Channel) : Frame := if bit c.cr1 Cr1.m then c.tdr else (c.tdr.setWidth 8).setWidth 9

/-- TX load (R201). -/
def txLoad (s : State) : State :=
  record (.lineTx (frameBits s.chan))
    { s with
      chan :=
        { s.chan with
          shiftData := s.chan.tdr
          txLine := s.chan.txLine ++ [frameBits s.chan]
          sr := setBit s.chan.sr Sr.txe true
          shiftBusy := true } }

/-- TX done (R202). -/
def txDone (s : State) : State :=
  { s with
    chan :=
      { s.chan with
        shiftBusy := false
        sr := if bit s.chan.sr Sr.txe then setBit s.chan.sr Sr.tc true else s.chan.sr } }

/-- SR with a flag set where the draw sets it, and left as it is otherwise: `SR.F <- SR.F or v` (R203). -/
def orBit (sr : Word) (n : Nat) (v : Bool) : Word := if v then setBit sr n true else sr

/-- RX frame (R203). -/
def rxFrame (b : Frame) (pe fe nf : Bool) (s : State) : State :=
  record (.lineRx b pe fe nf false)
    { s with
      chan :=
        { s.chan with
          rdr := b
          sr := orBit (orBit (orBit (setBit s.chan.sr Sr.rxne true) Sr.pe pe) Sr.fe fe) Sr.nf nf } }

/-- RX overrun (R204). -/
def rxOverrun (b : Frame) (pe fe nf : Bool) (s : State) : State :=
  record (.lineRx b pe fe nf true) { s with chan := { s.chan with sr := setBit s.chan.sr Sr.ore true } }

/-- SR with its low ten bits replaced (R208). -/
def srWithFlags (sr : Word) (v : BitVec 10) : Word := (sr &&& ~~~(implementedMask .sr)) ||| v.setWidth 32

/-- The free change (R208). -/
def freeChange (v : BitVec 10) (rdr : Frame) (s : State) : State :=
  record (.lineFree (srWithFlags s.chan.sr v) rdr)
    { s with chan := { s.chan with sr := srWithFlags s.chan.sr v, rdr := rdr } }

/-- The effect of an enabled LINE event. -/
def lineEffect (e : LineEvent) (s : State) : State :=
  match e with
  | .txLoad => txLoad s
  | .txDone => txDone s
  | .rx b pe fe nf => if bit s.chan.sr Sr.rxne then rxOverrun b pe fe nf s else rxFrame b pe fe nf s
  | .free v rdr => freeChange v rdr s

/-- One move of LINE: an event that is not enabled does not occur, so the state stays as it is (R200; log entry 2). -/
def lineStep (e : LineEvent) (s : State) : State := if lineEnabled e s then lineEffect e s else s

end Sys2Proof.Machine
end

