-- ==== Sys2Proof/Machine/Agents.lean ====
section
/-! DEFINITION. The agents and who moves next (rules R47, R48 and R50 of spec/10_state.md, R86 of spec/30_encoding.md,
R222 of spec/60_exceptions.md, R256 of spec/70_reset_and_hazards.md). -/

namespace Sys2Proof.Machine

open Sys2Proof

/-- A command just issued (R47): its opcode, its arguments, the first position. -/
def Running.ofCommand (c : HostCommand) : Running where
  op := opcodeField c.cmd
  a0 := c.a0
  a1 := c.a1
  a2 := c.a2
  mpc := .entry
  locals := Locals.empty

/-- The host issues a command (R24, R47): it writes CMD and A0 to A2, Idle becomes Running, and Issue(CMD[7:0], A0, A1,
A2) is appended to H. -/
def issue (c : HostCommand) (s : State) : State :=
  record (.issue (opcodeField c.cmd) c.a0 c.a1 c.a2)
    { s with
      ci := { s.ci with cmd := c.cmd, a0 := c.a0, a1 := c.a1, a2 := c.a2 }
      phase := .running (Running.ofCommand c) }

/-- The host's move while FG is Idle: the next command of its list, or, past the last one, nothing (R48, R256). It writes
no byte of caller memory (DESIGN CHOICE, log entry 23: R77 excludes a host write only while a command runs, and R61 makes
the contents at the start of a run the host's). -/
def hostTurn (s : State) : State :=
  match s.program[s.hpc]? with
  | some c => issue c s
  | none => s

/-- The command FG is running, as its decoder reads it: CMD and the arguments read at issue (R47, R86). -/
def runningCommand (r : Running) (s : State) : HostCommand where
  cmd := s.ci.cmd
  a0 := r.a0
  a1 := r.a1
  a2 := r.a2

/-- FG's next step: a command that does not decode raises BadCommand (R86), any other takes its own next step. -/
def fgTurn (r : Running) (s : State) : Result :=
  match decodeCommand (runningCommand r s) with
  | .instr i => exec i s
  | .rejected _ => .next (raiseFault .badCommand s)

/-- The move `core`: the host's issue while FG is Idle, FG's next step while it is Running (R47, R50). -/
def coreTurn (s : State) : Result :=
  match s.phase with
  | .idle => .next (hostTurn s)
  | .running r => fgTurn r s

/-- One move of one agent (R50). -/
def moveStep (m : Move) (s : State) : Result :=
  match m with
  | .core => coreTurn s
  | .tick => exec .tbTick s
  | .line e => .next (lineStep e s)

/-- The next move of the schedule; past its end only `core` moves are left (log entry 2). -/
def nextMove (s : State) : Move := s.schedule.headD .core

/-- The state once the next move has been taken off the schedule. -/
def takeMove (s : State) : State := { s with schedule := s.schedule.tail }

/-- One step of the machine: none once a fault is marked (R52, R222), else the next move of the schedule. -/
def agentStep (s : State) : Result :=
  match s.fault with
  | some f => .fault (.marked f)
  | none => moveStep (nextMove s) (takeMove s)

/-- The state in which the very next step runs the instruction in the bits `w` (log entries 1 and 3). For a host
command, it stands next in the host's list and has just been issued. For the code of the tick event, the tick source is
on and the TICK agent has the next move. -/
def placeWord (s : State) (nbits w : Nat) : State :=
  let c := commandOfBits (w % 2 ^ nbits)
  match decodeTable c with
  | .instr .tbTick => { s with tb := { s.tb with tickEn := true }, fault := none, schedule := .tick :: s.schedule }
  | _ =>
    issue c
      { s with
        program := s.program.take s.hpc ++ c :: s.program.drop s.hpc
        fault := none
        schedule := .core :: s.schedule }

end Sys2Proof.Machine
end

