-- ==== Sys2Proof/Machine/Step.lean ====
section
/-! DEFINITION. The step of the machine (rule R50 of spec/10_state.md) and the host's way to place one instruction. -/

namespace Sys2Proof.Machine

open Sys2Proof

/-- One step: one move of one agent. -/
def step (s : State) : Host.Outcome State Fault Refusal := agentStep s

/-- `s` with the instruction in the bits `w` where the next step runs it (log entries 1 and 3). -/
def State.withFetchWord (s : State) (nbits w : Nat) : State := placeWord s nbits w

end Sys2Proof.Machine
end

