-- ==== Sys2Proof/Safety.lean ====
section
/-! DEFINITION. The terms in which claims are made: runs and their ends (rules R52, R222, R223 and R256), reachable
states, infinite runs with the fairness of R50, and the invariants the machine is meant to keep. -/

namespace Sys2Proof.Machine

open Sys2Proof

/-! ### Runs -/

/-- A run has ended: FG is Idle, the host has no command left, and no fault is marked (R256). -/
def State.ended (s : State) : Prop := s.phase = .idle ∧ s.hpc = s.program.length ∧ s.fault = none

/-- A run has failed: a fault is marked (R222). -/
def State.failed (s : State) : Prop := s.fault ≠ none

/-- FG is stuck: it is Running, no fault is marked, and its next step is none (R61, R223). -/
def State.stuck (s : State) : Prop := ∃ r, s.phase = .running r ∧ s.fault = none ∧ coreTurn s = .next s

/-- `t` is reached from `s` in some number of steps. -/
inductive Reaches : State → State → Prop where
  | refl (s : State) : Reaches s s
  | step {s t u : State} (h : Reaches s t) (hs : Machine.step t = .next u) : Reaches s u

/-- An infinite run: which agent moves at each point, and the states in between (R50). -/
def IsRun (moves : Nat → Move) (states : Nat → State) : Prop :=
  ∀ n, (states n).fault = none ∧ moveStep (moves n) (states n) = .next (states (n + 1))

/-- FG is weakly fair: it does not stay Running for ever without a move (R50). -/
def FgFair (moves : Nat → Move) (states : Nat → State) : Prop :=
  ∀ n, (∀ k, n ≤ k → (states k).phase ≠ .idle) → ∃ k, n ≤ k ∧ moves k = .core

/-- TICK is weakly fair while TICK_EN = 1 (R50). -/
def TickFair (moves : Nat → Move) (states : Nat → State) : Prop :=
  ∀ n, (∀ k, n ≤ k → (states k).tb.tickEn = true) → ∃ k, n ≤ k ∧ moves k = .tick

/-! ### Commands -/

/-- The fifteen host-issuable opcodes of R81. -/
def issuableOpcodes : List Byte :=
  [0x01, 0x02, 0x03, 0x10, 0x11, 0x20, 0x21, 0x22, 0x30, 0x31, 0x32, 0x40, 0x41, 0x42, 0x43]

/-- FG is Running at position `m`. -/
def State.standsAt (s : State) (m : Mpc) (r : Running) : Prop := s.phase = .running r ∧ r.mpc = m

/-- FG is running the instruction `i`. -/
def State.runsInstr (s : State) (r : Running) (i : Instr) : Prop :=
  s.phase = .running r ∧ decodeCommand (runningCommand r s) = .instr i

/-- The positions of each command's pseudocode (R47 and each command's rule). -/
def positions : Instr → List Mpc
  | .tbInit => [.entry, .conclude]
  | .tbNow => [.entry, .useTime]
  | .tbDelay _ => [.entry, .enterLoop, .useTime]
  | .tbTick => []
  | .initDefault _ => [.entry, .conclude]
  | .initConfig _ _ _ => [.entry, .conclude]
  | .transmit _ _ _ =>
    [.entry, .testDirection, .enterLoop, .testFlag .txe, .testTimeout .txe, .useByte, .endFrame, .testFlag .tc, .testTimeout .tc]
  | .sendByte _ => [.entry, .testDirection, .enterLoop, .testFlag .txe, .testTimeout .txe, .endFrame]
  | .sendString _ => [.entry, .useByte, .testFlag .txe, .endFrame, .testFlag .tc]
  | .receive _ _ _ =>
    [.entry, .testDirection, .enterLoop, .testFlag .rxne, .testTimeout .rxne, .useStatus, .useData, .endStore]
  | .receiveByte => [.entry, .enterLoop, .testFlag .rxne, .testTimeout .rxne, .useData]
  | .isDataAvailable => [.entry, .useStatus]
  | .clearErrors => [.entry, .useStatus, .useData]
  | .enableInterrupts _ => [.entry, .conclude]
  | .disableInterrupts _ => [.entry, .conclude]
  | .updateBaudRate _ => [.entry, .conclude]

/-- The commands that write R0 (the table of R25). -/
def writesR0 : Instr → Bool
  | .initConfig _ _ _ => true
  | .transmit _ _ _ => true
  | .sendByte _ => true
  | .receive _ _ _ => true
  | .clearErrors => true
  | .updateBaudRate _ => true
  | _ => false

/-- The commands that write R1 (the table of R25). -/
def writesR1 : Instr → Bool
  | .tbNow => true
  | .receiveByte => true
  | .isDataAvailable => true
  | _ => false

/-- The commands that write a control register or BRR (the tables of R32 to R35). -/
def configures : Instr → Bool
  | .initDefault _ => true
  | .initConfig _ _ _ => true
  | .enableInterrupts _ => true
  | .disableInterrupts _ => true
  | .updateBaudRate _ => true
  | _ => false

/-! ### Invariants -/

/-- Caller memory is in its canonical form. -/
def MemoryCanonical (s : State) : Prop := s.mem.wf = true

/-- Every bit no command writes, and every reserved bit, is 0 (R30 to R37); in the device model IDLE, LBD and CTS are 0
as well (R205). -/
def UnwrittenBitsZero (s : State) : Prop :=
  s.chan.sr &&& ~~~(implementedMask .sr) = 0 ∧
  s.chan.brr &&& ~~~(writtenMask .brr) = 0 ∧
  s.chan.cr1 &&& ~~~(writtenMask .cr1) = 0 ∧
  s.chan.cr2 &&& ~~~(writtenMask .cr2) = 0 ∧
  s.chan.cr3 &&& ~~~(writtenMask .cr3) = 0 ∧
  (s.params.envModel = .device →
    bit s.chan.sr Sr.idle = false ∧ bit s.chan.sr Sr.lbd = false ∧ bit s.chan.sr Sr.cts = false)

/-- A running command is the one the host issued, with its arguments, and stands at one of its own positions; a command
that does not decode stands at its entry (R24, R47, R86). -/
def ControllerConsistent (s : State) : Prop :=
  ∀ r, s.phase = .running r →
    r.op = opcodeField s.ci.cmd ∧ r.a0 = s.ci.a0 ∧ r.a1 = s.ci.a1 ∧ r.a2 = s.ci.a2 ∧
    (∀ i, decodeCommand (runningCommand r s) = .instr i → r.mpc ∈ positions i) ∧
    (∀ why, decodeCommand (runningCommand r s) = .rejected why → r.mpc = .entry)

/-- Where FG's next step may be a DR write, TXE is 1 (R269). -/
def TxeSetBeforeDataWrite (s : State) : Prop :=
  ∀ r i, s.runsInstr r i →
    (r.mpc = .testFlag .txe → bit r.locals.status Sr.txe = true → bit s.chan.sr Sr.txe = true) ∧
    (r.mpc = .useByte → (∃ a n w, i = .transmit a n w) → bit s.chan.sr Sr.txe = true)

/-- R0 never holds the code of Overflow, nor is RECEIVE about to report it (R84, R161). -/
def NoOverflow (s : State) : Prop :=
  (s.ci.r0Set = true → s.ci.r0 ≠ ErrorOutcome.overflow.code) ∧
  ∀ r, s.phase = .running r → r.locals.e &&& 7 ≠ ErrorOutcome.overflow.code

/-- Positions of TRANSMIT and RECEIVE inside the loop over the buffer's bytes. -/
def inByteLoop : Mpc → Bool
  | .testFlag .txe => true
  | .testTimeout .txe => true
  | .useByte => true
  | .endFrame => true
  | .testFlag .rxne => true
  | .testTimeout .rxne => true
  | .useStatus => true
  | .useData => true
  | .endStore => true
  | _ => false

/-- TRANSMIT and RECEIVE work on a buffer that is present, is not empty and does not wrap, and inside their loop on one
of its bytes (R62, R63, R141, R160). -/
def BufferLoopInBounds (s : State) : Prop :=
  ∀ r i a n w, s.runsInstr r i → (i = .transmit a n w ∨ i = .receive a n w) →
    (r.mpc ≠ .entry → bufferAbsent a n = false) ∧
    (r.mpc ≠ .entry → r.mpc ≠ .testDirection → bufferWraps a n = false) ∧
    (inByteLoop r.mpc = true → r.locals.i.toNat < n.toNat)

end Sys2Proof.Machine
end

