-- ==== Sys2Proof/Certificates/Slice0/Obligations.lean ====
section
/-! DEFINITION. The statements for the provers. Each docstring names the rules of spec/ it rests on. A next state written
as an equation says what every field holds, so it is the instruction's result, its completion and its frame at once. -/

open Sys2Proof Sys2Proof.Machine

/-! ### Encoding -/

/-- R80, R81, R82, R86, R88, R89: a host command decodes to an instruction exactly when the instruction is one of the
fifteen and the command is its assembled form, whatever the argument registers it does not read hold. -/
def Obligations.AssembledFormsAreExactlyWhatDecodes : Prop :=
  (∀ i : Instr, i.wf = true → decodeCommand (encode i) = .instr i) ∧
  (∀ (c : HostCommand) (i : Instr),
    decodeCommand c = .instr i ↔ i.wf = true ∧ encode i = c.keepArgs (argsRead i))

/-- R81, R86, R88: the decoder is total, and the words it takes are those with CMD[31:8] = 0 and one of the fifteen opcodes;
0x04, the tick event, is not among them. -/
def Obligations.DecodableWordsAreTheFifteenCommands : Prop :=
  ∀ c : HostCommand,
    (∃ i, decodeCommand c = .instr i) ↔ (reservedField c.cmd = 0 ∧ opcodeField c.cmd ∈ issuableOpcodes)

/-- R80, R81, R82, R86: words of each family written out from the opcode map. That the decoder over the whole table reads
0x04 as the tick is the model's reading of R102 (DEDUCED, log entry 3). -/
def Obligations.SampleWordsDecode : Prop :=
  decodeCommand ⟨0x00000003, 10, 7, 7⟩ = .instr (.tbDelay 10) ∧
  decodeCommand ⟨0x00000011, 1, 9600, 0x68⟩ = .instr (.initConfig 1 9600 0x68) ∧
  decodeCommand ⟨0x00000020, 0x20000000, 5, 1000⟩ = .instr (.transmit 0x20000000 5 1000) ∧
  decodeCommand ⟨0x00000030, 0x20000200, 3, 50⟩ = .instr (.receive 0x20000200 3 50) ∧
  decodeCommand ⟨0x00000042, 1, 0, 0⟩ = .instr (.disableInterrupts 1) ∧
  decodeCommand ⟨0x00000004, 0, 0, 0⟩ = .rejected .notHostIssuable ∧
  decodeCommand ⟨0x00000120, 0x20000000, 5, 1000⟩ = .rejected .reservedBits ∧
  decodeTableWord 32 0x00000004 = some .tbTick

/-- R86: a word that is none of the host's commands raises BadCommand in the command's FG step, with no other effect:
no access is recorded, and no register, counter or byte changes. That the step takes its move off a schedule is the
model's choice (log entry 2), and that the decoding is done at every position, where R47 does it in the command's first
FG step, is the model's reading (log entry 15). -/
def Obligations.BadCommandWordOnlyMarksTheFault : Prop :=
  ∀ (s : State) (r : Running),
    s.fault = none → nextMove s = .core → s.phase = .running r →
    (reservedField s.ci.cmd ≠ 0 ∨ opcodeField s.ci.cmd ∉ issuableOpcodes) →
    step s = .next { takeMove s with fault := some .badCommand, hist := s.hist ++ [.fault .badCommand] }

/-- R83, R90: the legal CFG words are exactly those the operand form `cfg(...)` stands for, and every field of the form
stands in its bits. -/
def Obligations.LegalCfgWordsAreThePackedForms : Prop :=
  (∀ w : Word, cfgLegal w = true ↔ ∃ c : SerialConfig, c.pack = w) ∧
  (∀ c : SerialConfig,
    bit c.pack 0 = c.nineBits ∧ c.pack.extractLsb' 1 2 = c.stop.code ∧ c.pack.extractLsb' 3 2 = c.parity.code ∧
    bit c.pack 5 = c.tx ∧ bit c.pack 6 = c.rx ∧ bit c.pack 7 = c.over8 ∧ bit c.pack 8 = c.rts ∧ bit c.pack 9 = c.cts)

/-! ### The step -/

/-- R47, R50: while no fault is marked and FG has the move, the step of a Running command that decodes to `i` is the
instruction's own step, once the move is taken off the schedule (log entry 2). -/
def Obligations.StepRunsTheDecodedCommand : Prop :=
  ∀ (s : State) (r : Running) (i : Instr),
    s.fault = none → nextMove s = .core → s.phase = .running r → decodeCommand (runningCommand r s) = .instr i →
    step s = exec i (takeMove s)

/-- R24, R47, R48, R256: while FG is Idle the host issues the command its index names, which writes CMD and A0 to A2,
starts the command at its first position and appends Issue; past the last command it issues nothing. That the command
list and the schedule stand in the state is the model's choice (log entries 1 and 2), and so is where the locals start
(log entry 6). -/
def Obligations.HostIssuesItsNextCommand : Prop :=
  ∀ s : State,
    s.fault = none → nextMove s = .core → s.phase = .idle →
    (∀ c, s.program[s.hpc]? = some c →
      step s = .next
        { takeMove s with
          ci := { s.ci with cmd := c.cmd, a0 := c.a0, a1 := c.a1, a2 := c.a2 }
          phase :=
            .running
              { op := opcodeField c.cmd, a0 := c.a0, a1 := c.a1, a2 := c.a2, mpc := .entry, locals := Locals.empty }
          hist := s.hist ++ [.issue (opcodeField c.cmd) c.a0 c.a1 c.a2] }) ∧
    (s.program.length ≤ s.hpc → step s = .next (takeMove s))

/-- R52, R222: raising a fault sets the mark and appends Fault; once a fault is marked no agent takes a step, and the mark is never cleared; reset has none. That the step
then answers the stop `marked` is the model's rendering of "no step" (DEDUCED, log entry 12). -/
def Obligations.MarkedFaultStopsEveryAgent : Prop :=
  (∀ (s : State) (f : FaultMark), raiseFault f s = { s with fault := some f, hist := s.hist ++ [.fault f] }) ∧
  (∀ (s : State) (f : FaultMark), s.fault = some f → step s = .fault (.marked f)) ∧
  (∀ (s t : State), step s = .next t → s.fault = none) ∧
  State.reset.fault = none

/-- R53, R250: what reset leaves in every component whose value the spec gives, for every choice of the parameters, the
command list, the memory and the schedule. R0 and R1 hold no value. -/
def Obligations.ResetLeavesTheSpecifiedValues : Prop :=
  (∀ (p : Params) (prog : List HostCommand) (mem : Memory) (sched : List Move),
    let s := State.boot p prog mem sched
    s.tb = { tickCnt := p.tickInit, tickEn := false, tickPeriod := 0 } ∧
    s.ci.r0Set = false ∧ s.ci.r1Set = false ∧
    s.chan.sr = 0x000000C0 ∧ s.chan.brr = 0 ∧ s.chan.cr1 = 0 ∧ s.chan.cr2 = 0 ∧ s.chan.cr3 = 0 ∧
    s.chan.shiftBusy = false ∧ s.chan.errArmed = 0 ∧ s.chan.tcArmed = false ∧ s.chan.txLine = [] ∧
    s.plat = { clkEn := false, pinRoute := false, irqArmed := false } ∧
    s.phase = .idle ∧ s.hpc = 0 ∧ s.hist = [] ∧ s.fault = none) ∧
  State.reset = State.boot Params.default [] [] [] ∧ Params.default.tickInit = 0

/-! ### Timebase -/

/-- R100: TB_INIT's atomic block programs the tick source and leaves the counter; its next step finishes. With a legal
CLOCK_HZ the period is CLOCK_HZ / 1000, at least 1. -/
def Obligations.TbInitProgramsTheTickSource : Prop :=
  ∀ (s : State) (r : Running), s.phase = .running r →
    (r.mpc = .entry →
      exec .tbInit s = .next
        { s with
          tb := { tickCnt := s.tb.tickCnt, tickEn := true, tickPeriod := BitVec.ofNat 32 (s.params.clockHz / 1000) }
          phase := .running { r with mpc := .conclude } }) ∧
    (r.mpc = .conclude → exec .tbInit s = .next (finish r s)) ∧
    (s.params.wf = true →
      (BitVec.ofNat 32 (s.params.clockHz / 1000)).toNat = s.params.clockHz / 1000 ∧ 1 ≤ s.params.clockHz / 1000)

/-- R104: TB_NOW reads the counter, and its next step puts that value in R1 and finishes. -/
def Obligations.TbNowReturnsTheCounter : Prop :=
  ∀ (s : State) (r : Running), s.phase = .running r →
    (r.mpc = .entry →
      exec .tbNow s = .next
        { s with
          phase := .running { r with mpc := .useTime, locals := { r.locals with t := s.tb.tickCnt } }
          hist := s.hist ++ [.tickRd s.tb.tickCnt] }) ∧
    (r.mpc = .useTime → exec .tbNow s = .next (finish r (writeR1 r.locals.t s)))

/-- R106: TB_DELAY reads the counter once for its start and then in a loop, and finishes after the first loop read whose
elapsed value is at least `ms`. -/
def Obligations.TbDelayFollowsItsPseudocode : Prop :=
  ∀ (ms : Word) (s : State) (r : Running), s.phase = .running r →
    (r.mpc = .entry →
      exec (.tbDelay ms) s = .next
        { s with
          phase := .running { r with mpc := .enterLoop, locals := { r.locals with start := s.tb.tickCnt } }
          hist := s.hist ++ [.tickRd s.tb.tickCnt] }) ∧
    (r.mpc = .enterLoop ∨ r.mpc = .useTime ∧ (r.locals.t - r.locals.start).toNat < ms.toNat →
      exec (.tbDelay ms) s = .next
        { s with
          phase := .running { r with mpc := .useTime, locals := { r.locals with t := s.tb.tickCnt } }
          hist := s.hist ++ [.tickRd s.tb.tickCnt] }) ∧
    (r.mpc = .useTime → ms.toNat ≤ (r.locals.t - r.locals.start).toNat → exec (.tbDelay ms) s = .next (finish r s))

/-- R102: while the tick source is on, the tick adds 1 to the counter modulo 2^32, records its new value, and changes
nothing else; while it is off, no tick occurs. -/
def Obligations.TickAddsOne : Prop :=
  ∀ s : State,
    (s.tb.tickEn = true →
      exec .tbTick s = .next
        { s with
          tb := { s.tb with tickCnt := BitVec.ofNat 32 ((s.tb.tickCnt.toNat + 1) % 2 ^ 32) }
          hist := s.hist ++ [.tick (BitVec.ofNat 32 ((s.tb.tickCnt.toNat + 1) % 2 ^ 32))] }) ∧
    (s.tb.tickEn = false → ∀ t, exec .tbTick s = .next t → t.tb = s.tb ∧ t.hist = s.hist)

/-- R22: TICK_CNT is written by the tick event alone, which adds 1 modulo 2^32 while TICK_EN = 1; its value at reset is
TICK_INIT. -/
def Obligations.OnlyTheTickWritesTheCounter : Prop :=
  (∀ s t : State, step s = .next t →
    t.tb.tickCnt = s.tb.tickCnt ∨
    (nextMove s = .tick ∧ s.tb.tickEn = true ∧ t.tb.tickCnt = s.tb.tickCnt + 1)) ∧
  (∀ (p : Params) (prog : List HostCommand) (mem : Memory) (sched : List Move),
    (State.boot p prog mem sched).tb.tickCnt = p.tickInit)

/-- R105, R140, R147: a wait has expired exactly when more ticks than its timeout have passed since its start, as long
as fewer than 2^32 have; with timeout 0xFFFFFFFF it never has. -/
def Obligations.TimeoutIsStrictlyExceeded : Prop :=
  (∀ (start tmo : Word) (k : Nat), k < 2 ^ 32 →
    (expired start (start + BitVec.ofNat 32 k) tmo = true ↔ tmo.toNat < k)) ∧
  (∀ start t : Word, expired start t 0xFFFFFFFF = false)

/-! ### Divisor calculator -/

/-- R120: the general divisor splits the truncated quotient exactly. -/
def Obligations.DivisorSplitsTheQuotient : Prop :=
  ∀ clk b o : Nat, b ≠ 0 → o = 16 ∨ o = 8 →
    divisor clk b o = ((clk / b) / o, (clk / b) % o) ∧
    (divisor clk b o).1 * o + (divisor clk b o).2 = clk / b ∧ (divisor clk b o).2 < o

/-- R121, R122: the rounded divisor is the quotient rounded to the nearest integer, halves up, before it is split; it
differs from the truncated one exactly when the remainder is at least half the divisor, and then by one fraction
step. -/
def Obligations.RoundedDivisorIsTheNearest : Prop :=
  ∀ clk b : Nat, b ≠ 0 →
    (let d := clk / b + (if b ≤ 2 * (clk % b) then 1 else 0)
     divisorRounded clk b = (d / 16, d % 16)) ∧
    (divisorRounded clk b ≠ divisor clk b 16 ↔ b ≤ 2 * (clk % b)) ∧
    (b ≤ 2 * (clk % b) →
      (divisorRounded clk b).1 * 16 + (divisorRounded clk b).2
        = (divisor clk b 16).1 * 16 + (divisor clk b 16).2 + 1)

/-- R9, R32, R123: the packed divisor holds the mantissa's low 12 bits above the fraction's 4, with bit 3 clear for an 8x
fraction; and with a legal CLOCK_HZ no intermediate value of the calculator needs more than 32 bits. -/
def Obligations.PackedDivisorHoldsMantissaAndFraction : Prop :=
  (∀ m f : Nat, f < 16 →
    (packDivisor (m, f)).toNat = (m % 4096) * 16 + f ∧ (f < 8 → bit (packDivisor (m, f)) 3 = false)) ∧
  (∀ (p : Params) (b o : Nat), p.wf = true → b ≠ 0 → o = 16 ∨ o = 8 →
    (p.clockHz % b) * 16 < 2 ^ 32 ∧
    ((divisor p.clockHz b o).1 <<< 4) ||| (divisor p.clockHz b o).2 < 2 ^ 32 ∧
    ((divisorRounded p.clockHz b).1 <<< 4) ||| (divisorRounded p.clockHz b).2 < 2 ^ 32)

/-! ### Initialization -/

/-- A register with the bits of the mask `m` set or cleared. -/
def withBits (w m : Word) (v : Bool) : Word := if v then w ||| m else w &&& ~~~m

/-- R124: INIT_DEFAULT on a baud rate other than 0 clocks and routes the channel and writes exactly its own fields, with
one RegWr for each statement, in program order, of the register's whole value after it (R6 and the opening of
41_init.md); on 0 it only marks DivideByZero; its last step finishes and writes no result. -/
def Obligations.InitDefaultProgramsTheChannel : Prop :=
  ∀ (baud : Word) (s : State) (r : Running), s.phase = .running r →
    (r.mpc = .entry → baud = 0 → exec (.initDefault baud) s = .next (raiseFault .divideByZero s)) ∧
    (r.mpc = .entry → baud ≠ 0 →
      ∃ t l, exec (.initDefault baud) s = .next t ∧
        t = { s with
              plat := { s.plat with clkEn := true, pinRoute := true }
              chan := { s.chan with brr := t.chan.brr, cr1 := t.chan.cr1, cr2 := t.chan.cr2 }
              phase := .running { r with mpc := .conclude }
              hist := s.hist ++ l } ∧
        (let v1 := withBits s.chan.cr1 0x8000 false
         let v2 := withBits v1 0x1000 false
         let v3 := withBits v2 0x0400 false
         let v4 := withBits v3 0x0200 false
         let v5 := withBits v4 0x0008 true
         let v6 := withBits v5 0x0004 true
         let v7 := withBits v6 0x2000 true
         t.chan.cr1 = v7 ∧ t.chan.cr2 = withBits s.chan.cr2 0x3000 false ∧
         l =
          [.regWr .brr (packDivisor (divisorRounded s.params.clockHz baud.toNat)), .regWr .cr1 v1, .regWr .cr1 v2,
           .regWr .cr1 v3, .regWr .cr1 v4, .regWr .cr2 (withBits s.chan.cr2 0x3000 false), .regWr .cr1 v5,
           .regWr .cr1 v6, .regWr .cr1 v7]) ∧
        t.chan.brr = packDivisor (divisorRounded s.params.clockHz baud.toNat) ∧
        (∀ n, bit t.chan.cr1 n =
          if n = Cr1.ue ∨ n = Cr1.te ∨ n = Cr1.re then true
          else if n = Cr1.over8 ∨ n = Cr1.m ∨ n = Cr1.pce ∨ n = Cr1.ps then false
          else bit s.chan.cr1 n) ∧
        stopField t.chan.cr2 = 0 ∧ (∀ n, n ≠ 12 → n ≠ 13 → bit t.chan.cr2 n = bit s.chan.cr2 n)) ∧
    (r.mpc = .conclude → exec (.initDefault baud) s = .next (finish r s))

/-- R125: a second INIT_DEFAULT with the same baud rate, on a state that holds what the first left, leaves the channel's
registers and the platform bits as the first left them. -/
def Obligations.InitDefaultTwiceIsOnce : Prop :=
  ∀ (baud : Word) (s t u : State) (r q : Running),
    baud ≠ 0 → s.standsAt .entry r → t.standsAt .entry q →
    exec (.initDefault baud) s = .next u →
    t.chan = u.chan → t.plat = u.plat → t.params = u.params →
    ∃ v, exec (.initDefault baud) t = .next v ∧ v.chan = u.chan ∧ v.plat = u.plat

/-- R126: INIT_CONFIG tests for an absent configuration, then for an illegal CFG word, then for baud 0, and otherwise
writes exactly its own fields, with one RegWr for each statement, in program order, of the register's whole value after it (R6
and the opening of 41_init.md), and leaving the CFG word and the oversampling factor in the locals c and o; its last
step answers Ok. The two raises come after `c <- x[2]`, which their step does too (R47), and leave the position as it is
(DEDUCED, log entry 14). -/
def Obligations.InitConfigProgramsTheChannel : Prop :=
  ∀ (present baud cfg : Word) (s : State) (r : Running), s.phase = .running r →
    (r.mpc = .entry → present = 0 →
      exec (.initConfig present baud cfg) s = .next (finish r (writeR0 .busy s))) ∧
    (r.mpc = .entry → present ≠ 0 → (cfg.extractLsb' 10 22 ≠ 0 ∨ cfg.extractLsb' 3 2 = 3#2) →
      exec (.initConfig present baud cfg) s = .next
        (setRunning { r with locals := { r.locals with c := cfg } } (raiseFault .badArg s))) ∧
    (r.mpc = .entry → present ≠ 0 → cfg.extractLsb' 10 22 = 0 → cfg.extractLsb' 3 2 ≠ 3#2 → baud = 0 →
      exec (.initConfig present baud cfg) s = .next
        (setRunning { r with locals := { r.locals with c := cfg } } (raiseFault .divideByZero s))) ∧
    (r.mpc = .entry → present ≠ 0 → cfg.extractLsb' 10 22 = 0 → cfg.extractLsb' 3 2 ≠ 3#2 → baud ≠ 0 →
      ∃ t l, exec (.initConfig present baud cfg) s = .next t ∧
        t = { s with
              plat := { s.plat with clkEn := true, pinRoute := true }
              chan := { s.chan with brr := t.chan.brr, cr1 := t.chan.cr1, cr2 := t.chan.cr2, cr3 := t.chan.cr3 }
              phase :=
                .running
                  { r with mpc := .conclude,
                           locals := { r.locals with c := cfg, o := if bit cfg 7 then 8 else 16 } }
              hist := s.hist ++ l } ∧
        (let v1 := withBits s.chan.cr1 0x2000 false
         let v2 := withBits v1 0x8000 (bit cfg 7)
         let v3 := withBits v2 0x1000 (bit cfg 0)
         let v4 := withBits v3 0x0400 (decide (cfg.extractLsb' 3 2 ≠ 0#2))
         let v5 := withBits v4 0x0200 (decide (cfg.extractLsb' 3 2 = 2#2))
         let v6 := withBits v5 0x0008 (bit cfg 5)
         let v7 := withBits v6 0x0004 (bit cfg 6)
         let v8 := withBits v7 0x2000 true
         let w := withBits (withBits s.chan.cr2 0x1000 (bit cfg 1)) 0x2000 (bit cfg 2)
         let x1 := withBits s.chan.cr3 0x0100 (bit cfg 8)
         let x2 := withBits x1 0x0200 (bit cfg 9)
         t.chan.cr1 = v8 ∧ t.chan.cr2 = w ∧ t.chan.cr3 = x2 ∧
         l =
          [.regWr .cr1 v1, .regWr .cr1 v2,
           .regWr .brr (packDivisor (divisor s.params.clockHz baud.toNat (if bit cfg 7 then 8 else 16))),
           .regWr .cr1 v3, .regWr .cr1 v4, .regWr .cr1 v5, .regWr .cr2 w, .regWr .cr3 x1, .regWr .cr3 x2,
           .regWr .cr1 v6, .regWr .cr1 v7, .regWr .cr1 v8]) ∧
        t.chan.brr = packDivisor (divisor s.params.clockHz baud.toNat (if bit cfg 7 then 8 else 16)) ∧
        (∀ n, bit t.chan.cr1 n =
          if n = Cr1.ue then true
          else if n = Cr1.over8 then bit cfg 7
          else if n = Cr1.m then bit cfg 0
          else if n = Cr1.pce then decide (cfg.extractLsb' 3 2 ≠ 0#2)
          else if n = Cr1.ps then decide (cfg.extractLsb' 3 2 = 2#2)
          else if n = Cr1.te then bit cfg 5
          else if n = Cr1.re then bit cfg 6
          else bit s.chan.cr1 n) ∧
        stopField t.chan.cr2 = cfg.extractLsb' 1 2 ∧
        (∀ n, n ≠ 12 → n ≠ 13 → bit t.chan.cr2 n = bit s.chan.cr2 n) ∧
        (∀ n, bit t.chan.cr3 n =
          if n = Cr3.rtse then bit cfg 8 else if n = Cr3.ctse then bit cfg 9 else bit s.chan.cr3 n)) ∧
    (r.mpc = .conclude → exec (.initConfig present baud cfg) s = .next (finish r (writeR0 .ok s)))

/-- R127: how each field of a SerialConfiguration reaches the registers. -/
def Obligations.ConfigurationFieldsReachTheRegisters : Prop :=
  ∀ (c : SerialConfig) (present baud : Word) (s : State) (r : Running),
    s.standsAt .entry r → present ≠ 0 → baud ≠ 0 →
    ∃ t, exec (.initConfig present baud c.pack) s = .next t ∧
      bit t.chan.cr1 Cr1.m = c.nineBits ∧
      stopField t.chan.cr2 = (match c.stop with | .one => 0#2 | .half => 1#2 | .two => 2#2 | .oneAndHalf => 3#2) ∧
      (bit t.chan.cr1 Cr1.pce, bit t.chan.cr1 Cr1.ps)
        = (match c.parity with | .none => (false, false) | .even => (true, false) | .odd => (true, true)) ∧
      (bit t.chan.cr1 Cr1.te, bit t.chan.cr1 Cr1.re) = (c.tx, c.rx) ∧
      bit t.chan.cr1 Cr1.over8 = c.over8 ∧
      (bit t.chan.cr3 Cr3.rtse, bit t.chan.cr3 Cr3.ctse) = (c.rts, c.cts) ∧
      t.chan.brr = packDivisor (divisor s.params.clockHz baud.toNat (if c.over8 then 8 else 16))

/-! ### Transmit -/

/-- R140, R141: the steps of TRANSMIT, position by position, with the shared pieces of a step's next state written out. Where the caller memory refuses the read FG has no step,
which this model shows as a state left as it is (log entry 9). -/
def Obligations.TransmitFollowsItsPseudocode : Prop :=
  (∀ (r : Running) (e : Event) (s : State),
    setRunning r s = { s with phase := .running r } ∧ record e s = { s with hist := s.hist ++ [e] } ∧
    tickRead s = { s with hist := s.hist ++ [.tickRd s.tb.tickCnt] }) ∧
  ∀ (a n w : Word) (s : State) (r : Running), s.phase = .running r →
    (r.mpc = .entry → (a = 0 ∨ n = 0) → exec (.transmit a n w) s = .next (finish r (writeR0 .busy s))) ∧
    (r.mpc = .entry → a ≠ 0 → n ≠ 0 →
      exec (.transmit a n w) s = .next
        (setRunning { r with mpc := .testDirection, locals := { r.locals with c1 := readValue .cr1 s } } (regRead .cr1 s))) ∧
    (r.mpc = .testDirection → bit r.locals.c1 Cr1.te = false →
      exec (.transmit a n w) s = .next (finish r (writeR0 .busy s))) ∧
    (r.mpc = .testDirection → bit r.locals.c1 Cr1.te = true → 2 ^ 32 < a.toNat + n.toNat →
      exec (.transmit a n w) s = .next (raiseFault .bufferWrap s)) ∧
    (r.mpc = .testDirection → bit r.locals.c1 Cr1.te = true → a.toNat + n.toNat ≤ 2 ^ 32 →
      exec (.transmit a n w) s = .next
        (setRunning { r with mpc := .enterLoop, locals := { r.locals with start := s.tb.tickCnt } } (tickRead s))) ∧
    (r.mpc = .enterLoop →
      exec (.transmit a n w) s = .next
        (setRunning { r with mpc := .testFlag .txe, locals := { r.locals with i := 0, status := readValue .sr s } }
          (regRead .sr s))) ∧
    (r.mpc = .testFlag .txe → bit r.locals.status Sr.txe = true → s.grants (a + r.locals.i) .read = true →
      exec (.transmit a n w) s = .next
        (setRunning { r with mpc := .useByte, locals := { r.locals with b := (s.byteAt (a + r.locals.i)).setWidth 32 } }
          (record (.memRd (a + r.locals.i) (s.byteAt (a + r.locals.i))) s))) ∧
    (r.mpc = .testFlag .txe → bit r.locals.status Sr.txe = true → s.grants (a + r.locals.i) .read = false →
      exec (.transmit a n w) s = .next s) ∧
    (r.mpc = .testFlag .txe → bit r.locals.status Sr.txe = false →
      exec (.transmit a n w) s = .next
        (setRunning { r with mpc := .testTimeout .txe, locals := { r.locals with t := s.tb.tickCnt } } (tickRead s))) ∧
    (r.mpc = .useByte →
      exec (.transmit a n w) s = .next
        (setRunning { r with mpc := .endFrame } (regWrite .dr r.locals.b s))) ∧
    (r.mpc = .endFrame → r.locals.i.toNat + 1 < n.toNat →
      exec (.transmit a n w) s = .next
        (setRunning
          { r with mpc := .testFlag .txe, locals := { r.locals with i := r.locals.i + 1, status := readValue .sr s } }
          (regRead .sr s))) ∧
    (r.mpc = .endFrame → n.toNat ≤ r.locals.i.toNat + 1 →
      exec (.transmit a n w) s = .next
        (setRunning { r with mpc := .testFlag .tc, locals := { r.locals with status := readValue .sr s } }
          (regRead .sr s))) ∧
    (r.mpc = .testFlag .tc → bit r.locals.status Sr.tc = true →
      exec (.transmit a n w) s = .next (finish r (writeR0 .ok s))) ∧
    (r.mpc = .testFlag .tc → bit r.locals.status Sr.tc = false →
      exec (.transmit a n w) s = .next
        (setRunning { r with mpc := .testTimeout .tc, locals := { r.locals with t := s.tb.tickCnt } } (tickRead s))) ∧
    (∀ k, k = .txe ∨ k = .tc → r.mpc = .testTimeout k →
      (w.toNat < (r.locals.t - r.locals.start).toNat →
        exec (.transmit a n w) s = .next (finish r (writeR0 .timeout s))) ∧
      ((r.locals.t - r.locals.start).toNat ≤ w.toNat →
        exec (.transmit a n w) s = .next
          (setRunning { r with mpc := .testFlag k, locals := { r.locals with status := readValue .sr s } }
            (regRead .sr s))))

/-- R143: the steps of SEND_BYTE, position by position. -/
def Obligations.SendByteFollowsItsPseudocode : Prop :=
  ∀ (x : Word) (s : State) (r : Running), s.phase = .running r →
    (r.mpc = .entry → 255 < x.toNat → exec (.sendByte x) s = .next (raiseFault .badArg s)) ∧
    (r.mpc = .entry → x.toNat ≤ 255 →
      exec (.sendByte x) s = .next
        (setRunning { r with mpc := .testDirection, locals := { r.locals with c1 := readValue .cr1 s } } (regRead .cr1 s))) ∧
    (r.mpc = .testDirection → bit r.locals.c1 Cr1.te = false →
      exec (.sendByte x) s = .next (finish r (writeR0 .busy s))) ∧
    (r.mpc = .testDirection → bit r.locals.c1 Cr1.te = true →
      exec (.sendByte x) s = .next
        (setRunning { r with mpc := .enterLoop, locals := { r.locals with start := s.tb.tickCnt } } (tickRead s))) ∧
    (r.mpc = .enterLoop →
      exec (.sendByte x) s = .next
        (setRunning { r with mpc := .testFlag .txe, locals := { r.locals with status := readValue .sr s } }
          (regRead .sr s))) ∧
    (r.mpc = .testFlag .txe → bit r.locals.status Sr.txe = true → x.toNat ≤ 255 →
      exec (.sendByte x) s = .next (setRunning { r with mpc := .endFrame } (regWrite .dr x s))) ∧
    (r.mpc = .testFlag .txe → bit r.locals.status Sr.txe = false →
      exec (.sendByte x) s = .next
        (setRunning { r with mpc := .testTimeout .txe, locals := { r.locals with t := s.tb.tickCnt } } (tickRead s))) ∧
    (r.mpc = .testTimeout .txe → 1000 < (r.locals.t - r.locals.start).toNat →
      exec (.sendByte x) s = .next (finish r (writeR0 .timeout s))) ∧
    (r.mpc = .testTimeout .txe → (r.locals.t - r.locals.start).toNat ≤ 1000 →
      exec (.sendByte x) s = .next
        (setRunning { r with mpc := .testFlag .txe, locals := { r.locals with status := readValue .sr s } }
          (regRead .sr s))) ∧
    (r.mpc = .endFrame → exec (.sendByte x) s = .next (finish r (writeR0 .ok s)))

/-- R145: the steps of SEND_STRING, position by position: each byte is read before its wait, a zero byte ends the loop,
address 2^32 marks BufferWrap, and no wait has a timeout. A refused read leaves the state as it is (log entry 9). The
step which marks BufferWrap does `i <- i + 1` before it (R47, V71) and leaves the position as it is (DEDUCED, log entry
14). -/
def Obligations.SendStringFollowsItsPseudocode : Prop :=
  ∀ (a : Word) (s : State) (r : Running), s.phase = .running r →
    (r.mpc = .entry → a = 0 → exec (.sendString a) s = .next (raiseFault .badArg s)) ∧
    (r.mpc = .entry → a ≠ 0 → s.grants a .read = true →
      exec (.sendString a) s = .next
        (setRunning { r with mpc := .useByte, locals := { r.locals with i := 0, b := (s.byteAt a).setWidth 32 } }
          (record (.memRd a (s.byteAt a)) s))) ∧
    (r.mpc = .entry → a ≠ 0 → s.grants a .read = false → exec (.sendString a) s = .next s) ∧
    (r.mpc = .useByte → r.locals.b ≠ 0 →
      exec (.sendString a) s = .next
        (setRunning { r with mpc := .testFlag .txe, locals := { r.locals with status := readValue .sr s } }
          (regRead .sr s))) ∧
    (r.mpc = .useByte → r.locals.b = 0 →
      exec (.sendString a) s = .next
        (setRunning { r with mpc := .testFlag .tc, locals := { r.locals with status := readValue .sr s } }
          (regRead .sr s))) ∧
    (r.mpc = .testFlag .txe → bit r.locals.status Sr.txe = true →
      exec (.sendString a) s = .next
        (setRunning { r with mpc := .endFrame } (regWrite .dr r.locals.b s))) ∧
    (r.mpc = .endFrame → a ≠ 0 → a.toNat + r.locals.i.toNat + 1 = 2 ^ 32 →
      exec (.sendString a) s = .next
        (setRunning { r with locals := { r.locals with i := r.locals.i + 1 } } (raiseFault .bufferWrap s))) ∧
    (r.mpc = .endFrame → a.toNat + r.locals.i.toNat + 1 < 2 ^ 32 → s.grants (a + (r.locals.i + 1)) .read = true →
      exec (.sendString a) s = .next
        (setRunning
          { r with mpc := .useByte,
                   locals := { r.locals with i := r.locals.i + 1, b := (s.byteAt (a + (r.locals.i + 1))).setWidth 32 } }
          (record (.memRd (a + (r.locals.i + 1)) (s.byteAt (a + (r.locals.i + 1)))) s))) ∧
    (r.mpc = .endFrame → a.toNat + r.locals.i.toNat + 1 < 2 ^ 32 → s.grants (a + (r.locals.i + 1)) .read = false →
      exec (.sendString a) s = .next s) ∧
    (r.mpc = .testFlag .tc → bit r.locals.status Sr.tc = true → exec (.sendString a) s = .next (finish r s)) ∧
    (∀ k, k = .txe ∨ k = .tc → r.mpc = .testFlag k → bit r.locals.status (pollBit k) = false →
      exec (.sendString a) s = .next
        (setRunning { r with mpc := .testFlag k, locals := { r.locals with status := readValue .sr s } }
          (regRead .sr s)))

/-! ### Receive -/

/-- R25, R84, R140, R160, R161: the steps of RECEIVE, position by position, with the codes of the outcomes Parity, Framing,
Noise and Overrun written out. That the local e holds 0 for NONE is the model's choice (log entry 16). A refused store
leaves the state as it is (log entry 9). -/
def Obligations.ReceiveFollowsItsPseudocode : Prop :=
  ∀ (a n w : Word) (s : State) (r : Running), s.phase = .running r →
    (r.mpc = .entry → (a = 0 ∨ n = 0) → exec (.receive a n w) s = .next (finish r (writeR0 .busy s))) ∧
    (r.mpc = .entry → a ≠ 0 → n ≠ 0 →
      exec (.receive a n w) s = .next
        (setRunning { r with mpc := .testDirection, locals := { r.locals with c1 := readValue .cr1 s } } (regRead .cr1 s))) ∧
    (r.mpc = .testDirection → bit r.locals.c1 Cr1.re = false →
      exec (.receive a n w) s = .next (finish r (writeR0 .busy s))) ∧
    (r.mpc = .testDirection → bit r.locals.c1 Cr1.re = true → 2 ^ 32 < a.toNat + n.toNat →
      exec (.receive a n w) s = .next (raiseFault .bufferWrap s)) ∧
    (r.mpc = .testDirection → bit r.locals.c1 Cr1.re = true → a.toNat + n.toNat ≤ 2 ^ 32 →
      exec (.receive a n w) s = .next
        (setRunning { r with mpc := .enterLoop, locals := { r.locals with start := s.tb.tickCnt } } (tickRead s))) ∧
    (r.mpc = .enterLoop →
      exec (.receive a n w) s = .next
        (setRunning { r with mpc := .testFlag .rxne, locals := { r.locals with i := 0, status := readValue .sr s } }
          (regRead .sr s))) ∧
    (r.mpc = .testFlag .rxne → bit r.locals.status Sr.rxne = true →
      exec (.receive a n w) s = .next
        (setRunning { r with mpc := .useStatus, locals := { r.locals with status := readValue .sr s } }
          (regRead .sr s))) ∧
    (r.mpc = .testFlag .rxne → bit r.locals.status Sr.rxne = false →
      exec (.receive a n w) s = .next
        (setRunning { r with mpc := .testTimeout .rxne, locals := { r.locals with t := s.tb.tickCnt } } (tickRead s))) ∧
    (r.mpc = .testTimeout .rxne → w.toNat < (r.locals.t - r.locals.start).toNat →
      exec (.receive a n w) s = .next (finish r (writeR0 .timeout s))) ∧
    (r.mpc = .testTimeout .rxne → (r.locals.t - r.locals.start).toNat ≤ w.toNat →
      exec (.receive a n w) s = .next
        (setRunning { r with mpc := .testFlag .rxne, locals := { r.locals with status := readValue .sr s } }
          (regRead .sr s))) ∧
    (r.mpc = .useStatus →
      exec (.receive a n w) s = .next
        (setRunning
          { r with mpc := .useData,
                   locals :=
                     { r.locals with
                       d := readValue .dr s
                       e :=
                         if bit r.locals.status 0 then 4
                         else if bit r.locals.status 1 then 5
                         else if bit r.locals.status 2 then 6
                         else if bit r.locals.status 3 then 7
                         else 0 } }
          (regRead .dr s))) ∧
    (r.mpc = .useData → r.locals.e ≠ 0 →
      exec (.receive a n w) s = .next
        (finish r { s with ci := { s.ci with r0 := r.locals.e &&& 7, r0Set := true } })) ∧
    (r.mpc = .useData → r.locals.e = 0 → s.grants (a + r.locals.i) .write = true →
      exec (.receive a n w) s = .next
        (setRunning { r with mpc := .endStore }
          (record (.memWr (a + r.locals.i) (r.locals.d.setWidth 8))
            { s with mem := Memory.set s.mem (a + r.locals.i).toNat (r.locals.d.setWidth 8) }))) ∧
    (r.mpc = .useData → r.locals.e = 0 → s.grants (a + r.locals.i) .write = false →
      exec (.receive a n w) s = .next s) ∧
    (r.mpc = .endStore → r.locals.i.toNat + 1 < n.toNat →
      exec (.receive a n w) s = .next
        (setRunning
          { r with mpc := .testFlag .rxne, locals := { r.locals with i := r.locals.i + 1, status := readValue .sr s } }
          (regRead .sr s))) ∧
    (r.mpc = .endStore → n.toNat ≤ r.locals.i.toNat + 1 →
      exec (.receive a n w) s = .next (finish r (writeR0 .ok s)))

/-- R164: the steps of RECEIVE_BYTE, position by position. -/
def Obligations.ReceiveByteFollowsItsPseudocode : Prop :=
  ∀ (s : State) (r : Running), s.phase = .running r →
    (r.mpc = .entry →
      exec .receiveByte s = .next
        (setRunning { r with mpc := .enterLoop, locals := { r.locals with start := s.tb.tickCnt } } (tickRead s))) ∧
    (r.mpc = .enterLoop ∨ r.mpc = .testTimeout .rxne ∧ (r.locals.t - r.locals.start).toNat ≤ 1000 →
      exec .receiveByte s = .next
        (setRunning { r with mpc := .testFlag .rxne, locals := { r.locals with status := readValue .sr s } }
          (regRead .sr s))) ∧
    (r.mpc = .testFlag .rxne → bit r.locals.status Sr.rxne = true →
      exec .receiveByte s = .next
        (setRunning { r with mpc := .useData, locals := { r.locals with d := readValue .dr s } } (regRead .dr s))) ∧
    (r.mpc = .testFlag .rxne → bit r.locals.status Sr.rxne = false →
      exec .receiveByte s = .next
        (setRunning { r with mpc := .testTimeout .rxne, locals := { r.locals with t := s.tb.tickCnt } } (tickRead s))) ∧
    (r.mpc = .testTimeout .rxne → 1000 < (r.locals.t - r.locals.start).toNat →
      exec .receiveByte s = .next (finish r (writeR1 0 s))) ∧
    (r.mpc = .useData →
      exec .receiveByte s = .next (finish r (writeR1 (BitVec.ofNat 32 (r.locals.d.toNat % 256)) s)))

/-- R166: IS_DATA_AVAILABLE makes one SR read, and its next step puts RXNE, 0 or 1, in R1 and finishes. -/
def Obligations.IsDataAvailableReturnsRxne : Prop :=
  ∀ (s : State) (r : Running), s.phase = .running r →
    (r.mpc = .entry →
      exec .isDataAvailable s = .next
        (setRunning { r with mpc := .useStatus, locals := { r.locals with status := readValue .sr s } }
          (regRead .sr s))) ∧
    (r.mpc = .useStatus →
      exec .isDataAvailable s = .next
        (finish r (writeR1 (BitVec.ofNat 32 (bit r.locals.status Sr.rxne).toNat) s)))

/-- R161: the error-flag decoder reports the first set flag in the order Parity, Framing, Noise, Overrun, and never
Overflow. -/
def Obligations.ErrorFlagsDecodeInFixedPrecedence : Prop :=
  ∀ s : Word,
    (bit s Sr.pe = true → decodeErrors s = some .parity) ∧
    (bit s Sr.pe = false → bit s Sr.fe = true → decodeErrors s = some .framing) ∧
    (bit s Sr.pe = false → bit s Sr.fe = false → bit s Sr.nf = true → decodeErrors s = some .noise) ∧
    (bit s Sr.pe = false → bit s Sr.fe = false → bit s Sr.nf = false → bit s Sr.ore = true →
      decodeErrors s = some .overrun) ∧
    (bit s Sr.pe = false → bit s Sr.fe = false → bit s Sr.nf = false → bit s Sr.ore = false → decodeErrors s = none) ∧
    decodeErrors s ≠ some .overflow

/-! ### Error clearing, interrupt enables, baud update -/

/-- R180: CLEAR_ERRORS makes one SR read, one DR read only where it saw an error flag, and always answers Ok. -/
def Obligations.ClearErrorsFollowsItsPseudocode : Prop :=
  ∀ (s : State) (r : Running), s.phase = .running r →
    (r.mpc = .entry →
      exec .clearErrors s = .next
        (setRunning { r with mpc := .useStatus, locals := { r.locals with status := readValue .sr s } }
          (regRead .sr s))) ∧
    (r.mpc = .useStatus → (∃ k, k < 4 ∧ bit r.locals.status k = true) →
      exec .clearErrors s = .next
        (setRunning { r with mpc := .useData, locals := { r.locals with d := readValue .dr s } } (regRead .dr s))) ∧
    (r.mpc = .useStatus → (∀ k, k < 4 → bit r.locals.status k = false) →
      exec .clearErrors s = .next (finish r (writeR0 .ok s))) ∧
    (r.mpc = .useData → exec .clearErrors s = .next (finish r (writeR0 .ok s)))

/-- R182: ENABLE_INTERRUPTS sets the selected enable bits of a clocked channel, one RegWr for each in the order RXNEIE,
TXEIE, TCIE, EIE, of the register's whole value after the statement (DEDUCED for these commands, log entry 8; on an
unclocked channel the value is not stated here), and arms the line, whatever the mask; with a mask bit above bit 3 it only marks
BadArg. -/
def Obligations.EnableInterruptsSetsItsBits : Prop :=
  ∀ (mask : Word) (s : State) (r : Running), s.phase = .running r →
    (r.mpc = .entry → 15 < mask.toNat → exec (.enableInterrupts mask) s = .next (raiseFault .badArg s)) ∧
    (r.mpc = .entry → mask.toNat ≤ 15 →
      ∃ t l, exec (.enableInterrupts mask) s = .next t ∧
        t = { s with
              plat := { s.plat with irqArmed := true }
              chan := { s.chan with cr1 := t.chan.cr1, cr3 := t.chan.cr3 }
              phase := .running { r with mpc := .conclude }
              hist := s.hist ++ l } ∧
        (∃ v1 v2 v3 v4 : Word,
          l =
            (if bit mask 0 then [Event.regWr .cr1 v1] else []) ++ (if bit mask 1 then [Event.regWr .cr1 v2] else [])
              ++ (if bit mask 2 then [Event.regWr .cr1 v3] else [])
              ++ (if bit mask 3 then [Event.regWr .cr3 v4] else []) ∧
          (s.plat.clkEn = true →
            v1 = (if bit mask 0 then withBits s.chan.cr1 0x20 true else s.chan.cr1) ∧
            v2 = (if bit mask 1 then withBits v1 0x80 true else v1) ∧
            v3 = (if bit mask 2 then withBits v2 0x40 true else v2) ∧
            v4 = (if bit mask 3 then withBits s.chan.cr3 0x01 true else s.chan.cr3) ∧
            t.chan.cr1 = v3 ∧ t.chan.cr3 = v4)) ∧
        (∀ n, bit t.chan.cr1 n =
          if s.plat.clkEn = true ∧
              (n = Cr1.rxneie ∧ bit mask 0 = true ∨ n = Cr1.txeie ∧ bit mask 1 = true ∨
                n = Cr1.tcie ∧ bit mask 2 = true) then true
          else bit s.chan.cr1 n) ∧
        (∀ n, bit t.chan.cr3 n =
          if s.plat.clkEn = true ∧ n = Cr3.eie ∧ bit mask 3 = true then true else bit s.chan.cr3 n)) ∧
    (r.mpc = .conclude → exec (.enableInterrupts mask) s = .next (finish r s))

/-- R184: DISABLE_INTERRUPTS clears the selected enable bits of a clocked channel, one RegWr for each in the order RXNEIE,
TXEIE, TCIE, EIE, of the register's whole value after the statement (DEDUCED for these commands, log entry 8; on an
unclocked channel the value is not stated here), and does not disarm the line; with a mask bit above bit 3 it only marks
BadArg. -/
def Obligations.DisableInterruptsClearsItsBits : Prop :=
  ∀ (mask : Word) (s : State) (r : Running), s.phase = .running r →
    (r.mpc = .entry → 15 < mask.toNat → exec (.disableInterrupts mask) s = .next (raiseFault .badArg s)) ∧
    (r.mpc = .entry → mask.toNat ≤ 15 →
      ∃ t l, exec (.disableInterrupts mask) s = .next t ∧
        t = { s with
              chan := { s.chan with cr1 := t.chan.cr1, cr3 := t.chan.cr3 }
              phase := .running { r with mpc := .conclude }
              hist := s.hist ++ l } ∧
        (∃ v1 v2 v3 v4 : Word,
          l =
            (if bit mask 0 then [Event.regWr .cr1 v1] else []) ++ (if bit mask 1 then [Event.regWr .cr1 v2] else [])
              ++ (if bit mask 2 then [Event.regWr .cr1 v3] else [])
              ++ (if bit mask 3 then [Event.regWr .cr3 v4] else []) ∧
          (s.plat.clkEn = true →
            v1 = (if bit mask 0 then withBits s.chan.cr1 0x20 false else s.chan.cr1) ∧
            v2 = (if bit mask 1 then withBits v1 0x80 false else v1) ∧
            v3 = (if bit mask 2 then withBits v2 0x40 false else v2) ∧
            v4 = (if bit mask 3 then withBits s.chan.cr3 0x01 false else s.chan.cr3) ∧
            t.chan.cr1 = v3 ∧ t.chan.cr3 = v4)) ∧
        (∀ n, bit t.chan.cr1 n =
          if s.plat.clkEn = true ∧
              (n = Cr1.rxneie ∧ bit mask 0 = true ∨ n = Cr1.txeie ∧ bit mask 1 = true ∨
                n = Cr1.tcie ∧ bit mask 2 = true) then false
          else bit s.chan.cr1 n) ∧
        (∀ n, bit t.chan.cr3 n =
          if s.plat.clkEn = true ∧ n = Cr3.eie ∧ bit mask 3 = true then false else bit s.chan.cr3 n)) ∧
    (r.mpc = .conclude → exec (.disableInterrupts mask) s = .next (finish r s))

/-- R186: UPDATE_BAUD_RATE answers Busy for 0 with no access; on a clocked channel it writes the truncated divisor for
the oversampling CR1 shows and ends with UE as it was, recording RegRd(CR1), RegWr(CR1) with UE = 0, RegWr(BRR) and
RegWr(CR1); on an unclocked one it changes no register and records its accesses all the same; the locals c1, en and o
hold what it read (R47; log entry 16); its last step answers Ok. -/
def Obligations.UpdateBaudRateWritesOnlyTheDivisor : Prop :=
  ∀ (baud : Word) (s : State) (r : Running), s.phase = .running r →
    (r.mpc = .entry → baud = 0 → exec (.updateBaudRate baud) s = .next (finish r (writeR0 .busy s))) ∧
    (r.mpc = .entry → baud ≠ 0 → s.plat.clkEn = true →
      (let brr := packDivisor (divisor s.params.clockHz baud.toNat (if bit s.chan.cr1 Cr1.over8 then 8 else 16))
       exec (.updateBaudRate baud) s = .next
        { s with
          chan := { s.chan with brr := brr }
          phase :=
            .running
              { r with mpc := .conclude,
                       locals :=
                         { r.locals with
                           c1 := s.chan.cr1
                           en := if bit s.chan.cr1 Cr1.ue then 1 else 0
                           o := if bit s.chan.cr1 Cr1.over8 then 8 else 16 } }
          hist :=
            s.hist ++
              [.regRd .cr1 s.chan.cr1, .regWr .cr1 (setBit s.chan.cr1 Cr1.ue false), .regWr .brr brr,
               .regWr .cr1 s.chan.cr1] })) ∧
    (r.mpc = .entry → baud ≠ 0 → s.plat.clkEn = false →
      ∃ v0 v1 v2, exec (.updateBaudRate baud) s = .next
        { s with
          phase := .running { r with mpc := .conclude, locals := { r.locals with c1 := 0, en := 0, o := 16 } }
          hist := s.hist ++ [.regRd .cr1 0, .regWr .cr1 v0, .regWr .brr v1, .regWr .cr1 v2] }) ∧
    (r.mpc = .conclude → exec (.updateBaudRate baud) s = .next (finish r (writeR0 .ok s)))

/-! ### Register access -/

/-- R66: the value and the side effects of reading each register of a clocked channel. -/
def Obligations.RegisterReadsHaveTheirSideEffects : Prop :=
  ∀ s : State, s.plat.clkEn = true →
    (readValue .sr s = s.chan.sr ∧
      regRead .sr s =
        { s with
          chan := { s.chan with errArmed := s.chan.sr.extractLsb' 0 4, tcArmed := bit s.chan.sr Sr.tc }
          hist := s.hist ++ [.regRd .sr s.chan.sr] }) ∧
    (readValue .dr s = s.chan.rdr.setWidth 32 ∧
      ∃ sr, regRead .dr s =
          { s with
            chan := { s.chan with sr := sr, errArmed := 0 }
            hist := s.hist ++ [.regRd .dr (s.chan.rdr.setWidth 32)] } ∧
        ∀ n, bit sr n =
          if n = Sr.rxne then false
          else if n < 4 then bit s.chan.sr n && !s.chan.errArmed.getLsbD n
          else bit s.chan.sr n) ∧
    (∀ g v, (g, v) ∈ [(ChanReg.brr, s.chan.brr), (.cr1, s.chan.cr1), (.cr2, s.chan.cr2), (.cr3, s.chan.cr3)] →
      readValue g s = v ∧ regRead g s = { s with hist := s.hist ++ [.regRd g v] })

/-- R67: the effects of writing each register of a clocked channel. -/
def Obligations.RegisterWritesHaveTheirEffects : Prop :=
  ∀ (s : State) (v : Word), s.plat.clkEn = true →
    (∃ sr, regWrite .dr v s =
        { s with
          chan := { s.chan with tdr := v.setWidth 9, sr := sr, tcArmed := false }
          hist := s.hist ++ [.regWr .dr v] } ∧
      ∀ n, bit sr n =
        if n = Sr.txe then false
        else if n = Sr.tc then bit s.chan.sr n && !s.chan.tcArmed
        else bit s.chan.sr n) ∧
    (∃ w, regWrite .brr v s = { s with chan := { s.chan with brr := w }, hist := s.hist ++ [.regWr .brr v] } ∧
      ∀ n, bit w n = (decide (n < 16) && bit v n)) ∧
    (∃ w, regWrite .cr1 v s = { s with chan := { s.chan with cr1 := w }, hist := s.hist ++ [.regWr .cr1 v] } ∧
      ∀ n, bit w n = (decide (n < 16 ∧ n ≠ 14) && bit v n)) ∧
    (∃ w, regWrite .cr2 v s = { s with chan := { s.chan with cr2 := w }, hist := s.hist ++ [.regWr .cr2 v] } ∧
      ∀ n, bit w n = (decide (n < 15 ∧ n ≠ 4 ∧ n ≠ 7) && bit v n)) ∧
    (∃ w, regWrite .cr3 v s = { s with chan := { s.chan with cr3 := w }, hist := s.hist ++ [.regWr .cr3 v] } ∧
      ∀ n, bit w n = (decide (n < 12) && bit v n))

/-- R44: while the channel is unclocked a read returns 0 with no side effect, a write has no effect, both are recorded,
and no LINE event occurs. -/
def Obligations.UnclockedChannelReadsZeroAndKeepsItsState : Prop :=
  ∀ s : State, s.plat.clkEn = false →
    (∀ g, readValue g s = 0 ∧ regRead g s = { s with hist := s.hist ++ [.regRd g 0] }) ∧
    (∀ g v, regWrite g v s = { s with hist := s.hist ++ [.regWr g v] }) ∧
    (∀ ws, (writeFields ws s).chan = s.chan) ∧
    (∀ e, lineEnabled e s = false)

/-- R206, R228: in a state whose never-written bits are 0, the channel's request is TXE, TC or RXNE-or-ORE with its own
enable, and it reaches the interrupt controller only while the line is armed. -/
def Obligations.InterruptRequestIsALevelOfEnabledFlags : Prop :=
  ∀ s : State, UnwrittenBitsZero s →
    (chLine s.chan = true ↔
      (bit s.chan.sr Sr.txe = true ∧ bit s.chan.cr1 Cr1.txeie = true) ∨
      (bit s.chan.sr Sr.tc = true ∧ bit s.chan.cr1 Cr1.tcie = true) ∨
      ((bit s.chan.sr Sr.rxne = true ∨ bit s.chan.sr Sr.ore = true) ∧ bit s.chan.cr1 Cr1.rxneie = true)) ∧
    (chReq s = true ↔ s.plat.irqArmed = true ∧ chLine s.chan = true)

/-! ### Line side -/

/-- R200, R201, R202, R207: the transmitter's two events, each under its guard; where the guard fails the event does not
occur, and the scheduled move does nothing (log entry 2). -/
def Obligations.TransmitterMovesFramesOnlyWhenEnabled : Prop :=
  ∀ s : State, s.fault = none →
    (nextMove s = .line .txLoad →
      (s.params.envModel = .device ∧ s.plat.clkEn = true ∧ bit s.chan.cr1 Cr1.ue = true ∧
        bit s.chan.cr1 Cr1.te = true ∧ bit s.chan.sr Sr.txe = false ∧ s.chan.shiftBusy = false →
        ∃ f, step s = .next
            { takeMove s with
              chan :=
                { s.chan with
                  shiftData := s.chan.tdr
                  txLine := s.chan.txLine ++ [f]
                  sr := setBit s.chan.sr Sr.txe true
                  shiftBusy := true }
              hist := s.hist ++ [.lineTx f] } ∧
          f.toNat = if bit s.chan.cr1 Cr1.m then s.chan.tdr.toNat else s.chan.tdr.toNat % 256) ∧
      (¬(s.params.envModel = .device ∧ s.plat.clkEn = true ∧ bit s.chan.cr1 Cr1.ue = true ∧
        bit s.chan.cr1 Cr1.te = true ∧ bit s.chan.sr Sr.txe = false ∧ s.chan.shiftBusy = false) →
        step s = .next (takeMove s))) ∧
    (nextMove s = .line .txDone →
      (s.params.envModel = .device ∧ s.plat.clkEn = true ∧ bit s.chan.cr1 Cr1.ue = true ∧ s.chan.shiftBusy = true →
        step s = .next
          { takeMove s with
            chan :=
              { s.chan with
                shiftBusy := false
                sr := if bit s.chan.sr Sr.txe then setBit s.chan.sr Sr.tc true else s.chan.sr } }) ∧
      (¬(s.params.envModel = .device ∧ s.plat.clkEn = true ∧ bit s.chan.cr1 Cr1.ue = true ∧
        s.chan.shiftBusy = true) → step s = .next (takeMove s)))

/-- R200, R203, R204, R207: an arriving frame is delivered while RXNE = 0, with RXNE and its own error flags, and sets
only ORE while RXNE = 1; where the guard fails nothing arrives, and the scheduled move does nothing (log entries 2
and 10). -/
def Obligations.ReceiverDeliversOrOverruns : Prop :=
  ∀ (s : State) (b : Frame) (pe fe nf : Bool), s.fault = none → nextMove s = .line (.rx b pe fe nf) →
    (s.params.envModel = .device ∧ s.plat.clkEn = true ∧ bit s.chan.cr1 Cr1.ue = true ∧
        bit s.chan.cr1 Cr1.re = true ∧ (b.toNat < 256 ∨ bit s.chan.cr1 Cr1.m = true) ∧
        (pe = false ∨ bit s.chan.cr1 Cr1.pce = true) →
      (bit s.chan.sr Sr.rxne = false →
        ∃ sr, step s = .next
            { takeMove s with
              chan := { s.chan with rdr := b, sr := sr }
              hist := s.hist ++ [.lineRx b pe fe nf false] } ∧
          ∀ n, bit sr n =
            if n = Sr.rxne then true
            else if n = Sr.pe then bit s.chan.sr n || pe
            else if n = Sr.fe then bit s.chan.sr n || fe
            else if n = Sr.nf then bit s.chan.sr n || nf
            else bit s.chan.sr n) ∧
      (bit s.chan.sr Sr.rxne = true →
        step s = .next
          { takeMove s with
            chan := { s.chan with sr := setBit s.chan.sr Sr.ore true }
            hist := s.hist ++ [.lineRx b pe fe nf true] })) ∧
    (¬(s.params.envModel = .device ∧ s.plat.clkEn = true ∧ bit s.chan.cr1 Cr1.ue = true ∧
        bit s.chan.cr1 Cr1.re = true ∧ (b.toNat < 256 ∨ bit s.chan.cr1 Cr1.m = true) ∧
        (pe = false ∨ bit s.chan.cr1 Cr1.pce = true)) →
      step s = .next (takeMove s))

/-- R208: the free change sets SR[9:0] and RDR to any values while CLK_EN = 1 and touches nothing else; while it is not
enabled the scheduled move does nothing (log entry 2). -/
def Obligations.FreeChangeSetsFlagsAndReceiveData : Prop :=
  ∀ (s : State) (v : BitVec 10) (d : Frame), s.fault = none → nextMove s = .line (.free v d) →
    (s.params.envModel = .free ∧ s.plat.clkEn = true →
      ∃ sr, step s = .next
          { takeMove s with
            chan := { s.chan with sr := sr, rdr := d }
            hist := s.hist ++ [.lineFree sr d] } ∧
        ∀ n, bit sr n = if n < 10 then v.getLsbD n else bit s.chan.sr n) ∧
    (¬(s.params.envModel = .free ∧ s.plat.clkEn = true) → step s = .next (takeMove s))

/-! ### What instructions leave alone -/

/-- R160, and the commands that store nothing: no instruction but RECEIVE changes a byte of caller memory, and RECEIVE
changes none but the one at the address of its current byte, where canonical memory then reads the byte stored; where a
decoded error discards the byte (R162), or the caller memory refuses the store (R61; log entry 9), all of memory is as
before. -/
def Obligations.OnlyReceiveStoresAndOnlyItsByte : Prop :=
  (∀ (i : Instr) (s t : State), exec i s = .next t → (∀ a n w, i ≠ .receive a n w) →
    ∀ x, t.byteAt x = s.byteAt x) ∧
  (∀ (a n w : Word) (s t : State) (r : Running), s.phase = .running r → exec (.receive a n w) s = .next t →
    (∀ x, x ≠ byteAddress a r.locals.i → t.byteAt x = s.byteAt x) ∧
    (r.mpc ≠ .useData → ∀ x, t.byteAt x = s.byteAt x) ∧
    (r.mpc = .useData → r.locals.e ≠ 0 ∨ s.grants (byteAddress a r.locals.i) .write = false → t.mem = s.mem) ∧
    (MemoryCanonical s → r.mpc = .useData → r.locals.e = 0 → s.grants (byteAddress a r.locals.i) .write = true →
      t.byteAt (byteAddress a r.locals.i) = r.locals.d.setWidth 8))

/-- R21, R22, R23, R32 to R35, R43: only the configuring commands change BRR, a control register or a platform bit, and
only TB_INIT and the tick change the timebase. -/
def Obligations.OnlyTheirCommandsChangeConfigurationAndTimebase : Prop :=
  ∀ (i : Instr) (s t : State), exec i s = .next t →
    (configures i = false →
      t.chan.brr = s.chan.brr ∧ t.chan.cr1 = s.chan.cr1 ∧ t.chan.cr2 = s.chan.cr2 ∧ t.chan.cr3 = s.chan.cr3 ∧
      t.plat = s.plat) ∧
    (i ≠ .tbInit → i ≠ .tbTick → t.tb = s.tb)

/-- R24, R25, R84: R0 and R1 are written only by the commands of the table, each in the step that finishes it, and CMD and
A0 to A2 by no instruction. A value written to R1 stands there whole. The outcomes stand in R0 under the codes 0 to 7 in the source's order; a command of the table
that finishes leaves a value in its register, and in R0 one of the codes R84 lists for it. -/
def Obligations.ResultRegistersAreWrittenOnlyByTheirCommands : Prop :=
  (∀ (i : Instr) (s t : State), exec i s = .next t →
    (i ∉ [Instr.clearErrors] → (∀ a b c, i ≠ .initConfig a b c) → (∀ a b c, i ≠ .transmit a b c) →
      (∀ a, i ≠ .sendByte a) → (∀ a b c, i ≠ .receive a b c) → (∀ a, i ≠ .updateBaudRate a) →
      t.ci.r0 = s.ci.r0 ∧ t.ci.r0Set = s.ci.r0Set) ∧
    (i ∉ [Instr.tbNow, .receiveByte, .isDataAvailable] → t.ci.r1 = s.ci.r1 ∧ t.ci.r1Set = s.ci.r1Set) ∧
    (t.phase ≠ .idle → t.ci = s.ci) ∧
    t.ci.cmd = s.ci.cmd ∧ t.ci.a0 = s.ci.a0 ∧ t.ci.a1 = s.ci.a1 ∧ t.ci.a2 = s.ci.a2) ∧
  (∀ (o : ErrorOutcome) (s : State),
    writeR0 o s =
      { s with
        ci :=
          { s.ci with
            r0 :=
              (match o with
              | .ok => 0
              | .timeout => 1
              | .busy => 2
              | .overflow => 3
              | .parity => 4
              | .framing => 5
              | .noise => 6
              | .overrun => 7)
            r0Set := true } }) ∧
  (∀ (v : Word) (s : State), writeR1 v s = { s with ci := { s.ci with r1 := v, r1Set := true } }) ∧
  (∀ (i : Instr) (s t : State), NoOverflow s → exec i s = .next t → t.phase = .idle →
    (∀ a b c, i = .initConfig a b c → t.ci.r0Set = true ∧ t.ci.r0 ∈ [(0 : Word), 2]) ∧
    (∀ a b c, i = .transmit a b c → t.ci.r0Set = true ∧ t.ci.r0 ∈ [(0 : Word), 1, 2]) ∧
    (∀ a, i = .sendByte a → t.ci.r0Set = true ∧ t.ci.r0 ∈ [(0 : Word), 1, 2]) ∧
    (∀ a b c, i = .receive a b c → t.ci.r0Set = true ∧ t.ci.r0 ∈ [(0 : Word), 1, 2, 4, 5, 6, 7]) ∧
    (i = .clearErrors → t.ci.r0Set = true ∧ t.ci.r0 = 0) ∧
    (∀ a, i = .updateBaudRate a → t.ci.r0Set = true ∧ t.ci.r0 ∈ [(0 : Word), 2]) ∧
    (i ∈ [Instr.tbNow, .receiveByte, .isDataAvailable] → t.ci.r1Set = true))

/-- R30, R40, R49: no instruction sets a status flag, and none touches RDR, the shift register or the line trace. -/
def Obligations.NoInstructionSetsAStatusFlag : Prop :=
  ∀ (i : Instr) (s t : State), exec i s = .next t →
    (∀ n, bit t.chan.sr n = true → bit s.chan.sr n = true) ∧
    t.chan.rdr = s.chan.rdr ∧ t.chan.shiftBusy = s.chan.shiftBusy ∧ t.chan.shiftData = s.chan.shiftData ∧
    t.chan.txLine = s.chan.txLine

/-! ### Invariants -/

/-- R60, R61 and log entry 7: every step keeps caller memory in its canonical form. -/
def Obligations.MemoryStaysCanonical : Prop :=
  ∀ s t : State, MemoryCanonical s → step s = .next t → MemoryCanonical t

/-- R30 to R37, R205: every step keeps at 0 each reserved bit and each bit no command writes, and, in the device model,
IDLE, LBD and CTS. -/
def Obligations.UnwrittenBitsStayZero : Prop :=
  ∀ s t : State, UnwrittenBitsZero s → step s = .next t → UnwrittenBitsZero t

/-- R24, R47, R86, R223: from a state whose running command is the one issued and stands at one of its positions, every
step taken without a fault mark has a next state, and that state is consistent in the same way: nothing is refused. The
rules give a stuck FG, an event that is not enabled and a run that has ended no step; that the model gives each a next
state is its own rendering (DEDUCED, log entry 9, for a stuck FG; DESIGN CHOICE, log entry 2, for the others), and so is
what a refusal would say (log entry 13). -/
def Obligations.ConsistentMachineAlwaysStepsAndStaysConsistent : Prop :=
  ∀ s : State, ControllerConsistent s → s.fault = none → ∃ t, step s = .next t ∧ ControllerConsistent t

/-- R269: in the device model every DR write finds TXE = 1, so the core overwrites no frame. -/
def Obligations.TxeIsSetAtEveryDataWrite : Prop :=
  ∀ s t : State, s.params.envModel = .device → TxeSetBeforeDataWrite s → step s = .next t →
    TxeSetBeforeDataWrite t ∧
    (∀ v, t.hist = s.hist ++ [.regWr .dr v] → bit s.chan.sr Sr.txe = true)

/-- R84, R161: no step makes R0 hold the code of Overflow. -/
def Obligations.OverflowIsNeverProduced : Prop :=
  ∀ s t : State, NoOverflow s → step s = .next t → NoOverflow t

/-- R62, R141, R160: the byte loops of TRANSMIT and RECEIVE stay inside their buffers, so a step changes only bytes of
the buffer of a running RECEIVE. -/
def Obligations.BufferLoopsStayInBounds : Prop :=
  ∀ s t : State, BufferLoopInBounds s → step s = .next t →
    BufferLoopInBounds t ∧
    (∀ x, t.byteAt x ≠ s.byteAt x →
      ∃ r a n w, s.runsInstr r (.receive a n w) ∧ a.toNat ≤ x.toNat ∧ x.toNat < a.toNat + n.toNat)

/-- R53 and the invariants above: reset meets every one of them, whatever the parameters, the command list and the
schedule, over canonical memory. -/
def Obligations.ResetMeetsTheInvariants : Prop :=
  ∀ (p : Params) (prog : List HostCommand) (mem : Memory) (sched : List Move), mem.wf = true →
    let s := State.boot p prog mem sched
    MemoryCanonical s ∧ UnwrittenBitsZero s ∧ ControllerConsistent s ∧ TxeSetBeforeDataWrite s ∧ NoOverflow s ∧
    BufferLoopInBounds s

/-- R23, R43, R188: no step clears TICK_EN, CLK_EN, PIN_ROUTE or IRQ_ARMED, and no step leads from Enabled (UE = 1) to
Disabled. -/
def Obligations.EnablesAreNeverCleared : Prop :=
  ∀ s t : State, step s = .next t →
    (s.tb.tickEn = true → t.tb.tickEn = true) ∧ (s.plat.clkEn = true → t.plat.clkEn = true) ∧
    (s.plat.pinRoute = true → t.plat.pinRoute = true) ∧ (s.plat.irqArmed = true → t.plat.irqArmed = true) ∧
    (bit s.chan.cr1 Cr1.ue = true → bit t.chan.cr1 Cr1.ue = true)

/-- R47, R48, R51: the host's index advances by exactly 1, in the step in which a running command finishes and FG becomes
Idle, and in no other; that step appends Finish with the command's op and R0 and R1 as they then stand, `none` where the
register holds no value; a step that marks a fault does not advance it. -/
def Obligations.HostIndexAdvancesOnlyAtFinish : Prop :=
  (∀ (r : Running) (s : State),
    finish r s =
      { s with
        phase := .idle
        hpc := s.hpc + 1
        hist :=
          s.hist ++
            [.finish r.op (if s.ci.r0Set then some s.ci.r0 else none) (if s.ci.r1Set then some s.ci.r1 else none)] }) ∧
  (∀ s t : State, step s = .next t →
    (t.hpc = s.hpc ∧ (s.phase ≠ .idle → t.phase ≠ .idle)) ∨
    (t.hpc = s.hpc + 1 ∧ s.phase ≠ .idle ∧ t.phase = .idle ∧ t.fault = none ∧
      ∃ r, s.phase = .running r ∧
        t.hist =
          s.hist ++
            [.finish r.op (if t.ci.r0Set then some t.ci.r0 else none) (if t.ci.r1Set then some t.ci.r1 else none)]))

/-- R20, R51: no step changes a parameter or the host's command list, and the history only grows, at its end. That the
parameters and the list stand in the state, and that each step takes its move off a schedule, is the model's own
rendering (DESIGN CHOICE, log entries 1, 2 and 5): R20 and R50 know no schedule. -/
def Obligations.StepsKeepParametersAndExtendTheHistory : Prop :=
  ∀ s t : State, step s = .next t →
    t.params = s.params ∧ t.program = s.program ∧ t.schedule = s.schedule.tail ∧ ∃ l, t.hist = s.hist ++ l

/-- A state with PIN_ROUTE and TICK_PERIOD replaced. -/
def withUnreadParts (s : State) (pin : Bool) (period : Word) : State :=
  { s with plat := { s.plat with pinRoute := pin }, tb := { s.tb with tickPeriod := period } }

/-- R23, R44: no rule reads PIN_ROUTE or TICK_PERIOD: replacing them changes nothing else in the step's result. -/
def Obligations.PinRouteAndTickPeriodAreNeverRead : Prop :=
  ∀ (s t : State) (pin : Bool) (period : Word), step s = .next t →
    ∃ pin' period', step (withUnreadParts s pin period) = .next (withUnreadParts t pin' period')

/-! ### Whole commands -/

/-- R105, R106, R107: with one tick before each loop read, TB_DELAY of `ms` ticks, ms at least 1, finishes after exactly
`ms` loop reads, across the counter's wrap too; with `ms` = 0 it finishes after one loop read and no tick. The steps counted
are moves of the model's schedule (DESIGN CHOICE, log entry 2). -/
def Obligations.DelayEndsAfterExactlyItsTicks : Prop :=
  ∀ (s : State) (r : Running) (rest : List Move),
    s.fault = none → s.phase = .running r → r.mpc = .entry → s.ci.cmd = 0x00000003 → s.tb.tickEn = true →
    (1 ≤ r.a0.toNat →
      s.schedule = .core :: (List.replicate r.a0.toNat [Move.tick, Move.core]).flatten ++ .core :: rest →
      ∃ t, core.run (2 * r.a0.toNat + 2) s = .next t ∧ t.phase = .idle ∧ t.hpc = s.hpc + 1 ∧
        t.tb.tickCnt = s.tb.tickCnt + r.a0 ∧ t.ci = s.ci ∧ t.chan = s.chan ∧ t.mem = s.mem) ∧
    (r.a0 = 0 → s.schedule = .core :: .core :: .core :: rest →
      ∃ t, core.run 3 s = .next t ∧ t.phase = .idle ∧ t.hpc = s.hpc + 1 ∧ t.tb = s.tb ∧ t.ci = s.ci ∧
        t.chan = s.chan ∧ t.mem = s.mem)

/-- R140, R164, R165 (the worked example W8): RECEIVE_BYTE against a receive flag that never sets, with one tick before
each SR read, returns 0 at the poll with elapsed 1001, after 1001 SR reads and without touching the data register. The
steps counted are moves of the model's schedule (DESIGN CHOICE, log entry 2). -/
def Obligations.ReceiveByteTimesOutAfter1001Polls : Prop :=
  ∀ (s : State) (r : Running) (rest : List Move),
    s.fault = none → s.phase = .running r → r.mpc = .entry → s.ci.cmd = 0x00000031 → s.tb.tickEn = true →
    bit (readValue .sr s) Sr.rxne = false →
    s.schedule = .core :: (List.replicate 1001 [Move.tick, Move.core, Move.core]).flatten ++ .core :: rest →
    ∃ t l, core.run 3005 s = .next t ∧ t.phase = .idle ∧ t.hpc = s.hpc + 1 ∧ t.ci.r1 = 0 ∧ t.ci.r1Set = true ∧
      t.ci.r0 = s.ci.r0 ∧ t.chan.rdr = s.chan.rdr ∧ t.chan.tdr = s.chan.tdr ∧ t.chan.sr = s.chan.sr ∧
      t.hist = s.hist ++ l ∧ (∀ v, .regRd .dr v ∉ l ∧ .regWr .dr v ∉ l) ∧
      l.count (.regRd .sr (readValue .sr s)) = 1001 ∧ (∀ v, .regRd .sr v ∈ l → v = readValue .sr s)

/-- The events of TRANSMIT's loop over `n` bytes from byte `i` on, against a line that is always ready: each byte's poll,
memory read, DR write and the line's change back to ready (W7). -/
def alwaysReadyEvents (s : State) (a : Word) (d : Frame) : Nat → Nat → List Event
  | _, 0 => []
  | i, n + 1 =>
    [.regRd .sr 0xC0, .memRd (a + BitVec.ofNat 32 i) (s.byteAt (a + BitVec.ofNat 32 i)),
     .regWr .dr ((s.byteAt (a + BitVec.ofNat 32 i)).setWidth 32), .lineFree 0xC0 d]
      ++ alwaysReadyEvents s a d (i + 1) n

/-- R140, R141, R148 (the worked example W7): TRANSMIT of any buffer of readable bytes against a transmit flag that is
always ready returns Ok, and its accesses are the bytes written to the data register in order, each after one poll,
followed by one read of the transmission-complete flag. The steps counted are moves of the model's schedule (DESIGN
CHOICE, log entry 2). -/
def Obligations.TransmitWritesItsBytesInOrder : Prop :=
  ∀ (s : State) (r : Running) (d : Frame) (rest : List Move),
    s.fault = none → s.phase = .running r → r.mpc = .entry → s.ci.cmd = 0x00000020 →
    s.params.envModel = .free → s.plat.clkEn = true → bit s.chan.cr1 Cr1.te = true → s.chan.sr = 0xC0 →
    r.a0 ≠ 0 → r.a1 ≠ 0 → r.a0.toNat + r.a1.toNat ≤ 2 ^ 32 →
    (∀ i, i < r.a1.toNat → s.grants (r.a0 + BitVec.ofNat 32 i) .read = true) →
    s.schedule =
      [.core, .core]
        ++ (List.replicate r.a1.toNat [Move.core, .core, .core, .line (.free 0xC0 d)]).flatten
        ++ [.core, .core] ++ rest →
    ∃ t, core.run (4 * r.a1.toNat + 4) s = .next t ∧ t.phase = .idle ∧ t.hpc = s.hpc + 1 ∧
      t.ci.r0 = 0 ∧ t.ci.r0Set = true ∧ t.mem = s.mem ∧
      t.hist =
        s.hist ++ [.regRd .cr1 s.chan.cr1, .tickRd s.tb.tickCnt] ++ alwaysReadyEvents s r.a0 d 0 r.a1.toNat
          ++ [.regRd .sr 0xC0, .finish r.op (some 0) (if s.ci.r1Set then some s.ci.r1 else none)]

/-- A state whose running command has the timeout `w` in A2. -/
def withTimeout (w : Word) (s : State) : State :=
  { s with
    ci := { s.ci with a2 := w }
    phase := match s.phase with | .idle => .idle | .running r => .running { r with a2 := w } }

/-- The command running in `s` returns Timeout in its `n`-th step: it is Running after each step before. -/
def TimesOutAfter (n : Nat) (s : State) : Prop :=
  (∀ k, k < n → ∃ u, core.run k s = .next u ∧ u.phase ≠ .idle) ∧
  ∃ u, core.run n s = .next u ∧ u.phase = .idle ∧ u.ci.r0 = 1

/-- R147: timeout monotonicity. Under one schedule of the TICK and LINE steps, a TRANSMIT or RECEIVE that returns Timeout
with timeout t1 also returns Timeout with any t2 < t1, at the same step or earlier. The steps counted are moves of the
model's schedule (DESIGN CHOICE, log entry 2); SEND_BYTE and RECEIVE_BYTE have a fixed timeout. -/
def Obligations.TimeoutIsMonotone : Prop :=
  ∀ (s : State) (r : Running) (t1 t2 : Word) (n : Nat),
    s.phase = .running r → r.mpc = .entry → s.ci.cmd = 0x00000020 ∨ s.ci.cmd = 0x00000030 → t2.toNat < t1.toNat →
    TimesOutAfter n (withTimeout t1 s) → ∃ m, m ≤ n ∧ TimesOutAfter m (withTimeout t2 s)

/-- Instructions that never wait: their pseudocode has no loop. -/
def neverWaits : Instr → Bool
  | .tbInit => true
  | .tbNow => true
  | .initDefault _ => true
  | .initConfig _ _ _ => true
  | .isDataAvailable => true
  | .clearErrors => true
  | .enableInterrupts _ => true
  | .disableInterrupts _ => true
  | .updateBaudRate _ => true
  | _ => false

/-- R50 (FG is weakly fair while Running) and R223: in every fair infinite run without a fault mark, a command that never
waits ends, whatever the other agents do: FG becomes Idle again. What a fair infinite run is, is the model's predicate
(DESIGN CHOICE, log entry 20). -/
def Obligations.CommandsWithoutWaitsEndInFairRuns : Prop :=
  ∀ (moves : Nat → Move) (states : Nat → State) (n : Nat) (r : Running) (i : Instr),
    IsRun moves states → FgFair moves states → ControllerConsistent (states n) →
    (states n).runsInstr r i → neverWaits i = true → ∃ k, n < k ∧ (states k).phase = .idle
end

