-- ==== Sys2Proof/Laws/Bits.lean ====
section
/-! SUPPORT. What the bit operations on a register do: each changes one named bit and no other. -/

namespace Sys2Proof.Machine

open Sys2Proof

/-- Writing bit `n` puts the value in bit `n` and leaves every other bit as it was. -/
theorem bit_setBit (w : Word) (n m : Nat) (v : Bool) (hn : n < 32) :
    bit (setBit w n v) m = if m = n then v else bit w m := by
  unfold bit setBit
  cases v
  · simp only [Bool.false_eq_true, if_false, BitVec.getLsbD_and, BitVec.getLsbD_not, BitVec.getLsbD_shiftLeft]
    by_cases h : m = n
    · subst h; simp [hn]
    · rw [if_neg h]
      by_cases hm : m < 32
      · by_cases hlt : m < n
        · simp [hm, hlt]
        · have : m - n ≠ 0 := by omega
          simp [hm, BitVec.getLsbD_one, this]
      · simp [BitVec.getLsbD_of_ge w m (by omega), hm]
  · simp only [if_true, BitVec.getLsbD_or, BitVec.getLsbD_shiftLeft]
    by_cases h : m = n
    · subst h; simp [hn]
    · rw [if_neg h]
      by_cases hlt : m < n
      · simp [hlt]
      · have : m - n ≠ 0 := by omega
        simp [BitVec.getLsbD_one, this]

/-- Two registers are equal when all their bits are. -/
theorem word_ext {a b : Word} (h : ∀ n, n < 32 → bit a n = bit b n) : a = b :=
  BitVec.eq_of_getLsbD_eq fun n hn => h n hn

/-- Writing the value a bit already has changes nothing. -/
theorem setBit_self (w : Word) (n : Nat) (v : Bool) (hn : n < 32) (h : bit w n = v) : setBit w n v = w :=
  word_ext fun m _ => by
    rw [bit_setBit w n m v hn]
    split
    · next e => rw [e, h]
    · rfl

/-- Setting a flag from a draw sets it where the draw says so, and changes no other bit. -/
theorem bit_orBit (w : Word) (n m : Nat) (v : Bool) (hn : n < 32) :
    bit (orBit w n v) m = if m = n then (v || bit w m) else bit w m := by
  unfold orBit
  cases v
  · simp
  · simp [bit_setBit w n m true hn]

/-- Writing CR2.STOP writes bits 12 and 13 and no other. -/
theorem bit_setStop (w : Word) (v : BitVec 2) (m : Nat) :
    bit (setStop w v) m = if m = 13 then v.getLsbD 1 else if m = 12 then v.getLsbD 0 else bit w m := by
  unfold setStop
  rw [bit_setBit _ 13 m _ (by decide), bit_setBit _ 12 m _ (by decide)]

/-- CR2.STOP reads back as written. -/
theorem stopField_setStop (w : Word) (v : BitVec 2) : stopField (setStop w v) = v := by
  have h12 : bit (setStop w v) 12 = v.getLsbD 0 := by rw [bit_setStop]; rfl
  have h13 : bit (setStop w v) 13 = v.getLsbD 1 := by rw [bit_setStop]; rfl
  apply BitVec.eq_of_getLsbD_eq
  intro i hi
  rw [stopField, BitVec.getLsbD_extractLsb']
  interval_cases i
  · exact h12
  · exact h13

/-- Bit `n` of a register under a mask. -/
theorem bit_and (a b : Word) (n : Nat) : bit (a &&& b) n = (bit a n && bit b n) := BitVec.getLsbD_and

/-- Bit `n` of a complement. -/
theorem bit_not (a : Word) (n : Nat) (hn : n < 32) : bit (~~~a) n = !bit a n := by
  simp [bit, hn]

/-- Every bit of the zero register is 0. -/
@[simp] theorem bit_zero (n : Nat) : bit 0 n = false := BitVec.getLsbD_zero

/-- A register has no bit outside a mask when every bit outside the mask is 0. -/
theorem masked_zero_iff (w m : Word) : w &&& ~~~m = 0 ↔ ∀ n, n < 32 → bit m n = false → bit w n = false := by
  constructor
  · intro h n hn hm
    have := congrArg (fun x => bit x n) h
    rwa [bit_and, bit_not _ _ hn, hm, bit_zero, Bool.not_false, Bool.and_true] at this
  · intro h
    refine word_ext fun n hn => ?_
    rw [bit_and, bit_not _ _ hn, bit_zero]
    cases hm : bit m n
    · simp [h n hn hm]
    · simp

end Sys2Proof.Machine
end

