-- ==== Sys2Proof/Laws/Operands.lean ====
section
/-! SUPPORT. What each test on an argument, a buffer, a time or a status word says, in arithmetic. -/

namespace Sys2Proof.Machine

open Sys2Proof

/-- A timeout has expired when the elapsed time is strictly more than it. -/
theorem expired_iff (start t tmo : Word) : expired start t tmo = true ↔ tmo.toNat < (t - start).toNat :=
  BitVec.ult_iff_lt

theorem bufferWraps_iff (a n : Word) : bufferWraps a n = true ↔ 2 ^ 32 < a.toNat + n.toNat := by
  simp only [bufferWraps, decide_eq_true_eq]

theorem bufferAbsent_iff (a n : Word) : bufferAbsent a n = true ↔ a = 0 ∨ n = 0 := by
  simp only [bufferAbsent, Bool.or_eq_true, beq_iff_eq]

theorem pastTop_iff (a i : Word) : pastTop a i = true ↔ 2 ^ 32 ≤ a.toNat + i.toNat := by
  simp only [pastTop, decide_eq_true_eq]

/-- The bits of a word from bit `k` up are 0 exactly when the word is below 2^k. -/
theorem highBits_zero_iff (x : Word) (k w : Nat) (hw : k + w = 32) : x.extractLsb' k w = 0 ↔ x.toNat < 2 ^ k := by
  have hx := x.isLt
  have hpow : 2 ^ k * 2 ^ w = 2 ^ 32 := by rw [← pow_add, hw]
  have hlt : x.toNat / 2 ^ k < 2 ^ w := Nat.div_lt_of_lt_mul (by omega)
  rw [← BitVec.toNat_inj, BitVec.extractLsb'_toNat, Nat.shiftRight_eq_div_pow, Nat.mod_eq_of_lt hlt]
  rw [show (0 : BitVec w).toNat = 0 by simp, Nat.div_eq_zero_iff]
  have : 2 ^ k ≠ 0 := by positivity
  tauto

theorem isByteArg_iff (x : Word) : isByteArg x = true ↔ x.toNat ≤ 255 := by
  rw [isByteArg, beq_iff_eq]
  exact (highBits_zero_iff x 8 24 rfl).trans (by omega)

theorem maskLegal_iff (m : Word) : maskLegal m = true ↔ m.toNat ≤ 15 := by
  rw [maskLegal, beq_iff_eq]
  exact (highBits_zero_iff m 4 28 rfl).trans (by omega)

theorem cfgLegal_iff (c : Word) : cfgLegal c = true ↔ c.toNat < 1024 ∧ c.extractLsb' 3 2 ≠ 3#2 := by
  rw [cfgLegal, Bool.and_eq_true, beq_iff_eq, Bool.not_eq_true', beq_eq_false_iff_ne]
  exact and_congr_left' (highBits_zero_iff c 10 22 rfl)

/-- A reserved field is 0 exactly when the command word is one byte. -/
theorem reservedField_iff (c : Word) : reservedField c = 0 ↔ c.toNat < 256 := highBits_zero_iff c 8 24 rfl

/-- An error is seen exactly when one of the four low bits of the status word is set. -/
theorem anyError_iff (s : Word) : anyError s = true ↔ ∃ k, k < 4 ∧ bit s k = true := by
  simp only [anyError, Bool.or_eq_true]
  constructor
  · rintro (((h | h) | h) | h)
    exacts [⟨0, by decide, h⟩, ⟨1, by decide, h⟩, ⟨2, by decide, h⟩, ⟨3, by decide, h⟩]
  · rintro ⟨k, hk, h⟩
    interval_cases k <;> tauto

/-- The decoder finds an error exactly when one is seen, and never Overflow. -/
theorem decodeErrors_none_iff (s : Word) : decodeErrors s = none ↔ anyError s = false := by
  unfold decodeErrors anyError
  cases bit s Sr.pe <;> cases bit s Sr.fe <;> cases bit s Sr.nf <;> cases bit s Sr.ore <;> simp

/-- The local `e` after Decode is 0 exactly when no error is seen, and never ends in the code of Overflow. -/
theorem decodedCode_zero_iff (s : Word) : decodedCode (decodeErrors s) = 0 ↔ anyError s = false := by
  rw [← decodeErrors_none_iff]
  unfold decodeErrors
  cases bit s Sr.pe <;> cases bit s Sr.fe <;> cases bit s Sr.nf <;> cases bit s Sr.ore <;> decide

theorem decodedCode_ne_overflow (s : Word) : decodedCode (decodeErrors s) &&& 7 ≠ ErrorOutcome.overflow.code := by
  unfold decodeErrors
  cases bit s Sr.pe <;> cases bit s Sr.fe <;> cases bit s Sr.nf <;> cases bit s Sr.ore <;> decide

/-- A byte argument is the word that DR is written with. -/
theorem byteArg_word (x : Word) (h : x.toNat ≤ 255) : (x.setWidth 8).setWidth 32 = x := by
  apply BitVec.eq_of_toNat_eq
  simp only [BitVec.toNat_setWidth]
  omega

end Sys2Proof.Machine
end

