-- ==== Sys2Proof/Laws/Decode.lean ====
section
/-! SUPPORT. The two fields of a command word, and what the decoder over the whole table reads from a one-byte word. -/

namespace Sys2Proof.Machine

open Sys2Proof

/-- The opcode of the word `zext_32(OPC)` is OPC (R80, R89). -/
@[simp] theorem opcodeField_commandWord (o : Byte) : opcodeField (commandWord o) = o := by
  unfold opcodeField commandWord
  apply BitVec.eq_of_toNat_eq
  have := o.isLt
  simp only [BitVec.extractLsb'_toNat, BitVec.toNat_setWidth]
  omega

/-- Its reserved bits are 0 (R89). -/
@[simp] theorem reservedField_commandWord (o : Byte) : reservedField (commandWord o) = 0 := by
  rw [reservedField_iff, commandWord, BitVec.toNat_setWidth]
  have := o.isLt
  omega

/-- A command word with reserved bits 0 is the zero-extended opcode. -/
theorem commandWord_opcodeField (c : Word) (h : reservedField c = 0) : commandWord (opcodeField c) = c := by
  rw [reservedField_iff] at h
  apply BitVec.eq_of_toNat_eq
  simp only [commandWord, opcodeField, BitVec.extractLsb'_toNat, BitVec.toNat_setWidth]
  omega

/-- Where the opcode is one of the table, the decoder over the whole table reads it from the word with that opcode
(R81, R86). -/
theorem decodeTable_word (o : Byte) (a0 a1 a2 : Word) (i : Instr) (h : decodeOpcode o a0 a1 a2 = some i) :
    decodeTable ⟨commandWord o, a0, a1, a2⟩ = .instr i := by
  unfold decodeTable
  rw [if_neg (by simp)]
  simp only [opcodeField_commandWord, h]

end Sys2Proof.Machine
end

