-- ==== Sys2Proof/Laws/State.lean ====
section
/-! SUPPORT. One lemma for each field of State under each update of it: what the update leaves in the field. (The proofs are
written `(rfl)`: so `simp` rewrites with these lemmas, and the decision instances of an `if` keep up with its condition.) -/

namespace Sys2Proof.Machine

open Sys2Proof

/-- Two states are equal when their fields are. -/
theorem State.ext_fields {s t : State} (h1 : s.tb = t.tb) (h2 : s.ci = t.ci) (h3 : s.chan = t.chan)
    (h4 : s.plat = t.plat) (h5 : s.phase = t.phase) (h6 : s.hpc = t.hpc) (h7 : s.hist = t.hist) (h8 : s.fault = t.fault)
    (h9 : s.mem = t.mem) (h10 : s.params = t.params) (h11 : s.program = t.program)
    (h12 : s.schedule = t.schedule) : s = t := by
  cases s; cases t; simp_all

/-! ### record -/

@[simp] theorem record_tb (e : Event) (s : State) : (record e s).tb = s.tb := (rfl)
@[simp] theorem record_ci (e : Event) (s : State) : (record e s).ci = s.ci := (rfl)
@[simp] theorem record_chan (e : Event) (s : State) : (record e s).chan = s.chan := (rfl)
@[simp] theorem record_plat (e : Event) (s : State) : (record e s).plat = s.plat := (rfl)
@[simp] theorem record_phase (e : Event) (s : State) : (record e s).phase = s.phase := (rfl)
@[simp] theorem record_hpc (e : Event) (s : State) : (record e s).hpc = s.hpc := (rfl)
@[simp] theorem record_hist (e : Event) (s : State) : (record e s).hist = s.hist ++ [e] := (rfl)
@[simp] theorem record_fault (e : Event) (s : State) : (record e s).fault = s.fault := (rfl)
@[simp] theorem record_mem (e : Event) (s : State) : (record e s).mem = s.mem := (rfl)
@[simp] theorem record_params (e : Event) (s : State) : (record e s).params = s.params := (rfl)
@[simp] theorem record_program (e : Event) (s : State) : (record e s).program = s.program := (rfl)
@[simp] theorem record_schedule (e : Event) (s : State) : (record e s).schedule = s.schedule := (rfl)

/-! ### setRunning -/

@[simp] theorem setRunning_tb (r : Running) (s : State) : (setRunning r s).tb = s.tb := (rfl)
@[simp] theorem setRunning_ci (r : Running) (s : State) : (setRunning r s).ci = s.ci := (rfl)
@[simp] theorem setRunning_chan (r : Running) (s : State) : (setRunning r s).chan = s.chan := (rfl)
@[simp] theorem setRunning_plat (r : Running) (s : State) : (setRunning r s).plat = s.plat := (rfl)
@[simp] theorem setRunning_phase (r : Running) (s : State) : (setRunning r s).phase = .running r := (rfl)
@[simp] theorem setRunning_hpc (r : Running) (s : State) : (setRunning r s).hpc = s.hpc := (rfl)
@[simp] theorem setRunning_hist (r : Running) (s : State) : (setRunning r s).hist = s.hist := (rfl)
@[simp] theorem setRunning_fault (r : Running) (s : State) : (setRunning r s).fault = s.fault := (rfl)
@[simp] theorem setRunning_mem (r : Running) (s : State) : (setRunning r s).mem = s.mem := (rfl)
@[simp] theorem setRunning_params (r : Running) (s : State) : (setRunning r s).params = s.params := (rfl)
@[simp] theorem setRunning_program (r : Running) (s : State) : (setRunning r s).program = s.program := (rfl)
@[simp] theorem setRunning_schedule (r : Running) (s : State) : (setRunning r s).schedule = s.schedule := (rfl)

/-! ### writeR0Code -/

@[simp] theorem writeR0Code_tb (v : Word) (s : State) : (writeR0Code v s).tb = s.tb := (rfl)
@[simp] theorem writeR0Code_ci (v : Word) (s : State) :
    (writeR0Code v s).ci = { s.ci with r0 := v &&& 7, r0Set := true } := (rfl)
@[simp] theorem writeR0Code_chan (v : Word) (s : State) : (writeR0Code v s).chan = s.chan := (rfl)
@[simp] theorem writeR0Code_plat (v : Word) (s : State) : (writeR0Code v s).plat = s.plat := (rfl)
@[simp] theorem writeR0Code_phase (v : Word) (s : State) : (writeR0Code v s).phase = s.phase := (rfl)
@[simp] theorem writeR0Code_hpc (v : Word) (s : State) : (writeR0Code v s).hpc = s.hpc := (rfl)
@[simp] theorem writeR0Code_hist (v : Word) (s : State) : (writeR0Code v s).hist = s.hist := (rfl)
@[simp] theorem writeR0Code_fault (v : Word) (s : State) : (writeR0Code v s).fault = s.fault := (rfl)
@[simp] theorem writeR0Code_mem (v : Word) (s : State) : (writeR0Code v s).mem = s.mem := (rfl)
@[simp] theorem writeR0Code_params (v : Word) (s : State) : (writeR0Code v s).params = s.params := (rfl)
@[simp] theorem writeR0Code_program (v : Word) (s : State) : (writeR0Code v s).program = s.program := (rfl)
@[simp] theorem writeR0Code_schedule (v : Word) (s : State) : (writeR0Code v s).schedule = s.schedule := (rfl)

/-! ### writeR0 -/

/-- An outcome's code keeps its value in R0 (R25, R84). -/
@[simp] theorem writeR0Code_code (o : ErrorOutcome) (s : State) : writeR0Code o.code s = writeR0 o s := (rfl)

@[simp] theorem writeR0_tb (o : ErrorOutcome) (s : State) : (writeR0 o s).tb = s.tb := (rfl)
@[simp] theorem writeR0_ci (o : ErrorOutcome) (s : State) :
    (writeR0 o s).ci = { s.ci with r0 := o.code, r0Set := true } := by cases o <;> rfl
@[simp] theorem writeR0_chan (o : ErrorOutcome) (s : State) : (writeR0 o s).chan = s.chan := (rfl)
@[simp] theorem writeR0_plat (o : ErrorOutcome) (s : State) : (writeR0 o s).plat = s.plat := (rfl)
@[simp] theorem writeR0_phase (o : ErrorOutcome) (s : State) : (writeR0 o s).phase = s.phase := (rfl)
@[simp] theorem writeR0_hpc (o : ErrorOutcome) (s : State) : (writeR0 o s).hpc = s.hpc := (rfl)
@[simp] theorem writeR0_hist (o : ErrorOutcome) (s : State) : (writeR0 o s).hist = s.hist := (rfl)
@[simp] theorem writeR0_fault (o : ErrorOutcome) (s : State) : (writeR0 o s).fault = s.fault := (rfl)
@[simp] theorem writeR0_mem (o : ErrorOutcome) (s : State) : (writeR0 o s).mem = s.mem := (rfl)
@[simp] theorem writeR0_params (o : ErrorOutcome) (s : State) : (writeR0 o s).params = s.params := (rfl)
@[simp] theorem writeR0_program (o : ErrorOutcome) (s : State) : (writeR0 o s).program = s.program := (rfl)
@[simp] theorem writeR0_schedule (o : ErrorOutcome) (s : State) : (writeR0 o s).schedule = s.schedule := (rfl)

/-! ### writeR1 -/

@[simp] theorem writeR1_tb (v : Word) (s : State) : (writeR1 v s).tb = s.tb := (rfl)
@[simp] theorem writeR1_ci (v : Word) (s : State) : (writeR1 v s).ci = { s.ci with r1 := v, r1Set := true } := (rfl)
@[simp] theorem writeR1_chan (v : Word) (s : State) : (writeR1 v s).chan = s.chan := (rfl)
@[simp] theorem writeR1_plat (v : Word) (s : State) : (writeR1 v s).plat = s.plat := (rfl)
@[simp] theorem writeR1_phase (v : Word) (s : State) : (writeR1 v s).phase = s.phase := (rfl)
@[simp] theorem writeR1_hpc (v : Word) (s : State) : (writeR1 v s).hpc = s.hpc := (rfl)
@[simp] theorem writeR1_hist (v : Word) (s : State) : (writeR1 v s).hist = s.hist := (rfl)
@[simp] theorem writeR1_fault (v : Word) (s : State) : (writeR1 v s).fault = s.fault := (rfl)
@[simp] theorem writeR1_mem (v : Word) (s : State) : (writeR1 v s).mem = s.mem := (rfl)
@[simp] theorem writeR1_params (v : Word) (s : State) : (writeR1 v s).params = s.params := (rfl)
@[simp] theorem writeR1_program (v : Word) (s : State) : (writeR1 v s).program = s.program := (rfl)
@[simp] theorem writeR1_schedule (v : Word) (s : State) : (writeR1 v s).schedule = s.schedule := (rfl)

/-! ### finish -/

@[simp] theorem finish_tb (r : Running) (s : State) : (finish r s).tb = s.tb := (rfl)
@[simp] theorem finish_ci (r : Running) (s : State) : (finish r s).ci = s.ci := (rfl)
@[simp] theorem finish_chan (r : Running) (s : State) : (finish r s).chan = s.chan := (rfl)
@[simp] theorem finish_plat (r : Running) (s : State) : (finish r s).plat = s.plat := (rfl)
@[simp] theorem finish_phase (r : Running) (s : State) : (finish r s).phase = .idle := (rfl)
@[simp] theorem finish_hpc (r : Running) (s : State) : (finish r s).hpc = s.hpc + 1 := (rfl)
@[simp] theorem finish_hist (r : Running) (s : State) :
    (finish r s).hist = s.hist ++ [.finish r.op (shownResult s.ci.r0Set s.ci.r0) (shownResult s.ci.r1Set s.ci.r1)] := (rfl)
@[simp] theorem finish_fault (r : Running) (s : State) : (finish r s).fault = s.fault := (rfl)
@[simp] theorem finish_mem (r : Running) (s : State) : (finish r s).mem = s.mem := (rfl)
@[simp] theorem finish_params (r : Running) (s : State) : (finish r s).params = s.params := (rfl)
@[simp] theorem finish_program (r : Running) (s : State) : (finish r s).program = s.program := (rfl)
@[simp] theorem finish_schedule (r : Running) (s : State) : (finish r s).schedule = s.schedule := (rfl)

/-! ### raiseFault -/

/-- Where no assignment precedes it, a raise in a command is the raise alone (R222). -/
theorem stepRaise_unchanged {f : FaultMark} {r : Running} {s : State} (hr : s.phase = .running r) :
    stepRaise f r s = raiseFault f s := by
  simp [stepRaise, setRunning, raiseFault, hr]

@[simp] theorem raiseFault_tb (f : FaultMark) (s : State) : (raiseFault f s).tb = s.tb := (rfl)
@[simp] theorem raiseFault_ci (f : FaultMark) (s : State) : (raiseFault f s).ci = s.ci := (rfl)
@[simp] theorem raiseFault_chan (f : FaultMark) (s : State) : (raiseFault f s).chan = s.chan := (rfl)
@[simp] theorem raiseFault_plat (f : FaultMark) (s : State) : (raiseFault f s).plat = s.plat := (rfl)
@[simp] theorem raiseFault_phase (f : FaultMark) (s : State) : (raiseFault f s).phase = s.phase := (rfl)
@[simp] theorem raiseFault_hpc (f : FaultMark) (s : State) : (raiseFault f s).hpc = s.hpc := (rfl)
@[simp] theorem raiseFault_hist (f : FaultMark) (s : State) : (raiseFault f s).hist = s.hist ++ [.fault f] := (rfl)
@[simp] theorem raiseFault_fault (f : FaultMark) (s : State) : (raiseFault f s).fault = some f := (rfl)
@[simp] theorem raiseFault_mem (f : FaultMark) (s : State) : (raiseFault f s).mem = s.mem := (rfl)
@[simp] theorem raiseFault_params (f : FaultMark) (s : State) : (raiseFault f s).params = s.params := (rfl)
@[simp] theorem raiseFault_program (f : FaultMark) (s : State) : (raiseFault f s).program = s.program := (rfl)
@[simp] theorem raiseFault_schedule (f : FaultMark) (s : State) : (raiseFault f s).schedule = s.schedule := (rfl)

/-! ### regRead -/

@[simp] theorem regRead_tb (r : ChanReg) (s : State) : (regRead r s).tb = s.tb := (rfl)
@[simp] theorem regRead_ci (r : ChanReg) (s : State) : (regRead r s).ci = s.ci := (rfl)
@[simp] theorem regRead_chan (r : ChanReg) (s : State) :
    (regRead r s).chan = if s.plat.clkEn then s.chan.afterRead r else s.chan := (rfl)
@[simp] theorem regRead_plat (r : ChanReg) (s : State) : (regRead r s).plat = s.plat := (rfl)
@[simp] theorem regRead_phase (r : ChanReg) (s : State) : (regRead r s).phase = s.phase := (rfl)
@[simp] theorem regRead_hpc (r : ChanReg) (s : State) : (regRead r s).hpc = s.hpc := (rfl)
@[simp] theorem regRead_hist (r : ChanReg) (s : State) :
    (regRead r s).hist = s.hist ++ [.regRd r (readValue r s)] := (rfl)
@[simp] theorem regRead_fault (r : ChanReg) (s : State) : (regRead r s).fault = s.fault := (rfl)
@[simp] theorem regRead_mem (r : ChanReg) (s : State) : (regRead r s).mem = s.mem := (rfl)
@[simp] theorem regRead_params (r : ChanReg) (s : State) : (regRead r s).params = s.params := (rfl)
@[simp] theorem regRead_program (r : ChanReg) (s : State) : (regRead r s).program = s.program := (rfl)
@[simp] theorem regRead_schedule (r : ChanReg) (s : State) : (regRead r s).schedule = s.schedule := (rfl)

/-! ### regWrite -/

@[simp] theorem regWrite_tb (r : ChanReg) (v : Word) (s : State) : (regWrite r v s).tb = s.tb := (rfl)
@[simp] theorem regWrite_ci (r : ChanReg) (v : Word) (s : State) : (regWrite r v s).ci = s.ci := (rfl)
@[simp] theorem regWrite_chan (r : ChanReg) (v : Word) (s : State) :
    (regWrite r v s).chan = if s.plat.clkEn then s.chan.afterWrite r v else s.chan := (rfl)
@[simp] theorem regWrite_plat (r : ChanReg) (v : Word) (s : State) : (regWrite r v s).plat = s.plat := (rfl)
@[simp] theorem regWrite_phase (r : ChanReg) (v : Word) (s : State) : (regWrite r v s).phase = s.phase := (rfl)
@[simp] theorem regWrite_hpc (r : ChanReg) (v : Word) (s : State) : (regWrite r v s).hpc = s.hpc := (rfl)
@[simp] theorem regWrite_hist (r : ChanReg) (v : Word) (s : State) :
    (regWrite r v s).hist = s.hist ++ [.regWr r v] := (rfl)
@[simp] theorem regWrite_fault (r : ChanReg) (v : Word) (s : State) : (regWrite r v s).fault = s.fault := (rfl)
@[simp] theorem regWrite_mem (r : ChanReg) (v : Word) (s : State) : (regWrite r v s).mem = s.mem := (rfl)
@[simp] theorem regWrite_params (r : ChanReg) (v : Word) (s : State) : (regWrite r v s).params = s.params := (rfl)
@[simp] theorem regWrite_program (r : ChanReg) (v : Word) (s : State) : (regWrite r v s).program = s.program := (rfl)
@[simp] theorem regWrite_schedule (r : ChanReg) (v : Word) (s : State) : (regWrite r v s).schedule = s.schedule := (rfl)

/-! ### writeField -/

@[simp] theorem writeField_tb (w : FieldWrite) (s : State) : (writeField s w).tb = s.tb := (rfl)
@[simp] theorem writeField_ci (w : FieldWrite) (s : State) : (writeField s w).ci = s.ci := (rfl)
@[simp] theorem writeField_chan (w : FieldWrite) (s : State) :
    (writeField s w).chan = if s.plat.clkEn then w.apply s.chan else s.chan := (rfl)
@[simp] theorem writeField_plat (w : FieldWrite) (s : State) : (writeField s w).plat = s.plat := (rfl)
@[simp] theorem writeField_phase (w : FieldWrite) (s : State) : (writeField s w).phase = s.phase := (rfl)
@[simp] theorem writeField_hpc (w : FieldWrite) (s : State) : (writeField s w).hpc = s.hpc := (rfl)
@[simp] theorem writeField_hist (w : FieldWrite) (s : State) :
    (writeField s w).hist = s.hist ++ [.regWr w.reg ((if s.plat.clkEn then w.apply s.chan else s.chan).value w.reg)] := (rfl)
@[simp] theorem writeField_fault (w : FieldWrite) (s : State) : (writeField s w).fault = s.fault := (rfl)
@[simp] theorem writeField_mem (w : FieldWrite) (s : State) : (writeField s w).mem = s.mem := (rfl)
@[simp] theorem writeField_params (w : FieldWrite) (s : State) : (writeField s w).params = s.params := (rfl)
@[simp] theorem writeField_program (w : FieldWrite) (s : State) : (writeField s w).program = s.program := (rfl)
@[simp] theorem writeField_schedule (w : FieldWrite) (s : State) : (writeField s w).schedule = s.schedule := (rfl)

/-! ### tickRead -/

@[simp] theorem tickRead_tb (s : State) : (tickRead s).tb = s.tb := (rfl)
@[simp] theorem tickRead_ci (s : State) : (tickRead s).ci = s.ci := (rfl)
@[simp] theorem tickRead_chan (s : State) : (tickRead s).chan = s.chan := (rfl)
@[simp] theorem tickRead_plat (s : State) : (tickRead s).plat = s.plat := (rfl)
@[simp] theorem tickRead_phase (s : State) : (tickRead s).phase = s.phase := (rfl)
@[simp] theorem tickRead_hpc (s : State) : (tickRead s).hpc = s.hpc := (rfl)
@[simp] theorem tickRead_hist (s : State) : (tickRead s).hist = s.hist ++ [.tickRd s.tb.tickCnt] := (rfl)
@[simp] theorem tickRead_fault (s : State) : (tickRead s).fault = s.fault := (rfl)
@[simp] theorem tickRead_mem (s : State) : (tickRead s).mem = s.mem := (rfl)
@[simp] theorem tickRead_params (s : State) : (tickRead s).params = s.params := (rfl)
@[simp] theorem tickRead_program (s : State) : (tickRead s).program = s.program := (rfl)
@[simp] theorem tickRead_schedule (s : State) : (tickRead s).schedule = s.schedule := (rfl)

/-! ### startTickSource -/

@[simp] theorem startTickSource_tb (s : State) :
    (startTickSource s).tb = { s.tb with tickPeriod := BitVec.ofNat 32 (s.params.clockHz / 1000), tickEn := true } := (rfl)
@[simp] theorem startTickSource_ci (s : State) : (startTickSource s).ci = s.ci := (rfl)
@[simp] theorem startTickSource_chan (s : State) : (startTickSource s).chan = s.chan := (rfl)
@[simp] theorem startTickSource_plat (s : State) : (startTickSource s).plat = s.plat := (rfl)
@[simp] theorem startTickSource_phase (s : State) : (startTickSource s).phase = s.phase := (rfl)
@[simp] theorem startTickSource_hpc (s : State) : (startTickSource s).hpc = s.hpc := (rfl)
@[simp] theorem startTickSource_hist (s : State) : (startTickSource s).hist = s.hist := (rfl)
@[simp] theorem startTickSource_fault (s : State) : (startTickSource s).fault = s.fault := (rfl)
@[simp] theorem startTickSource_mem (s : State) : (startTickSource s).mem = s.mem := (rfl)
@[simp] theorem startTickSource_params (s : State) : (startTickSource s).params = s.params := (rfl)
@[simp] theorem startTickSource_program (s : State) : (startTickSource s).program = s.program := (rfl)
@[simp] theorem startTickSource_schedule (s : State) : (startTickSource s).schedule = s.schedule := (rfl)

/-! ### tickCounter -/

@[simp] theorem tickCounter_tb (s : State) : (tickCounter s).tb = { s.tb with tickCnt := s.tb.tickCnt + 1 } := (rfl)
@[simp] theorem tickCounter_ci (s : State) : (tickCounter s).ci = s.ci := (rfl)
@[simp] theorem tickCounter_chan (s : State) : (tickCounter s).chan = s.chan := (rfl)
@[simp] theorem tickCounter_plat (s : State) : (tickCounter s).plat = s.plat := (rfl)
@[simp] theorem tickCounter_phase (s : State) : (tickCounter s).phase = s.phase := (rfl)
@[simp] theorem tickCounter_hpc (s : State) : (tickCounter s).hpc = s.hpc := (rfl)
@[simp] theorem tickCounter_hist (s : State) : (tickCounter s).hist = s.hist ++ [.tick (s.tb.tickCnt + 1)] := (rfl)
@[simp] theorem tickCounter_fault (s : State) : (tickCounter s).fault = s.fault := (rfl)
@[simp] theorem tickCounter_mem (s : State) : (tickCounter s).mem = s.mem := (rfl)
@[simp] theorem tickCounter_params (s : State) : (tickCounter s).params = s.params := (rfl)
@[simp] theorem tickCounter_program (s : State) : (tickCounter s).program = s.program := (rfl)
@[simp] theorem tickCounter_schedule (s : State) : (tickCounter s).schedule = s.schedule := (rfl)

/-! ### enableClockAndPins -/

@[simp] theorem enableClockAndPins_tb (s : State) : (enableClockAndPins s).tb = s.tb := (rfl)
@[simp] theorem enableClockAndPins_ci (s : State) : (enableClockAndPins s).ci = s.ci := (rfl)
@[simp] theorem enableClockAndPins_chan (s : State) : (enableClockAndPins s).chan = s.chan := (rfl)
@[simp] theorem enableClockAndPins_plat (s : State) :
    (enableClockAndPins s).plat = { s.plat with clkEn := true, pinRoute := true } := (rfl)
@[simp] theorem enableClockAndPins_phase (s : State) : (enableClockAndPins s).phase = s.phase := (rfl)
@[simp] theorem enableClockAndPins_hpc (s : State) : (enableClockAndPins s).hpc = s.hpc := (rfl)
@[simp] theorem enableClockAndPins_hist (s : State) : (enableClockAndPins s).hist = s.hist := (rfl)
@[simp] theorem enableClockAndPins_fault (s : State) : (enableClockAndPins s).fault = s.fault := (rfl)
@[simp] theorem enableClockAndPins_mem (s : State) : (enableClockAndPins s).mem = s.mem := (rfl)
@[simp] theorem enableClockAndPins_params (s : State) : (enableClockAndPins s).params = s.params := (rfl)
@[simp] theorem enableClockAndPins_program (s : State) : (enableClockAndPins s).program = s.program := (rfl)
@[simp] theorem enableClockAndPins_schedule (s : State) : (enableClockAndPins s).schedule = s.schedule := (rfl)

/-! ### armLine -/

@[simp] theorem armLine_tb (s : State) : (armLine s).tb = s.tb := (rfl)
@[simp] theorem armLine_ci (s : State) : (armLine s).ci = s.ci := (rfl)
@[simp] theorem armLine_chan (s : State) : (armLine s).chan = s.chan := (rfl)
@[simp] theorem armLine_plat (s : State) : (armLine s).plat = { s.plat with irqArmed := true } := (rfl)
@[simp] theorem armLine_phase (s : State) : (armLine s).phase = s.phase := (rfl)
@[simp] theorem armLine_hpc (s : State) : (armLine s).hpc = s.hpc := (rfl)
@[simp] theorem armLine_hist (s : State) : (armLine s).hist = s.hist := (rfl)
@[simp] theorem armLine_fault (s : State) : (armLine s).fault = s.fault := (rfl)
@[simp] theorem armLine_mem (s : State) : (armLine s).mem = s.mem := (rfl)
@[simp] theorem armLine_params (s : State) : (armLine s).params = s.params := (rfl)
@[simp] theorem armLine_program (s : State) : (armLine s).program = s.program := (rfl)
@[simp] theorem armLine_schedule (s : State) : (armLine s).schedule = s.schedule := (rfl)

/-! ### issue -/

@[simp] theorem issue_tb (c : HostCommand) (s : State) : (issue c s).tb = s.tb := (rfl)
@[simp] theorem issue_ci (c : HostCommand) (s : State) :
    (issue c s).ci = { s.ci with cmd := c.cmd, a0 := c.a0, a1 := c.a1, a2 := c.a2 } := (rfl)
@[simp] theorem issue_chan (c : HostCommand) (s : State) : (issue c s).chan = s.chan := (rfl)
@[simp] theorem issue_plat (c : HostCommand) (s : State) : (issue c s).plat = s.plat := (rfl)
@[simp] theorem issue_phase (c : HostCommand) (s : State) : (issue c s).phase = .running (Running.ofCommand c) := (rfl)
@[simp] theorem issue_hpc (c : HostCommand) (s : State) : (issue c s).hpc = s.hpc := (rfl)
@[simp] theorem issue_hist (c : HostCommand) (s : State) :
    (issue c s).hist = s.hist ++ [.issue (opcodeField c.cmd) c.a0 c.a1 c.a2] := (rfl)
@[simp] theorem issue_fault (c : HostCommand) (s : State) : (issue c s).fault = s.fault := (rfl)
@[simp] theorem issue_mem (c : HostCommand) (s : State) : (issue c s).mem = s.mem := (rfl)
@[simp] theorem issue_params (c : HostCommand) (s : State) : (issue c s).params = s.params := (rfl)
@[simp] theorem issue_program (c : HostCommand) (s : State) : (issue c s).program = s.program := (rfl)
@[simp] theorem issue_schedule (c : HostCommand) (s : State) : (issue c s).schedule = s.schedule := (rfl)

/-! ### takeMove -/

@[simp] theorem takeMove_tb (s : State) : (takeMove s).tb = s.tb := (rfl)
@[simp] theorem takeMove_ci (s : State) : (takeMove s).ci = s.ci := (rfl)
@[simp] theorem takeMove_chan (s : State) : (takeMove s).chan = s.chan := (rfl)
@[simp] theorem takeMove_plat (s : State) : (takeMove s).plat = s.plat := (rfl)
@[simp] theorem takeMove_phase (s : State) : (takeMove s).phase = s.phase := (rfl)
@[simp] theorem takeMove_hpc (s : State) : (takeMove s).hpc = s.hpc := (rfl)
@[simp] theorem takeMove_hist (s : State) : (takeMove s).hist = s.hist := (rfl)
@[simp] theorem takeMove_fault (s : State) : (takeMove s).fault = s.fault := (rfl)
@[simp] theorem takeMove_mem (s : State) : (takeMove s).mem = s.mem := (rfl)
@[simp] theorem takeMove_params (s : State) : (takeMove s).params = s.params := (rfl)
@[simp] theorem takeMove_program (s : State) : (takeMove s).program = s.program := (rfl)
@[simp] theorem takeMove_schedule (s : State) : (takeMove s).schedule = s.schedule.tail := (rfl)

/-! ### txLoad -/

@[simp] theorem txLoad_tb (s : State) : (txLoad s).tb = s.tb := (rfl)
@[simp] theorem txLoad_ci (s : State) : (txLoad s).ci = s.ci := (rfl)
@[simp] theorem txLoad_plat (s : State) : (txLoad s).plat = s.plat := (rfl)
@[simp] theorem txLoad_phase (s : State) : (txLoad s).phase = s.phase := (rfl)
@[simp] theorem txLoad_hpc (s : State) : (txLoad s).hpc = s.hpc := (rfl)
@[simp] theorem txLoad_fault (s : State) : (txLoad s).fault = s.fault := (rfl)
@[simp] theorem txLoad_mem (s : State) : (txLoad s).mem = s.mem := (rfl)
@[simp] theorem txLoad_params (s : State) : (txLoad s).params = s.params := (rfl)
@[simp] theorem txLoad_program (s : State) : (txLoad s).program = s.program := (rfl)
@[simp] theorem txLoad_schedule (s : State) : (txLoad s).schedule = s.schedule := (rfl)

/-! ### txDone -/

@[simp] theorem txDone_tb (s : State) : (txDone s).tb = s.tb := (rfl)
@[simp] theorem txDone_ci (s : State) : (txDone s).ci = s.ci := (rfl)
@[simp] theorem txDone_plat (s : State) : (txDone s).plat = s.plat := (rfl)
@[simp] theorem txDone_phase (s : State) : (txDone s).phase = s.phase := (rfl)
@[simp] theorem txDone_hpc (s : State) : (txDone s).hpc = s.hpc := (rfl)
@[simp] theorem txDone_fault (s : State) : (txDone s).fault = s.fault := (rfl)
@[simp] theorem txDone_mem (s : State) : (txDone s).mem = s.mem := (rfl)
@[simp] theorem txDone_params (s : State) : (txDone s).params = s.params := (rfl)
@[simp] theorem txDone_program (s : State) : (txDone s).program = s.program := (rfl)
@[simp] theorem txDone_schedule (s : State) : (txDone s).schedule = s.schedule := (rfl)

/-! ### rxFrame -/

@[simp] theorem rxFrame_tb (b : Frame) (pe fe nf : Bool) (s : State) : (rxFrame b pe fe nf s).tb = s.tb := (rfl)
@[simp] theorem rxFrame_ci (b : Frame) (pe fe nf : Bool) (s : State) : (rxFrame b pe fe nf s).ci = s.ci := (rfl)
@[simp] theorem rxFrame_plat (b : Frame) (pe fe nf : Bool) (s : State) : (rxFrame b pe fe nf s).plat = s.plat := (rfl)
@[simp] theorem rxFrame_phase (b : Frame) (pe fe nf : Bool) (s : State) : (rxFrame b pe fe nf s).phase = s.phase := (rfl)
@[simp] theorem rxFrame_hpc (b : Frame) (pe fe nf : Bool) (s : State) : (rxFrame b pe fe nf s).hpc = s.hpc := (rfl)
@[simp] theorem rxFrame_fault (b : Frame) (pe fe nf : Bool) (s : State) : (rxFrame b pe fe nf s).fault = s.fault := (rfl)
@[simp] theorem rxFrame_mem (b : Frame) (pe fe nf : Bool) (s : State) : (rxFrame b pe fe nf s).mem = s.mem := (rfl)
@[simp] theorem rxFrame_params (b : Frame) (pe fe nf : Bool) (s : State) : (rxFrame b pe fe nf s).params = s.params := (rfl)
@[simp] theorem rxFrame_program (b : Frame) (pe fe nf : Bool) (s : State) : (rxFrame b pe fe nf s).program = s.program := (rfl)
@[simp] theorem rxFrame_schedule (b : Frame) (pe fe nf : Bool) (s : State) : (rxFrame b pe fe nf s).schedule = s.schedule := (rfl)

/-! ### rxOverrun -/

@[simp] theorem rxOverrun_tb (b : Frame) (pe fe nf : Bool) (s : State) : (rxOverrun b pe fe nf s).tb = s.tb := (rfl)
@[simp] theorem rxOverrun_ci (b : Frame) (pe fe nf : Bool) (s : State) : (rxOverrun b pe fe nf s).ci = s.ci := (rfl)
@[simp] theorem rxOverrun_plat (b : Frame) (pe fe nf : Bool) (s : State) : (rxOverrun b pe fe nf s).plat = s.plat := (rfl)
@[simp] theorem rxOverrun_phase (b : Frame) (pe fe nf : Bool) (s : State) : (rxOverrun b pe fe nf s).phase = s.phase := (rfl)
@[simp] theorem rxOverrun_hpc (b : Frame) (pe fe nf : Bool) (s : State) : (rxOverrun b pe fe nf s).hpc = s.hpc := (rfl)
@[simp] theorem rxOverrun_fault (b : Frame) (pe fe nf : Bool) (s : State) : (rxOverrun b pe fe nf s).fault = s.fault := (rfl)
@[simp] theorem rxOverrun_mem (b : Frame) (pe fe nf : Bool) (s : State) : (rxOverrun b pe fe nf s).mem = s.mem := (rfl)
@[simp] theorem rxOverrun_params (b : Frame) (pe fe nf : Bool) (s : State) : (rxOverrun b pe fe nf s).params = s.params := (rfl)
@[simp] theorem rxOverrun_program (b : Frame) (pe fe nf : Bool) (s : State) : (rxOverrun b pe fe nf s).program = s.program := (rfl)
@[simp] theorem rxOverrun_schedule (b : Frame) (pe fe nf : Bool) (s : State) : (rxOverrun b pe fe nf s).schedule = s.schedule := (rfl)

/-! ### freeChange -/

@[simp] theorem freeChange_tb (v : BitVec 10) (d : Frame) (s : State) : (freeChange v d s).tb = s.tb := (rfl)
@[simp] theorem freeChange_ci (v : BitVec 10) (d : Frame) (s : State) : (freeChange v d s).ci = s.ci := (rfl)
@[simp] theorem freeChange_plat (v : BitVec 10) (d : Frame) (s : State) : (freeChange v d s).plat = s.plat := (rfl)
@[simp] theorem freeChange_phase (v : BitVec 10) (d : Frame) (s : State) : (freeChange v d s).phase = s.phase := (rfl)
@[simp] theorem freeChange_hpc (v : BitVec 10) (d : Frame) (s : State) : (freeChange v d s).hpc = s.hpc := (rfl)
@[simp] theorem freeChange_fault (v : BitVec 10) (d : Frame) (s : State) : (freeChange v d s).fault = s.fault := (rfl)
@[simp] theorem freeChange_mem (v : BitVec 10) (d : Frame) (s : State) : (freeChange v d s).mem = s.mem := (rfl)
@[simp] theorem freeChange_params (v : BitVec 10) (d : Frame) (s : State) : (freeChange v d s).params = s.params := (rfl)
@[simp] theorem freeChange_program (v : BitVec 10) (d : Frame) (s : State) : (freeChange v d s).program = s.program := (rfl)
@[simp] theorem freeChange_schedule (v : BitVec 10) (d : Frame) (s : State) : (freeChange v d s).schedule = s.schedule := (rfl)

/-! ### writeFields: an `atomic` block changes only the channel and the history -/

@[simp] theorem writeFields_tb (ws : List FieldWrite) (s : State) : (writeFields ws s).tb = s.tb := by
  induction ws generalizing s with
  | nil => rfl
  | cons w ws ih => exact (ih (writeField s w)).trans (writeField_tb w s)

@[simp] theorem writeFields_ci (ws : List FieldWrite) (s : State) : (writeFields ws s).ci = s.ci := by
  induction ws generalizing s with
  | nil => rfl
  | cons w ws ih => exact (ih (writeField s w)).trans (writeField_ci w s)

@[simp] theorem writeFields_plat (ws : List FieldWrite) (s : State) : (writeFields ws s).plat = s.plat := by
  induction ws generalizing s with
  | nil => rfl
  | cons w ws ih => exact (ih (writeField s w)).trans (writeField_plat w s)

@[simp] theorem writeFields_phase (ws : List FieldWrite) (s : State) : (writeFields ws s).phase = s.phase := by
  induction ws generalizing s with
  | nil => rfl
  | cons w ws ih => exact (ih (writeField s w)).trans (writeField_phase w s)

@[simp] theorem writeFields_hpc (ws : List FieldWrite) (s : State) : (writeFields ws s).hpc = s.hpc := by
  induction ws generalizing s with
  | nil => rfl
  | cons w ws ih => exact (ih (writeField s w)).trans (writeField_hpc w s)

@[simp] theorem writeFields_fault (ws : List FieldWrite) (s : State) : (writeFields ws s).fault = s.fault := by
  induction ws generalizing s with
  | nil => rfl
  | cons w ws ih => exact (ih (writeField s w)).trans (writeField_fault w s)

@[simp] theorem writeFields_mem (ws : List FieldWrite) (s : State) : (writeFields ws s).mem = s.mem := by
  induction ws generalizing s with
  | nil => rfl
  | cons w ws ih => exact (ih (writeField s w)).trans (writeField_mem w s)

@[simp] theorem writeFields_params (ws : List FieldWrite) (s : State) : (writeFields ws s).params = s.params := by
  induction ws generalizing s with
  | nil => rfl
  | cons w ws ih => exact (ih (writeField s w)).trans (writeField_params w s)

@[simp] theorem writeFields_program (ws : List FieldWrite) (s : State) : (writeFields ws s).program = s.program := by
  induction ws generalizing s with
  | nil => rfl
  | cons w ws ih => exact (ih (writeField s w)).trans (writeField_program w s)

@[simp] theorem writeFields_schedule (ws : List FieldWrite) (s : State) : (writeFields ws s).schedule = s.schedule := by
  induction ws generalizing s with
  | nil => rfl
  | cons w ws ih => exact (ih (writeField s w)).trans (writeField_schedule w s)

/-- The channel after an `atomic` block: its field writes in order where the channel is clocked, else unchanged. -/
theorem writeFields_chan (ws : List FieldWrite) (s : State) :
    (writeFields ws s).chan = if s.plat.clkEn then ws.foldl (fun c w => w.apply c) s.chan else s.chan := by
  induction ws generalizing s with
  | nil => simp [writeFields]
  | cons w ws ih =>
    have h := ih (writeField s w)
    simp only [writeField_chan, writeField_plat] at h
    rw [show writeFields (w :: ws) s = writeFields ws (writeField s w) from rfl, h]
    by_cases hc : s.plat.clkEn = true <;> simp [hc]

/-- The events of an `atomic` block on a channel that is clocked or not: one RegWr for each statement, of the value the
register has after it. -/
def fieldEvents (clk : Bool) : List FieldWrite → Channel → List Event
  | [], _ => []
  | w :: ws, c =>
    .regWr w.reg ((if clk then w.apply c else c).value w.reg) :: fieldEvents clk ws (if clk then w.apply c else c)

/-- The history an `atomic` block leaves, in program order. -/
theorem writeFields_events (ws : List FieldWrite) (s : State) :
    (writeFields ws s).hist = s.hist ++ fieldEvents s.plat.clkEn ws s.chan := by
  induction ws generalizing s with
  | nil => simp [writeFields, fieldEvents]
  | cons w ws ih =>
    rw [show writeFields (w :: ws) s = writeFields ws (writeField s w) from rfl, ih]
    simp [fieldEvents]

/-- No field write goes to the data register. -/
theorem FieldWrite.reg_ne_dr (w : FieldWrite) : w.reg ≠ .dr := by
  cases w <;> simp [FieldWrite.reg]

/-- The history an `atomic` block leaves extends the one it found by one register write for each statement. -/
theorem writeFields_hist (ws : List FieldWrite) (s : State) :
    ∃ l, l.length = ws.length ∧ (∀ e ∈ l, ∃ (w : FieldWrite) (v : Word), e = .regWr w.reg v) ∧ (writeFields ws s).hist = s.hist ++ l := by
  induction ws generalizing s with
  | nil => exact ⟨[], rfl, by simp, by simp [writeFields]⟩
  | cons w ws ih =>
    obtain ⟨l, hl, he, h⟩ := ih (writeField s w)
    refine ⟨.regWr w.reg ((if s.plat.clkEn then w.apply s.chan else s.chan).value w.reg) :: l, by simp [hl], ?_, ?_⟩
    · intro e hm
      rcases List.mem_cons.1 hm with rfl | hm
      · exact ⟨_, _, rfl⟩
      · exact he e hm
    · rw [show writeFields (w :: ws) s = writeFields ws (writeField s w) from rfl, h]
      simp

end Sys2Proof.Machine
end

