-- ==== Sys2Proof/Laws/Memory.lean ====
section
/-! SUPPORT. Caller memory: a store changes one byte and keeps the canonical form. -/

namespace Sys2Proof.Machine

open Sys2Proof

/-- A byte below every listed address reads as an unlisted one. -/
theorem Memory.get_of_wfFrom (m : Memory) (lo a : Nat) (h : Memory.wfFrom lo m = true) (ha : a < lo) :
    Memory.get m a = Memory.unlisted := by
  induction m generalizing lo with
  | nil => rfl
  | cons c rest ih =>
    obtain ⟨k, v⟩ := c
    simp only [Memory.wfFrom, Bool.and_eq_true, decide_eq_true_eq] at h
    rw [Memory.get, if_neg (by omega)]
    exact ih (k + 1) h.2 (by omega)

/-- A store changes no byte but its own, in canonical form or not. -/
theorem Memory.get_set_ne (m : Memory) (a b : Nat) (v : Byte) (h : b ≠ a) :
    Memory.get (Memory.set m a v) b = Memory.get m b := by
  induction m with
  | nil => unfold Memory.set; split <;> simp [Memory.get, h.symm]
  | cons c rest ih =>
    obtain ⟨k, w⟩ := c
    unfold Memory.set
    split
    · split <;> simp [Memory.get, h.symm]
    · split
      · next hk => subst hk; split <;> simp [Memory.get, h.symm]
      · simp only [Memory.get, ih]

/-- In canonical memory, the byte just stored reads back and every other byte is as it was. -/
theorem Memory.get_set (m : Memory) (lo a b : Nat) (v : Byte) (h : Memory.wfFrom lo m = true) :
    Memory.get (Memory.set m a v) b = if b = a then v else Memory.get m b := by
  induction m generalizing lo with
  | nil =>
    by_cases hv : v = Memory.unlisted
    · simp [Memory.set, hv, Memory.get]
    · by_cases hb : b = a
      · simp [Memory.set, hv, Memory.get, hb]
      · simp [Memory.set, hv, Memory.get, hb, Ne.symm hb]
  | cons c rest ih =>
    obtain ⟨k, w⟩ := c
    simp only [Memory.wfFrom, Bool.and_eq_true, decide_eq_true_eq] at h
    have hrest := Memory.get_of_wfFrom rest (k + 1)
    rcases Nat.lt_trichotomy a k with hak | hak | hak
    · by_cases hv : v = Memory.unlisted
      · rw [Memory.set, if_pos hak, if_pos hv]
        by_cases hb : b = a
        · rw [if_pos hb, hb, Memory.get, if_neg (by omega), hrest a h.2 (by omega), hv]
        · rw [if_neg hb]
      · rw [Memory.set, if_pos hak, if_neg hv, Memory.get]
        by_cases hb : b = a
        · rw [if_pos hb.symm, if_pos hb]
        · rw [if_neg (Ne.symm hb), if_neg hb]
    · subst hak
      by_cases hv : v = Memory.unlisted
      · rw [Memory.set, if_neg (by omega), if_pos rfl, if_pos hv]
        by_cases hb : b = a
        · rw [if_pos hb, hb, hrest a h.2 (by omega), hv]
        · rw [if_neg hb, Memory.get, if_neg (Ne.symm hb)]
      · rw [Memory.set, if_neg (by omega), if_pos rfl, if_neg hv, Memory.get]
        by_cases hb : b = a
        · rw [if_pos hb.symm, if_pos hb]
        · rw [if_neg (Ne.symm hb), if_neg hb, Memory.get, if_neg (Ne.symm hb)]
    · rw [Memory.set, if_neg (by omega), if_neg (by omega), Memory.get, Memory.get]
      by_cases hb : k = b
      · rw [if_pos hb, if_neg (by omega), if_pos hb]
      · rw [if_neg hb, if_neg hb, ih (k + 1) h.2]

/-- A store keeps the canonical form, from any lower bound that the stored address meets. -/
theorem Memory.set_wfFrom (m : Memory) (lo a : Nat) (v : Byte) (h : Memory.wfFrom lo m = true) (ha : lo ≤ a)
    (ha2 : a < 2 ^ 32) : Memory.wfFrom lo (Memory.set m a v) = true := by
  induction m generalizing lo with
  | nil =>
    by_cases hv : v = Memory.unlisted
    · simp [Memory.set, hv, Memory.wfFrom]
    · simp only [Memory.set, if_neg hv, Memory.wfFrom, Bool.and_eq_true, decide_eq_true_eq]
      exact ⟨⟨⟨ha, ha2⟩, hv⟩, trivial⟩
  | cons c rest ih =>
    obtain ⟨k, w⟩ := c
    have h0 := h
    simp only [Memory.wfFrom, Bool.and_eq_true, decide_eq_true_eq] at h
    have mono : ∀ lo', lo' ≤ k + 1 → Memory.wfFrom lo' rest = true := by
      intro lo' hlo
      cases rest with
      | nil => rfl
      | cons d rest' =>
        obtain ⟨k', w'⟩ := d
        have h2 := h.2
        simp only [Memory.wfFrom, Bool.and_eq_true, decide_eq_true_eq] at h2 ⊢
        exact ⟨⟨⟨by omega, h2.1.1.2⟩, h2.1.2⟩, h2.2⟩
    rcases Nat.lt_trichotomy a k with hak | hak | hak
    · by_cases hv : v = Memory.unlisted
      · rw [Memory.set, if_pos hak, if_pos hv]; exact h0
      · rw [Memory.set, if_pos hak, if_neg hv]
        simp only [Memory.wfFrom, Bool.and_eq_true, decide_eq_true_eq]
        exact ⟨⟨⟨ha, ha2⟩, hv⟩, ⟨⟨by omega, h.1.1.2⟩, h.1.2⟩, h.2⟩
    · subst hak
      by_cases hv : v = Memory.unlisted
      · rw [Memory.set, if_neg (by omega), if_pos rfl, if_pos hv]; exact mono lo (by omega)
      · rw [Memory.set, if_neg (by omega), if_pos rfl, if_neg hv]
        simp only [Memory.wfFrom, Bool.and_eq_true, decide_eq_true_eq]
        exact ⟨⟨⟨ha, ha2⟩, hv⟩, h.2⟩
    · rw [Memory.set, if_neg (by omega), if_neg (by omega)]
      simp only [Memory.wfFrom, Bool.and_eq_true, decide_eq_true_eq]
      exact ⟨⟨⟨h.1.1.1, h.1.1.2⟩, h.1.2⟩, ih (k + 1) h.2 (by omega)⟩

/-- A store to a 32-bit address keeps the canonical form. -/
theorem Memory.set_wf (m : Memory) (a : Word) (v : Byte) (h : m.wf = true) : (Memory.set m a.toNat v).wf = true :=
  Memory.set_wfFrom m 0 a.toNat v h (Nat.zero_le _) a.isLt

end Sys2Proof.Machine
end

