-- ==== Sys2Proof/Laws/Exec.lean ====
section
/-! SUPPORT. What one step of FG can do, said once: `FgEffect` lists every way in which a running command's step can
change the state, `exec_effect` says that every step is one of them, and `exec_answers` that a command at one of its own
positions always has a next state. Claims about all commands go through these two instead of unfolding the meanings. -/

namespace Sys2Proof.Machine

open Sys2Proof

/-- A field write that some command makes: it writes only bits the tables of R32 to R35 name as written. -/
def FieldWrite.named : FieldWrite → Prop
  | .brr v => v &&& ~~~(implementedMask .brr) = 0
  | .cr1 n _ => n ∈ [2, 3, 5, 6, 7, 9, 10, 12, 13, 15]
  | .cr2Stop _ => True
  | .cr3 n _ => n ∈ [0, 8, 9]

/-- The accesses one FG step can make (R6), each with the instructions that make it. -/
inductive Access (i : Instr) (r : Running) (s : State) : State → Prop where
  | readCr1 : Access i r s (regRead .cr1 s)
  | readStatus : Access i r s (regRead .sr s)
  | readData : Access i r s (regRead .dr s)
  | writeData (v : Word)
      (hi : r.mpc = .testFlag .txe ∧ bit r.locals.status Sr.txe = true ∨ r.mpc = .useByte ∧ ∃ a n w, i = .transmit a n w) :
      Access i r s (regWrite .dr v s)
  | readTick : Access i r s (tickRead s)
  | readByte (a : Word)
      (hi : r.mpc = .testFlag .txe ∧ bit r.locals.status Sr.txe = true ∨ ∃ a, i = .sendString a) :
      Access i r s (record (.memRd a (s.byteAt a)) s)
  | writeByte (a n w : Word) (v : Byte) (hi : i = .receive a n w) (hm : r.mpc = .useData) :
      Access i r s
        (record (.memWr (byteAddress a r.locals.i) v)
          { s with mem := Memory.set s.mem (byteAddress a r.locals.i).toNat v })
  | startTicks (hi : i = .tbInit) : Access i r s (startTickSource s)
  | initialise (ws : List FieldWrite) (hw : ∀ w ∈ ws, w.named) (hi : configures i = true)
      (hue : ∀ c, bit (ws.foldl (fun c (w : FieldWrite) => w.apply c) c).cr1 Cr1.ue = true) :
      Access i r s (writeFields ws (enableClockAndPins s))
  | enableBits (mask : Word) (hi : configures i = true) : Access i r s (armLine (writeFields (enableBitWrites mask true) s))
  | disableBits (mask : Word) (hi : configures i = true) : Access i r s (writeFields (enableBitWrites mask false) s)
  | updateBaud (baud : Word) (hi : configures i = true) :
      Access i r s
        (writeFields (updateBaudWrites s.params.clockHz baud (readValue .cr1 s)) (regRead .cr1 s))

/-- The outcomes with which a command finishes outside RECEIVE's decoded errors (the table of R84). -/
def outcomes : Instr → List ErrorOutcome
  | .initConfig _ _ _ => [.ok, .busy]
  | .transmit _ _ _ => [.ok, .timeout, .busy]
  | .sendByte _ => [.ok, .timeout, .busy]
  | .receive _ _ _ => [.ok, .timeout, .busy]
  | .clearErrors => [.ok]
  | .updateBaudRate _ => [.ok, .busy]
  | _ => []

/-- The effects one FG step of instruction `i` can have. -/
inductive FgEffect (i : Instr) (r : Running) (s : State) : State → Prop where
  /-- No step: the caller memory refuses the access (R61). -/
  | stuck : FgEffect i r s s
  /-- A fault is marked, after assignments that only SEND_STRING makes to `i` (R47). -/
  | marked (f : FaultMark) (r' : Running)
      (hc : r'.op = r.op ∧ r'.a0 = r.a0 ∧ r'.a1 = r.a1 ∧ r'.a2 = r.a2) (hm : r'.mpc = r.mpc)
      (he : r'.locals.e = r.locals.e) (hs : r'.locals.status = r.locals.status)
      (hl : r'.locals.i = r.locals.i ∨ ∃ a, i = .sendString a) : FgEffect i r s (setRunning r' (raiseFault f s))
  | finished (hi : writesR0 i = false ∧ writesR1 i = false) : FgEffect i r s (finish r s)
  | finishedWith (o : ErrorOutcome) (ho : (outcomes i).contains o = true) : FgEffect i r s (finishWith o r s)
  /-- RECEIVE reports the error it has decoded. -/
  | reported (hi : ∃ a n w, i = .receive a n w) (hm : r.mpc = .useData) (he : r.locals.e ≠ 0) :
      FgEffect i r s (finishCode r.locals.e r s)
  | finishedValue (v : Word) (hi : writesR1 i = true) : FgEffect i r s (finishValue v r s)
  /-- One access, after which the same command stands at another of its positions. -/
  | moved (r' : Running) (u : State) (hu : Access i r s u)
      (hc : r'.op = r.op ∧ r'.a0 = r.a0 ∧ r'.a1 = r.a1 ∧ r'.a2 = r.a2) (hm : r'.mpc ∈ positions i)
      (he : r'.locals.e = r.locals.e ∨ r'.locals.e = decodedCode (decodeErrors r.locals.status))
      (hp : ∀ k, r'.mpc = .testFlag k → u = regRead .sr s ∧ r'.locals.status = readValue .sr s)
      (hb : r'.mpc = .useByte → u.chan = s.chan ∧
        (r.mpc = .testFlag .txe ∧ bit r.locals.status Sr.txe = true ∨ ∃ a, i = .sendString a)) :
      FgEffect i r s (setRunning r' u)

/-! ### One lemma for each shared step -/

section
variable {i : Instr} {r r' : Running} {s : State}

theorem stepRaise_effect (f : FaultMark) : FgEffect i r s (stepRaise f r s) :=
  .marked f r ⟨rfl, rfl, rfl, rfl⟩ rfl rfl rfl (.inl rfl)

theorem stepReadCr1_effect (h : .testDirection ∈ positions i) : FgEffect i r s (stepReadCr1 r s) :=
  .moved _ _ .readCr1 ⟨rfl, rfl, rfl, rfl⟩ h (.inl rfl) (fun _ hk => by cases hk) (fun hk => by cases hk)

theorem stepReadStatus_effect (m : Mpc) (hm : m ≠ .useByte)
    (hc : r'.op = r.op ∧ r'.a0 = r.a0 ∧ r'.a1 = r.a1 ∧ r'.a2 = r.a2) (he : r'.locals.e = r.locals.e)
    (h : m ∈ positions i) : FgEffect i r s (stepReadStatus m r' s) :=
  .moved _ _ .readStatus hc h (.inl he) (fun _ _ => ⟨rfl, rfl⟩) (fun hk => absurd hk hm)

theorem stepReadData_effect (hc : r'.op = r.op ∧ r'.a0 = r.a0 ∧ r'.a1 = r.a1 ∧ r'.a2 = r.a2)
    (he : r'.locals.e = r.locals.e ∨ r'.locals.e = decodedCode (decodeErrors r.locals.status)) (h : .useData ∈ positions i) :
    FgEffect i r s (stepReadData r' s) :=
  .moved _ _ .readData hc h he (fun _ hk => by cases hk) (fun hk => by cases hk)

theorem stepWriteData_effect (v : Word)
    (hi : r.mpc = .testFlag .txe ∧ bit r.locals.status Sr.txe = true ∨ r.mpc = .useByte ∧ ∃ a n w, i = .transmit a n w)
    (h : .endFrame ∈ positions i) : FgEffect i r s (stepWriteData v r s) :=
  .moved _ _ (.writeData v hi) ⟨rfl, rfl, rfl, rfl⟩ h (.inl rfl) (fun _ hk => by cases hk) (fun hk => by cases hk)

theorem stepReadStart_effect (h : .enterLoop ∈ positions i) : FgEffect i r s (stepReadStart r s) :=
  .moved _ _ .readTick ⟨rfl, rfl, rfl, rfl⟩ h (.inl rfl) (fun _ hk => by cases hk) (fun hk => by cases hk)

theorem stepReadTime_effect (m : Mpc) (hm : ∀ k, m ≠ .testFlag k) (hb : m ≠ .useByte) (h : m ∈ positions i) :
    FgEffect i r s (stepReadTime m r s) :=
  .moved _ _ .readTick ⟨rfl, rfl, rfl, rfl⟩ h (.inl rfl) (fun k hk => absurd hk (hm k))
    (fun hk => absurd hk hb)

theorem stepReadByte_effect (a : Word) (hc : r'.op = r.op ∧ r'.a0 = r.a0 ∧ r'.a1 = r.a1 ∧ r'.a2 = r.a2)
    (he : r'.locals.e = r.locals.e)
    (hi : r.mpc = .testFlag .txe ∧ bit r.locals.status Sr.txe = true ∨ ∃ a, i = .sendString a)
    (h : .useByte ∈ positions i) : FgEffect i r s (stepReadByte a r' s) := by
  unfold stepReadByte
  split
  · exact .moved _ _ (.readByte a hi) hc h (.inl he) (fun _ hk => by cases hk) (fun _ => ⟨rfl, hi⟩)
  · exact .stuck

theorem stepWriteByte_effect (a n w : Word) (v : Byte) (hi : i = .receive a n w) (hm : r.mpc = .useData) :
    FgEffect i r s (stepWriteByte (byteAddress a r.locals.i) v r s) := by
  unfold stepWriteByte
  split
  · exact .moved _ _ (.writeByte a n w v hi hm) ⟨rfl, rfl, rfl, rfl⟩ (by subst hi; simp [positions]) (.inl rfl)
      (fun _ hk => by cases hk) (fun hk => by cases hk)
  · exact .stuck

theorem waitPolled_effect (k : PollFlag) (tmo : Option Word) (ready : Running → State → State)
    (hr : bit r.locals.status (pollBit k) = true → FgEffect i r s (ready r s)) (hp : .testFlag k ∈ positions i)
    (ht : tmo ≠ none → .testTimeout k ∈ positions i) : FgEffect i r s (waitPolled k tmo ready r s) := by
  unfold waitPolled
  split
  · next h => exact hr h
  · cases tmo with
    | none => exact stepReadStatus_effect _ (by simp) ⟨rfl, rfl, rfl, rfl⟩ rfl hp
    | some w => exact stepReadTime_effect _ (fun _ => by simp) (by simp) (ht (by simp))

theorem waitTimed_effect (k : PollFlag) (tmo : Word) (out : Running → State → State)
    (ho : FgEffect i r s (out r s)) (hp : .testFlag k ∈ positions i) : FgEffect i r s (waitTimed k tmo out r s) := by
  unfold waitTimed
  split
  · exact ho
  · exact stepReadStatus_effect _ (by simp) ⟨rfl, rfl, rfl, rfl⟩ rfl hp

theorem nextByte_effect (size : Word) (more last : Running → State → State)
    (hm : ∀ r', (r'.op = r.op ∧ r'.a0 = r.a0 ∧ r'.a1 = r.a1 ∧ r'.a2 = r.a2) → r'.locals.e = r.locals.e →
      FgEffect i r s (more r' s)) (hl : FgEffect i r s (last r s)) : FgEffect i r s (nextByte size more last r s) := by
  unfold nextByte
  split
  · exact hm _ ⟨rfl, rfl, rfl, rfl⟩ rfl
  · exact hl

theorem stringByte_effect (addr : Word) (hc : r'.op = r.op ∧ r'.a0 = r.a0 ∧ r'.a1 = r.a1 ∧ r'.a2 = r.a2)
    (hm : r'.mpc = r.mpc) (he : r'.locals.e = r.locals.e) (hs : r'.locals.status = r.locals.status)
    (hi : ∃ a, i = .sendString a) (h : .useByte ∈ positions i) : FgEffect i r s (stringByte addr r' s) := by
  unfold stringByte
  split
  · exact .marked _ _ hc hm he hs (.inr hi)
  · exact stepReadByte_effect _ hc he (.inr hi) h

theorem storeOrReport_effect (a n w : Word) (hi : i = .receive a n w) (hm : r.mpc = .useData) :
    FgEffect i r s (storeOrReport a r s) := by
  unfold storeOrReport
  split
  · next he => exact .reported ⟨a, n, w, hi⟩ hm he
  · exact stepWriteByte_effect a n w _ hi hm

end

/-! ### The `atomic` blocks write only named fields -/

/-- A packed divisor has no bit above bit 15. -/
theorem packDivisor_named (d : Nat × Nat) : packDivisor d &&& ~~~(implementedMask .brr) = 0 := by
  rw [masked_zero_iff]
  intro n hn hm
  have h16 : 16 ≤ n := by
    by_contra hlt
    have : n < 16 := by omega
    revert hm
    interval_cases n <;> decide
  unfold packDivisor bit
  rw [BitVec.getLsbD_ofNat]
  simp only [Bool.and_eq_false_iff]
  right
  refine Nat.testBit_lt_two_pow (lt_of_lt_of_le (Nat.mod_lt _ (by decide)) (Nat.pow_le_pow_right (by decide) h16))

theorem initDefaultWrites_named (clk : Nat) (baud : Word) : ∀ w ∈ initDefaultWrites clk baud, w.named := by
  intro w hw
  simp only [initDefaultWrites, List.mem_cons, List.not_mem_nil, or_false] at hw
  rcases hw with rfl | rfl | rfl | rfl | rfl | rfl | rfl | rfl | rfl <;>
    first | exact packDivisor_named _ | simp [FieldWrite.named]

/-- INIT_DEFAULT ends with UE = 1, whatever the channel was. -/
theorem initDefaultWrites_enable (clk : Nat) (baud : Word) (c : Channel) :
    bit ((initDefaultWrites clk baud).foldl (fun c (w : FieldWrite) => w.apply c) c).cr1 Cr1.ue = true :=
  (bit_setBit _ 13 13 true (by decide)).trans (if_pos rfl)

/-- INIT_CONFIG ends with UE = 1, whatever the channel was. -/
theorem initConfigWrites_enable (clk : Nat) (baud cfg : Word) (c : Channel) :
    bit ((initConfigWrites clk baud cfg).foldl (fun c (w : FieldWrite) => w.apply c) c).cr1 Cr1.ue = true :=
  (bit_setBit _ 13 13 true (by decide)).trans (if_pos rfl)

theorem initConfigWrites_named (clk : Nat) (baud cfg : Word) : ∀ w ∈ initConfigWrites clk baud cfg, w.named := by
  intro w hw
  simp only [initConfigWrites, List.mem_cons, List.not_mem_nil, or_false] at hw
  rcases hw with rfl | rfl | rfl | rfl | rfl | rfl | rfl | rfl | rfl | rfl | rfl | rfl <;>
    first | exact packDivisor_named _ | simp [FieldWrite.named]

theorem updateBaudWrites_named (clk : Nat) (baud c1 : Word) : ∀ w ∈ updateBaudWrites clk baud c1, w.named := by
  intro w hw
  simp only [updateBaudWrites, List.mem_cons, List.not_mem_nil, or_false] at hw
  rcases hw with rfl | rfl | rfl <;> first | exact packDivisor_named _ | simp [FieldWrite.named]

theorem enableBitWrites_named (mask : Word) (v : Bool) : ∀ w ∈ enableBitWrites mask v, w.named := by
  intro w hw
  unfold enableBitWrites at hw
  simp only [List.mem_append] at hw
  rcases hw with ((hw | hw) | hw) | hw <;> split at hw <;>
    first
    | (simp only [List.mem_singleton] at hw; subst hw; simp [FieldWrite.named])
    | simp at hw

/-! ### Every FG step is one of the effects -/

section
variable {r : Running} {s t : State}

theorem execTbInit_effect (hr : s.phase = .running r) (h : execTbInit s = .next t) :
    FgEffect .tbInit r s t := by
  simp only [execTbInit, whileRunning, hr] at h
  (repeat' split at h) <;> cases h
  · exact .moved _ _ (.startTicks rfl) ⟨rfl, rfl, rfl, rfl⟩ (by simp [positions]) (.inl rfl)
      (fun _ hk => by cases hk) (fun hk => by cases hk)
  · exact .finished ⟨rfl, rfl⟩

theorem execTbNow_effect (hr : s.phase = .running r) (h : execTbNow s = .next t) :
    FgEffect .tbNow r s t := by
  simp only [execTbNow, whileRunning, hr] at h
  (repeat' split at h) <;> cases h
  · exact stepReadTime_effect _ (fun _ => by simp) (by simp) (by simp [positions])
  · exact .finishedValue _ rfl

theorem execTbDelay_effect (ms : Word) (hr : s.phase = .running r) (h : execTbDelay ms s = .next t) :
    FgEffect (.tbDelay ms) r s t := by
  simp only [execTbDelay, whileRunning, hr] at h
  (repeat' split at h) <;> cases h
  · exact stepReadStart_effect (by simp [positions])
  · exact stepReadTime_effect _ (fun _ => by simp) (by simp) (by simp [positions])
  · exact .finished ⟨rfl, rfl⟩
  · exact stepReadTime_effect _ (fun _ => by simp) (by simp) (by simp [positions])

theorem execInitDefault_effect (baud : Word) (hr : s.phase = .running r) (h : execInitDefault baud s = .next t) :
    FgEffect (.initDefault baud) r s t := by
  simp only [execInitDefault, whileRunning, hr] at h
  (repeat' split at h) <;> cases h
  · exact stepRaise_effect _
  · exact .moved _ _ (.initialise _ (initDefaultWrites_named _ _) rfl (initDefaultWrites_enable _ _)) ⟨rfl, rfl, rfl, rfl⟩ (by simp [positions]) (.inl rfl)
      (fun _ hk => by cases hk) (fun hk => by cases hk)
  · exact .finished ⟨rfl, rfl⟩

theorem execInitConfig_effect (present baud cfg : Word) (hr : s.phase = .running r) (h : execInitConfig present baud cfg s = .next t) :
    FgEffect (.initConfig present baud cfg) r s t := by
  simp only [execInitConfig, whileRunning, hr] at h
  (repeat' split at h) <;> cases h
  · exact .finishedWith _ rfl
  · exact .marked _ _ ⟨rfl, rfl, rfl, rfl⟩ rfl rfl rfl (.inl rfl)
  · exact .marked _ _ ⟨rfl, rfl, rfl, rfl⟩ rfl rfl rfl (.inl rfl)
  · exact .moved _ _ (.initialise _ (initConfigWrites_named _ _ _) rfl (initConfigWrites_enable _ _ _)) ⟨rfl, rfl, rfl, rfl⟩ (by simp [positions]) (.inl rfl)
      (fun _ hk => by cases hk) (fun hk => by cases hk)
  · exact .finishedWith _ rfl

theorem execTransmit_effect (addr size timeout : Word) (hr : s.phase = .running r) (h : execTransmit addr size timeout s = .next t) :
    FgEffect (.transmit addr size timeout) r s t := by
  simp only [execTransmit, whileRunning, hr] at h
  (repeat' split at h) <;> cases h
  · exact .finishedWith _ rfl
  · exact stepReadCr1_effect (by simp [positions])
  · exact .finishedWith _ rfl
  · exact stepRaise_effect _
  · exact stepReadStart_effect (by simp [positions])
  · exact stepReadStatus_effect _ (by simp) ⟨rfl, rfl, rfl, rfl⟩ rfl (by simp [positions])
  · next hm =>
    exact waitPolled_effect _ _ _
      (fun h => stepReadByte_effect _ ⟨rfl, rfl, rfl, rfl⟩ rfl (.inl ⟨hm, h⟩) (by simp [positions])) (by simp [positions])
      (by simp [positions])
  · exact waitTimed_effect _ _ _ (.finishedWith _ rfl) (by simp [positions])
  · next hm => exact stepWriteData_effect _ (.inr ⟨hm, _, _, _, rfl⟩) (by simp [positions])
  · exact nextByte_effect _ _ _ (fun _ hc he => stepReadStatus_effect _ (by simp) hc he (by simp [positions])) (stepReadStatus_effect _ (by simp) ⟨rfl, rfl, rfl, rfl⟩ rfl (by simp [positions]))
  · exact waitPolled_effect _ _ _ (fun _ => .finishedWith _ rfl) (by simp [positions]) (by simp [positions])
  · exact waitTimed_effect _ _ _ (.finishedWith _ rfl) (by simp [positions])

theorem execSendByte_effect (byte : Word) (hr : s.phase = .running r) (h : execSendByte byte s = .next t) :
    FgEffect (.sendByte byte) r s t := by
  simp only [execSendByte, whileRunning, hr] at h
  (repeat' split at h) <;> cases h
  · exact stepRaise_effect _
  · exact stepReadCr1_effect (by simp [positions])
  · exact .finishedWith _ rfl
  · exact stepReadStart_effect (by simp [positions])
  · exact stepReadStatus_effect _ (by simp) ⟨rfl, rfl, rfl, rfl⟩ rfl (by simp [positions])
  · next hm =>
    exact waitPolled_effect _ _ _ (fun h => stepWriteData_effect _ (.inl ⟨hm, h⟩) (by simp [positions]))
      (by simp [positions]) (by simp [positions])
  · exact waitTimed_effect _ _ _ (.finishedWith _ rfl) (by simp [positions])
  · exact .finishedWith _ rfl

theorem execSendString_effect (addr : Word) (hr : s.phase = .running r) (h : execSendString addr s = .next t) :
    FgEffect (.sendString addr) r s t := by
  simp only [execSendString, whileRunning, hr] at h
  (repeat' split at h) <;> cases h
  · exact stepRaise_effect _
  · exact stringByte_effect _ ⟨rfl, rfl, rfl, rfl⟩ rfl rfl rfl ⟨_, rfl⟩ (by simp [positions])
  · exact stepReadStatus_effect _ (by simp) ⟨rfl, rfl, rfl, rfl⟩ rfl (by simp [positions])
  · exact stepReadStatus_effect _ (by simp) ⟨rfl, rfl, rfl, rfl⟩ rfl (by simp [positions])
  · next hm =>
    exact waitPolled_effect _ _ _ (fun h => stepWriteData_effect _ (.inl ⟨hm, h⟩) (by simp [positions]))
      (by simp [positions]) (by simp [positions])
  · exact stringByte_effect _ ⟨rfl, rfl, rfl, rfl⟩ rfl rfl rfl ⟨_, rfl⟩ (by simp [positions])
  · exact waitPolled_effect _ _ _ (fun _ => .finished ⟨rfl, rfl⟩) (by simp [positions]) (by simp [positions])

theorem execReceive_effect (addr size timeout : Word) (hr : s.phase = .running r) (h : execReceive addr size timeout s = .next t) :
    FgEffect (.receive addr size timeout) r s t := by
  simp only [execReceive, whileRunning, hr] at h
  (repeat' split at h) <;> cases h
  · exact .finishedWith _ rfl
  · exact stepReadCr1_effect (by simp [positions])
  · exact .finishedWith _ rfl
  · exact stepRaise_effect _
  · exact stepReadStart_effect (by simp [positions])
  · exact stepReadStatus_effect _ (by simp) ⟨rfl, rfl, rfl, rfl⟩ rfl (by simp [positions])
  · exact waitPolled_effect _ _ _ (fun _ => stepReadStatus_effect _ (by simp) ⟨rfl, rfl, rfl, rfl⟩ rfl (by simp [positions])) (by simp [positions]) (by simp [positions])
  · exact waitTimed_effect _ _ _ (.finishedWith _ rfl) (by simp [positions])
  · exact stepReadData_effect ⟨rfl, rfl, rfl, rfl⟩ (by simp) (by simp [positions])
  · next hm => exact storeOrReport_effect _ _ _ rfl hm
  · exact nextByte_effect _ _ _ (fun _ hc he => stepReadStatus_effect _ (by simp) hc he (by simp [positions])) (.finishedWith _ rfl)

theorem execReceiveByte_effect (hr : s.phase = .running r) (h : execReceiveByte s = .next t) :
    FgEffect .receiveByte r s t := by
  simp only [execReceiveByte, whileRunning, hr] at h
  (repeat' split at h) <;> cases h
  · exact stepReadStart_effect (by simp [positions])
  · exact stepReadStatus_effect _ (by simp) ⟨rfl, rfl, rfl, rfl⟩ rfl (by simp [positions])
  · exact waitPolled_effect _ _ _ (fun _ => stepReadData_effect ⟨rfl, rfl, rfl, rfl⟩ (by simp) (by simp [positions])) (by simp [positions]) (by simp [positions])
  · exact waitTimed_effect _ _ _ (.finishedValue _ rfl) (by simp [positions])
  · exact .finishedValue _ rfl

theorem execIsDataAvailable_effect (hr : s.phase = .running r) (h : execIsDataAvailable s = .next t) :
    FgEffect .isDataAvailable r s t := by
  simp only [execIsDataAvailable, whileRunning, hr] at h
  (repeat' split at h) <;> cases h
  · exact stepReadStatus_effect _ (by simp) ⟨rfl, rfl, rfl, rfl⟩ rfl (by simp [positions])
  · exact .finishedValue _ rfl

theorem execClearErrors_effect (hr : s.phase = .running r) (h : execClearErrors s = .next t) :
    FgEffect .clearErrors r s t := by
  simp only [execClearErrors, whileRunning, hr] at h
  (repeat' split at h) <;> cases h
  · exact stepReadStatus_effect _ (by simp) ⟨rfl, rfl, rfl, rfl⟩ rfl (by simp [positions])
  · exact stepReadData_effect ⟨rfl, rfl, rfl, rfl⟩ (by simp) (by simp [positions])
  · exact .finishedWith _ rfl
  · exact .finishedWith _ rfl

theorem execEnableInterrupts_effect (mask : Word) (hr : s.phase = .running r) (h : execEnableInterrupts mask s = .next t) :
    FgEffect (.enableInterrupts mask) r s t := by
  simp only [execEnableInterrupts, whileRunning, hr] at h
  (repeat' split at h) <;> cases h
  · exact stepRaise_effect _
  · exact .moved _ _ (.enableBits _ rfl) ⟨rfl, rfl, rfl, rfl⟩ (by simp [positions]) (.inl rfl)
      (fun _ hk => by cases hk) (fun hk => by cases hk)
  · exact .finished ⟨rfl, rfl⟩

theorem execDisableInterrupts_effect (mask : Word) (hr : s.phase = .running r) (h : execDisableInterrupts mask s = .next t) :
    FgEffect (.disableInterrupts mask) r s t := by
  simp only [execDisableInterrupts, whileRunning, hr] at h
  (repeat' split at h) <;> cases h
  · exact stepRaise_effect _
  · exact .moved _ _ (.disableBits _ rfl) ⟨rfl, rfl, rfl, rfl⟩ (by simp [positions]) (.inl rfl)
      (fun _ hk => by cases hk) (fun hk => by cases hk)
  · exact .finished ⟨rfl, rfl⟩

theorem execUpdateBaudRate_effect (baud : Word) (hr : s.phase = .running r) (h : execUpdateBaudRate baud s = .next t) :
    FgEffect (.updateBaudRate baud) r s t := by
  simp only [execUpdateBaudRate, whileRunning, hr] at h
  (repeat' split at h) <;> cases h
  · exact .finishedWith _ rfl
  · exact .moved _ _ (.updateBaud _ rfl) ⟨rfl, rfl, rfl, rfl⟩ (by simp [positions]) (.inl rfl)
      (fun _ hk => by cases hk) (fun hk => by cases hk)
  · exact .finishedWith _ rfl

end

/-- A host command's step from a Running state is one of the effects of `FgEffect`. -/
theorem exec_effect {i : Instr} {r : Running} {s t : State} (hi : i ≠ .tbTick) (hr : s.phase = .running r)
    (h : exec i s = .next t) : FgEffect i r s t := by
  cases i with
  | tbTick => exact absurd rfl hi
  | tbInit => exact execTbInit_effect hr h
  | tbNow => exact execTbNow_effect hr h
  | tbDelay ms => exact execTbDelay_effect _ hr h
  | initDefault baud => exact execInitDefault_effect _ hr h
  | initConfig present baud cfg => exact execInitConfig_effect _ _ _ hr h
  | transmit addr size timeout => exact execTransmit_effect _ _ _ hr h
  | sendByte byte => exact execSendByte_effect _ hr h
  | sendString addr => exact execSendString_effect _ hr h
  | receive addr size timeout => exact execReceive_effect _ _ _ hr h
  | receiveByte => exact execReceiveByte_effect hr h
  | isDataAvailable => exact execIsDataAvailable_effect hr h
  | clearErrors => exact execClearErrors_effect hr h
  | enableInterrupts mask => exact execEnableInterrupts_effect _ hr h
  | disableInterrupts mask => exact execDisableInterrupts_effect _ hr h
  | updateBaudRate baud => exact execUpdateBaudRate_effect _ hr h

/-- A command that finishes with an outcome is one of those that write R0. -/
theorem writesR0_of_outcome {i : Instr} {o : ErrorOutcome} (h : (outcomes i).contains o = true) : writesR0 i = true := by
  cases i <;> first | rfl | cases h

/-- While FG is Idle no host command has a step. -/
theorem exec_idle {i : Instr} {s : State} (hi : i ≠ .tbTick) (hs : s.phase = .idle) : exec i s = .refused .notRunning := by
  cases i <;> first
    | exact absurd rfl hi
    | simp only [exec, execTbInit, execTbNow, execTbDelay, execInitDefault, execInitConfig, execTransmit, execSendByte,
        execSendString, execReceive, execReceiveByte, execIsDataAvailable, execClearErrors, execEnableInterrupts,
        execDisableInterrupts, execUpdateBaudRate, whileRunning, hs]

/-- So a host command that has a next state is running. -/
theorem exec_running {i : Instr} {s t : State} (hi : i ≠ .tbTick) (h : exec i s = .next t) :
    ∃ r, s.phase = .running r := by
  cases hs : s.phase with
  | idle => rw [exec_idle hi hs] at h; cases h
  | running r => exact ⟨r, rfl⟩

/-- At each of its own positions a host command has a next state. -/
theorem exec_answers {i : Instr} {r : Running} {s : State} (hr : s.phase = .running r) (hm : r.mpc ∈ positions i) :
    ∃ t, exec i s = .next t := by
  cases i <;>
    simp only [exec, execTbInit, execTbNow, execTbDelay, execInitDefault, execInitConfig, execTransmit, execSendByte,
      execSendString, execReceive, execReceiveByte, execIsDataAvailable, execClearErrors, execEnableInterrupts,
      execDisableInterrupts, execUpdateBaudRate, whileRunning, hr] <;>
    generalize r.mpc = m at hm ⊢ <;> fin_cases hm <;> dsimp only <;> (repeat' split) <;> exact ⟨_, rfl⟩

end Sys2Proof.Machine
end

