-- ==== Sys2Proof/Laws/PerInstr.lean ====
section
/-! SUPPORT. Statements made for every instruction as syntax, one lemma for each constructor of `Instr`. -/

namespace Sys2Proof.Laws.Roundtrip

open Sys2Proof

/-- The decoder over the whole opcode table reads an instruction's assembled form as that instruction (R81, R82, R89). -/
def Statement (i : Instr) : Prop := decodeTable (encode i) = .instr i

theorem tbInit : Statement .tbInit := Machine.decodeTable_word _ _ _ _ _ rfl
theorem tbNow : Statement .tbNow := Machine.decodeTable_word _ _ _ _ _ rfl
theorem tbDelay (ms : Word) : Statement (.tbDelay ms) := Machine.decodeTable_word _ _ _ _ _ rfl
theorem tbTick : Statement .tbTick := Machine.decodeTable_word _ _ _ _ _ rfl
theorem initDefault (baud : Word) : Statement (.initDefault baud) := Machine.decodeTable_word _ _ _ _ _ rfl
theorem initConfig (present baud cfg : Word) : Statement (.initConfig present baud cfg) := Machine.decodeTable_word _ _ _ _ _ rfl
theorem transmit (addr size timeout : Word) : Statement (.transmit addr size timeout) := Machine.decodeTable_word _ _ _ _ _ rfl
theorem sendByte (byte : Word) : Statement (.sendByte byte) := Machine.decodeTable_word _ _ _ _ _ rfl
theorem sendString (addr : Word) : Statement (.sendString addr) := Machine.decodeTable_word _ _ _ _ _ rfl
theorem receive (addr size timeout : Word) : Statement (.receive addr size timeout) := Machine.decodeTable_word _ _ _ _ _ rfl
theorem receiveByte : Statement .receiveByte := Machine.decodeTable_word _ _ _ _ _ rfl
theorem isDataAvailable : Statement .isDataAvailable := Machine.decodeTable_word _ _ _ _ _ rfl
theorem clearErrors : Statement .clearErrors := Machine.decodeTable_word _ _ _ _ _ rfl
theorem enableInterrupts (mask : Word) : Statement (.enableInterrupts mask) := Machine.decodeTable_word _ _ _ _ _ rfl
theorem disableInterrupts (mask : Word) : Statement (.disableInterrupts mask) := Machine.decodeTable_word _ _ _ _ _ rfl
theorem updateBaudRate (baud : Word) : Statement (.updateBaudRate baud) := Machine.decodeTable_word _ _ _ _ _ rfl

end Sys2Proof.Laws.Roundtrip
end

