-- ==== Sys2Proof/Laws/Step.lean ====
section
/-! SUPPORT. What one step of the machine can do, said once: `StepEffect` lists every case of `step`, and `step_effect`
says that every step is one of them. -/

namespace Sys2Proof.Machine

open Sys2Proof

/-- The ways in which one step changes the state. -/
inductive StepEffect (s : State) : State → Prop where
  /-- A move that is not enabled, or a host with no command left: only the schedule advances. -/
  | nothing : StepEffect s (takeMove s)
  | ticked (hm : nextMove s = .tick) (he : s.tb.tickEn = true) : StepEffect s (tickCounter (takeMove s))
  | line (e : LineEvent) (hm : nextMove s = .line e) (he : lineEnabled e s = true) :
      StepEffect s (lineEffect e (takeMove s))
  | issued (c : HostCommand) (hm : nextMove s = .core) (hp : s.phase = .idle) (hc : s.program[s.hpc]? = some c) :
      StepEffect s (issue c (takeMove s))
  | badCommand (r : Running) (hm : nextMove s = .core) (hr : s.phase = .running r)
      (hd : ∃ why, decodeCommand (runningCommand r s) = .rejected why) :
      StepEffect s (raiseFault .badCommand (takeMove s))
  | command (r : Running) (i : Instr) (t : State) (hm : nextMove s = .core) (hr : s.runsInstr r i)
      (he : exec i (takeMove s) = .next t) : StepEffect s t

/-- A decoded host command is well-formed, so it is not the tick event. -/
theorem decodeCommand_wf {c : HostCommand} {i : Instr} (h : decodeCommand c = .instr i) : i.wf = true := by
  unfold decodeCommand at h
  split at h
  · next j _ =>
    by_cases hw : j.wf = true
    · rw [if_pos hw] at h; cases h; exact hw
    · rw [if_neg hw] at h; cases h
  · cases h

theorem decodeCommand_ne_tick {c : HostCommand} {i : Instr} (h : decodeCommand c = .instr i) : i ≠ .tbTick := by
  rintro rfl
  exact absurd (decodeCommand_wf h) (by decide)

/-- Every step is one of the effects of `StepEffect`, from a state with no fault marked. -/
theorem step_effect {s t : State} (h : step s = .next t) : s.fault = none ∧ StepEffect s t := by
  unfold step agentStep at h
  split at h
  · cases h
  · next hf =>
    refine ⟨hf, ?_⟩
    generalize hm : nextMove s = m at h
    cases m with
    | tick =>
      simp only [moveStep, exec, execTbTick, takeMove_tb] at h
      by_cases he : s.tb.tickEn = true
      · rw [if_pos he] at h; cases h; exact .ticked hm he
      · rw [if_neg he] at h; cases h; exact .nothing
    | line e =>
      simp only [moveStep, Host.Outcome.next.injEq] at h
      subst h
      unfold lineStep
      split
      · next he => exact .line e hm he
      · exact .nothing
    | core =>
      simp only [moveStep, coreTurn] at h
      split at h
      · next hp =>
        cases h
        unfold hostTurn
        split
        · next c hc => exact .issued c hm hp hc
        · exact .nothing
      · next r hr =>
        unfold fgTurn at h
        split at h
        · next i hd => exact .command r i t hm ⟨hr, hd⟩ h
        · next why hd => cases h; exact .badCommand r hm hr ⟨why, hd⟩

/-- A command's step, as an effect. -/
theorem command_effect {s t : State} {r : Running} {i : Instr} (hr : s.runsInstr r i)
    (he : exec i (takeMove s) = .next t) : FgEffect i r (takeMove s) t :=
  exec_effect (decodeCommand_ne_tick hr.2) hr.1 he

end Sys2Proof.Machine
end

