-- ==== Sys2Proof/Tests/Slice0.lean ====
section
/-! SUPPORT. Tests of the model on small states, one step each, with the expected values of spec/95_test_vectors.md (W for
its worked examples, V for its vectors) or of the rule named; and, for every statement of the certificate that has
hypotheses, a witness that meets them. -/

namespace Sys2Proof.Tests

open Sys2Proof Sys2Proof.Machine

/-! ### Helpers -/

/-- One field of the next state, if there is a next state. -/
def got {α : Type} (f : State → α) : Result → Option α
  | .next s => some (f s)
  | .fault _ => none
  | .refused _ => none

/-- A state whose channel has the given registers and is clocked. -/
def clocked (sr cr1 : Word) : State :=
  let s := State.boot Params.default [] [] []
  { s with chan := { s.chan with sr := sr, cr1 := cr1 }, plat := { s.plat with clkEn := true } }

/-- The state after `INIT_DEFAULT 115200`, as V33 gives it. -/
def ready : State :=
  let s := clocked 0xC0 0x200C
  { s with chan := { s.chan with brr := 0x008B }, plat := { s.plat with pinRoute := true } }

/-- A command running at position `m` with local variables `l`. -/
def standing (m : Mpc) (l : Locals) : Running := { op := 0, a0 := 0, a1 := 0, a2 := 0, mpc := m, locals := l }

/-- `s` with a command running at position `m`. -/
def at_ (m : Mpc) (l : Locals) (s : State) : State := { s with phase := .running (standing m l) }

/-- `s` with the issued command `c` running at position `m`. -/
def issued (c : HostCommand) (m : Mpc) (s : State) : State :=
  { s with
    ci := { s.ci with cmd := c.cmd, a0 := c.a0, a1 := c.a1, a2 := c.a2 }
    phase := .running { op := opcodeField c.cmd, a0 := c.a0, a1 := c.a1, a2 := c.a2, mpc := m, locals := Locals.empty } }

/-- Locals with nothing but a start and a later time. -/
def times (start t : Word) : Locals := { Locals.empty with start := start, t := t }

/-- Locals with nothing but a status word. -/
def seen (status : Word) : Locals := { Locals.empty with status := status }

/-! ### Well-formedness and argument checks: each refuses an ill-formed term (R86, R87) -/

theorem test_wf_refuses_the_tick_event : Instr.tbTick.wf = false := by decide
theorem test_wf_takes_a_command : (Instr.transmit 0 0 0).wf = true := by decide
theorem test_byte_argument_refuses_bit_8 : isByteArg 0x100 = false ∧ isByteArg 0xFF = true := by decide
theorem test_mask_refuses_bit_4 : maskLegal 0x10 = false ∧ maskLegal 0xF = true := by decide
theorem test_cfg_refuses_reserved_bits_and_parity_3 :
    cfgLegal 0x400 = false ∧ cfgLegal 0x18 = false ∧ cfgLegal 0x3F7 = true := by decide
theorem test_memory_form_refuses :
    Memory.wf [(2, 1), (1, 1)] = false ∧ Memory.wf [(1, 1), (1, 2)] = false ∧ Memory.wf [(1, 0)] = false ∧
    Memory.wf [(4294967296, 1)] = false ∧ Memory.wf [(1, 1), (4294967295, 1)] = true := by decide
theorem test_params_refuse :
    { Params.default with clockHz := 999 }.wf = false ∧ { Params.default with clockHz := 268435456 }.wf = false ∧
    Params.default.wf = true := by decide

/-! ### Decoding, by words written out from R80, R81 and R82 -/

theorem test_decode_tbInit : decodeCommand ⟨0b00000000000000000000000000000001, 9, 9, 9⟩ = .instr .tbInit := by decide
theorem test_decode_tbNow : decodeCommand ⟨0b00000000000000000000000000000010, 9, 9, 9⟩ = .instr .tbNow := by decide
theorem test_decode_tbDelay : decodeCommand ⟨0b00000000000000000000000000000011, 5, 9, 9⟩ = .instr (.tbDelay 5) := by decide
theorem test_decode_tbTick :
    decodeTable ⟨0b00000000000000000000000000000100, 0, 0, 0⟩ = .instr .tbTick ∧
    decodeCommand ⟨0b00000000000000000000000000000100, 0, 0, 0⟩ = .rejected .notHostIssuable := by decide
theorem test_decode_initDefault :
    decodeCommand ⟨0b00000000000000000000000000010000, 9600, 9, 9⟩ = .instr (.initDefault 9600) := by decide
theorem test_decode_initConfig :
    decodeCommand ⟨0b00000000000000000000000000010001, 1, 9600, 0x68⟩ = .instr (.initConfig 1 9600 0x68) := by decide
theorem test_decode_transmit :
    decodeCommand ⟨0b00000000000000000000000000100000, 7, 8, 9⟩ = .instr (.transmit 7 8 9) := by decide
theorem test_decode_sendByte :
    decodeCommand ⟨0b00000000000000000000000000100001, 0x41, 9, 9⟩ = .instr (.sendByte 0x41) := by decide
theorem test_decode_sendString :
    decodeCommand ⟨0b00000000000000000000000000100010, 7, 9, 9⟩ = .instr (.sendString 7) := by decide
theorem test_decode_receive :
    decodeCommand ⟨0b00000000000000000000000000110000, 7, 8, 9⟩ = .instr (.receive 7 8 9) := by decide
theorem test_decode_receiveByte :
    decodeCommand ⟨0b00000000000000000000000000110001, 9, 9, 9⟩ = .instr .receiveByte := by decide
theorem test_decode_isDataAvailable :
    decodeCommand ⟨0b00000000000000000000000000110010, 9, 9, 9⟩ = .instr .isDataAvailable := by decide
theorem test_decode_clearErrors :
    decodeCommand ⟨0b00000000000000000000000001000000, 9, 9, 9⟩ = .instr .clearErrors := by decide
theorem test_decode_enableInterrupts :
    decodeCommand ⟨0b00000000000000000000000001000001, 9, 8, 8⟩ = .instr (.enableInterrupts 9) := by decide
theorem test_decode_disableInterrupts :
    decodeCommand ⟨0b00000000000000000000000001000010, 9, 8, 8⟩ = .instr (.disableInterrupts 9) := by decide
theorem test_decode_updateBaudRate :
    decodeCommand ⟨0b00000000000000000000000001000011, 57600, 8, 8⟩ = .instr (.updateBaudRate 57600) := by decide

/-- V150, V153, V154: unassigned opcodes; V152: reserved bits. -/
theorem test_decode_rejects :
    decodeCommand ⟨0x00000000, 0, 0, 0⟩ = .rejected .unassignedOpcode ∧
    decodeCommand ⟨0x00000044, 0, 0, 0⟩ = .rejected .unassignedOpcode ∧
    decodeCommand ⟨0x000000FF, 0, 0, 0⟩ = .rejected .unassignedOpcode ∧
    decodeCommand ⟨0x00000120, 0, 0, 0⟩ = .rejected .reservedBits ∧
    decodeCommand ⟨0x80000001, 0, 0, 0⟩ = .rejected .reservedBits := by decide

/-- The table's numbering: CMD is bits 31:0, A0 bits 63:32 and so on; bits above `nbits` are 0. -/
theorem test_decode_table_words :
    decodeTableWord 32 0x43 = some (.updateBaudRate 0) ∧
    decodeTableWord 64 0x0000E10000000043 = some (.updateBaudRate 57600) ∧
    decodeTableWord 128 0x00000009000000080000000700000020 = some (.transmit 7 8 9) ∧
    decodeTableWord 32 0x0000E10000000043 = some (.updateBaudRate 0) ∧ decodeTableWord 32 0x143 = none := by decide

/-- The assembled forms of the lines of R90. -/
theorem test_encode :
    encode (.transmit 0x20000000 5 1000) = ⟨0x20, 0x20000000, 5, 1000⟩ ∧ encode .receiveByte = ⟨0x31, 0, 0, 0⟩ ∧
    encode (.sendByte 0x41) = ⟨0x21, 0x41, 0, 0⟩ ∧ encode .tbInit = ⟨0x01, 0, 0, 0⟩ := by decide

/-- V38's configuration word: 9 bits, 2 stop bits, odd parity... written out field by field (R83). -/
theorem test_cfg_pack :
    SerialConfig.pack
      { nineBits := true, stop := .two, parity := .odd, tx := true, rx := false, over8 := false, rts := true, cts := true }
      = 0x335 := by decide

/-! ### Timebase -/

/-- V1. -/
theorem test_tbInit_programs_the_tick :
    got (fun s => s.tb) (exec .tbInit (at_ .entry .empty { State.reset with tb := ⟨7, false, 0⟩ }))
      = some ⟨7, true, 16000⟩ := by decide
/-- V2: the division truncates. -/
theorem test_tbInit_truncates :
    got (fun s => s.tb.tickPeriod)
      (exec .tbInit (at_ .entry .empty (State.boot { Params.default with clockHz := 1234567 } [] [] []))) = some 1234 := by
  decide
/-- V4. -/
theorem test_tbNow_reads :
    got (fun s => s.hist) (exec .tbNow (at_ .entry .empty { State.reset with tb := ⟨0x1234, false, 0⟩ }))
      = some [.tickRd 0x1234] := by decide
theorem test_tbNow_finishes :
    got (fun s => (s.ci.r1, s.hpc, s.hist)) (exec .tbNow (at_ .useTime (times 0 0x1234) State.reset))
      = some (0x1234, 1, [.finish 0 none (some 0x1234)]) := by decide
/-- V10: the read 3 after a start at 0xFFFFFFFE has elapsed 5, the read 2 has elapsed 4. -/
theorem test_tbDelay_ends_across_the_wrap :
    got (fun s => s.phase) (exec (.tbDelay 5) (at_ .useTime (times 0xFFFFFFFE 3) State.reset)) = some .idle := by decide
theorem test_tbDelay_goes_on :
    got (fun s => s.hist) (exec (.tbDelay 5) (at_ .useTime (times 0xFFFFFFFE 2) State.reset)) = some [.tickRd 0] := by decide
/-- V5 and V6. -/
theorem test_tbTick_wraps :
    got (fun s => (s.tb.tickCnt, s.hist)) (exec .tbTick { State.reset with tb := ⟨0xFFFFFFFF, true, 0⟩ })
      = some (0, [.tick 0]) := by decide
theorem test_tbTick_needs_its_enable :
    got (fun s => (s.tb.tickCnt, s.hist)) (exec .tbTick { State.reset with tb := ⟨5, false, 0⟩ }) = some (5, []) := by decide

/-! ### Divisors: W1, W2, V20, V27, V28, V29 -/

theorem test_divisor :
    divisor 16000000 115200 16 = (8, 10) ∧ divisor 16000000 115200 8 = (17, 2) ∧ divisor 16000000 9600 16 = (104, 2) := by
  decide
theorem test_divisor_rounds :
    divisorRounded 16000000 115200 = (8, 11) ∧ divisorRounded 16000000 1032 = (969, 0) ∧
    divisorRounded 16000000 20000000 = (0, 1) ∧ divisorRounded 16000000 19200 = (52, 1) := by decide
theorem test_divisor_packs :
    packDivisor (8, 11) = 0x008B ∧ packDivisor (5000, 0) = 0x3880 ∧ packDivisor (17, 2) = 0x0112 := by decide

/-! ### Initialization -/

/-- V33. -/
theorem test_initDefault_registers :
    got (fun s => (s.chan.brr, s.chan.cr1, s.plat, s.hist)) (exec (.initDefault 115200) (at_ .entry .empty State.reset))
      = some (0x008B, 0x200C, ⟨true, true, false⟩,
          [.regWr .brr 0x8B, .regWr .cr1 0x0, .regWr .cr1 0x0, .regWr .cr1 0x0, .regWr .cr1 0x0, .regWr .cr2 0x0,
           .regWr .cr1 0x8, .regWr .cr1 0xC, .regWr .cr1 0x200C]) := by decide
/-- V34. -/
theorem test_initDefault_zero :
    got (fun s => (s.fault, s.hist, s.plat.clkEn)) (exec (.initDefault 0) (at_ .entry .empty State.reset))
      = some (some .divideByZero, [.fault .divideByZero], false) := by decide
/-- V38. -/
theorem test_initConfig_registers :
    got (fun s => (s.chan.brr, s.chan.cr1, s.chan.cr2, s.chan.cr3))
      (exec (.initConfig 1 9600 0x335) (at_ .entry .empty State.reset)) = some (0x0682, 0x3608, 0x2000, 0x0300) ∧
    got (fun s => s.hist) (exec (.initConfig 1 9600 0x68) (at_ .entry .empty State.reset)) =
      some
        [.regWr .cr1 0x0, .regWr .cr1 0x0, .regWr .brr 0x682, .regWr .cr1 0x0, .regWr .cr1 0x400, .regWr .cr1 0x400,
         .regWr .cr2 0x0, .regWr .cr3 0x0, .regWr .cr3 0x0, .regWr .cr1 0x408, .regWr .cr1 0x40C,
         .regWr .cr1 0x240C] := by decide
/-- V43: the test for an absent configuration comes first. -/
theorem test_initConfig_absent :
    got (fun s => (s.ci.r0, s.plat.clkEn, s.phase)) (exec (.initConfig 0 0 0x18) (at_ .entry .empty State.reset))
      = some (2, false, .idle) := by decide

/-! ### Transmit -/

/-- V54. -/
theorem test_transmit_wrap :
    got (fun s => (s.fault, s.hist))
      (exec (.transmit 0xFFFFFFFE 3 10) (at_ .testDirection { Locals.empty with c1 := 0x200C } ready))
      = some (some .bufferWrap, [.fault .bufferWrap]) := by decide
/-- V57: with timeout 0, elapsed 1 is the first to expire. -/
theorem test_transmit_timeout_is_strict :
    got (fun s => s.hist) (exec (.transmit 8 1 0) (at_ (.testTimeout .txe) (times 4 4) ready)) = some [.regRd .sr 0xC0] ∧
    got (fun s => (s.ci.r0, s.phase)) (exec (.transmit 8 1 0) (at_ (.testTimeout .txe) (times 4 5) ready))
      = some (1, .idle) := by decide
/-- V63: the DR write clears TXE and the armed TC. -/
theorem test_sendByte_writes :
    got (fun s => (s.chan.tdr, s.chan.sr, s.hist))
      (exec (.sendByte 0x41)
        (at_ (.testFlag .txe) (seen 0xC0) { ready with chan := { ready.chan with tcArmed := true } }))
      = some (0x41, 0x00, [.regWr .dr 0x41]) := by decide
/-- V64. -/
theorem test_sendByte_bad :
    got (fun s => s.fault) (exec (.sendByte 0x100) (at_ .entry .empty ready)) = some (some .badArg) := by decide
/-- V71: the byte after 0xFFFFFFFF, at i = 2. -/
theorem test_sendString_wrap :
    got (fun s => (s.fault, s.phase)) (exec (.sendString 0xFFFFFFFE) (at_ .endFrame { Locals.empty with i := 1 } ready))
      = some (some .bufferWrap, .running (standing .endFrame { Locals.empty with i := 2 })) := by decide
/-- V69: a zero byte ends the loop, and the wait is for TC. -/
theorem test_sendString_zero_byte :
    got (fun s => s.phase) (exec (.sendString 0x20000100) (at_ .useByte (seen 0) ready))
      = some (.running (standing (.testFlag .tc) (seen 0xC0))) := by decide

/-! ### Receive -/

/-- V94: bit 8 is dropped. -/
theorem test_receive_stores_the_low_byte :
    got (fun s => s.mem)
      (exec (.receive 0x20000200 1 50) (at_ .useData { Locals.empty with d := 0x1C5 } ready))
      = some [(0x20000200, 0xC5)] := by decide
/-- V91: an error ends the command and stores nothing. -/
theorem test_receive_reports_an_error :
    got (fun s => (s.ci.r0, s.mem, s.phase))
      (exec (.receive 0x20000200 1 50) (at_ .useData { Locals.empty with d := 0x11, e := 7 } ready))
      = some (7, [], .idle) := by decide
/-- V81 to V86. -/
theorem test_decode_errors :
    decodeErrors 0xE0 = none ∧ decodeErrors 0xE3 = some .parity ∧ decodeErrors 0xE6 = some .framing ∧
    decodeErrors 0xEC = some .noise ∧ decodeErrors 0xE8 = some .overrun ∧ decodeErrors 0xEF = some .parity ∧
    decodeErrors 0x10 = none := by decide
/-- V95. -/
theorem test_receiveByte_value :
    got (fun s => (s.ci.r1, s.ci.r0Set)) (exec .receiveByte (at_ .useData { Locals.empty with d := 0x15A } ready))
      = some (0x5A, false) := by decide
/-- W8: elapsed 1000 goes on, 1001 ends with 0. -/
theorem test_receiveByte_timeout :
    got (fun s => s.hist) (exec .receiveByte (at_ (.testTimeout .rxne) (times 0 1000) ready)) = some [.regRd .sr 0xC0] ∧
    got (fun s => (s.ci.r1, s.ci.r1Set)) (exec .receiveByte (at_ (.testTimeout .rxne) (times 0 1001) ready))
      = some (0, true) := by decide
/-- V99 and V101. -/
theorem test_isDataAvailable_value :
    got (fun s => s.ci.r1) (exec .isDataAvailable (at_ .useStatus (seen 0xE0) ready)) = some 1 := by decide
theorem test_isDataAvailable_unclocked :
    got (fun s => s.hist) (exec .isDataAvailable (at_ .entry .empty State.reset)) = some [.regRd .sr 0] := by decide

/-! ### Errors, interrupt enables, baud update -/

/-- V110: the armed ORE and RXNE are cleared. -/
theorem test_clearErrors_clears :
    got (fun s => (s.chan.sr, s.chan.errArmed))
      (exec .clearErrors
        (at_ .useStatus (seen 0xE8) { clocked 0xE8 0x200C with chan := { (clocked 0xE8 0x200C).chan with errArmed := 8 } }))
      = some (0xC0, 0) := by decide
/-- V112: with RXNE alone there is no DR read. -/
theorem test_clearErrors_keeps_a_byte :
    got (fun s => (s.chan.sr, s.ci.r0, s.phase)) (exec .clearErrors (at_ .useStatus (seen 0xE0) (clocked 0xE0 0x200C)))
      = some (0xE0, 0, .idle) := by decide
/-- V115. -/
theorem test_enableInterrupts_bits :
    got (fun s => (s.chan.cr1, s.chan.cr3, s.plat.irqArmed)) (exec (.enableInterrupts 0x9) (at_ .entry .empty ready))
      = some (0x202C, 0x1, true) := by decide
/-- V122. -/
theorem test_enableInterrupts_unclocked :
    got (fun s => (s.chan.cr1, s.plat.irqArmed)) (exec (.enableInterrupts 0x1) (at_ .entry .empty State.reset))
      = some (0, true) := by decide
/-- V119. -/
theorem test_disableInterrupts_bits :
    got (fun s => (s.chan.cr1, s.plat.irqArmed))
      (exec (.disableInterrupts 0xF)
        (at_ .entry .empty { clocked 0xC0 0x20EC with plat := ⟨true, true, true⟩ })) = some (0x200C, true) := by decide
/-- V121. -/
theorem test_disableInterrupts_bad :
    got (fun s => s.fault) (exec (.disableInterrupts 0xFFFFFFFF) (at_ .entry .empty ready)) = some (some .badArg) := by decide
/-- V123. -/
theorem test_updateBaudRate_history :
    got (fun s => s.hist) (exec (.updateBaudRate 57600) (at_ .entry .empty ready))
      = some [.regRd .cr1 0x200C, .regWr .cr1 0x000C, .regWr .brr 0x0115, .regWr .cr1 0x200C] := by decide
/-- V126: a disabled channel stays disabled. -/
theorem test_updateBaudRate_keeps_UE :
    got (fun s => (s.chan.brr, s.chan.cr1)) (exec (.updateBaudRate 9600) (at_ .entry .empty (clocked 0xC0 0x000C)))
      = some (0x0682, 0x000C) := by decide

/-! ### Interrupt request: V129, V131, V132, V133 -/

theorem test_chLine :
    chLine (clocked 0xC0 0x0080).chan = true ∧ chLine (clocked 0xC8 0x0020).chan = true ∧
    chLine { (clocked 0xC2 0).chan with cr3 := 1 } = false ∧
    chLine { (clocked 0x01 0x00E0).chan with cr3 := 1 } = false := by decide

/-! ### Line side -/

/-- V141. -/
theorem test_txLoad :
    let s := { clocked 0x40 0x3008 with chan := { (clocked 0x40 0x3008).chan with tdr := 0x141 } }
    (lineStep .txLoad s).chan.txLine = [0x141] ∧ (lineStep .txLoad s).chan.sr = 0xC0 ∧
    (lineStep .txLoad s).chan.shiftBusy = true := by decide
/-- V143: TX done with TXE = 0 leaves TC. -/
theorem test_txDone :
    let s := { clocked 0x00 0x2008 with chan := { (clocked 0x00 0x2008).chan with shiftBusy := true } }
    (lineStep .txDone s).chan.sr = 0 ∧ (lineStep .txDone s).chan.shiftBusy = false := by decide
/-- V145 and V146. -/
theorem test_rx :
    (lineStep (.rx 0x55 false true false) (clocked 0xC0 0x2004)).chan.sr = 0xE2 ∧
    (lineStep (.rx 0x66 false false false) (clocked 0xE0 0x2004)).chan.sr = 0xE8 ∧
    (lineStep (.rx 0x66 false false false) (clocked 0xE0 0x2004)).chan.rdr = 0 := by decide
/-- V144 and V149. -/
theorem test_line_guards :
    lineEnabled (.rx 0x55 false false false) (clocked 0xC0 0x0004) = false ∧
    lineEnabled (.rx 0x155 false false false) (clocked 0xC0 0x2004) = false ∧
    lineEnabled (.free 0 0) { State.reset with params := { Params.default with envModel := .free } } = false := by decide

/-! ### The step -/

/-- A placed command is what the next step runs, as the first step after reset. -/
theorem test_placed_word_runs :
    got (fun s => (s.tb.tickEn, s.hist)) (step (State.reset.withFetchWord 32 0x01)) = some (true, [.issue 1 0 0 0]) := by
  decide
theorem test_placed_tick_runs : got (fun s => s.tb.tickCnt) (step (State.reset.withFetchWord 32 0x04)) = some 1 := by decide
/-- V150: a bad word marks BadCommand. -/
theorem test_bad_command :
    got (fun s => (s.fault, s.hpc)) (step (State.reset.withFetchWord 32 0x00)) = some (some .badCommand, 0) := by decide
/-- V156. -/
theorem test_faulted_state_does_not_step :
    step { State.reset with fault := some .badArg, schedule := [.tick] } = .fault (.marked .badArg) := rfl

/-! ### Witnesses: states and operands that meet the hypotheses of each statement, clause by clause, at boundary values -/

/-- A command stands at `m` with locals `l` over `s`. -/
abbrev Stands (m : Mpc) (l : Locals) (s : State) : Prop :=
  (at_ m l s).phase = .running (standing m l) ∧ (standing m l).mpc = m

/-- `ready` with no caller address admitted. -/
def closed : State := { ready with params := { Params.default with regions := [] } }

/-- A state of the free model. -/
def freeReady : State := { ready with params := { Params.default with envModel := .free } }

/-- `s` with one move scheduled. -/
def next_ (m : Move) (s : State) : State := { s with schedule := [m] }

theorem witness_AssembledFormsAreExactlyWhatDecodes :
    (Instr.initConfig 0 0xFFFFFFFF 0).wf = true ∧ Instr.tbTick.wf = false := by decide

theorem witness_BadCommandWordOnlyMarksTheFault :
    let s := issued ⟨0x00000004, 1, 2, 3⟩ .entry State.reset
    let t := issued ⟨0x00000101, 1, 2, 3⟩ .entry State.reset
    s.fault = none ∧ nextMove s = .core ∧ (∃ r, s.phase = .running r) ∧ opcodeField s.ci.cmd ∉ issuableOpcodes ∧
    t.fault = none ∧ nextMove t = .core ∧ (∃ r, t.phase = .running r) ∧ reservedField t.ci.cmd ≠ 0 :=
  ⟨rfl, rfl, ⟨_, rfl⟩, by decide, rfl, rfl, ⟨_, rfl⟩, by decide⟩

theorem witness_StepRunsTheDecodedCommand :
    let s := issued ⟨0x00000043, 0xFFFFFFFF, 2, 3⟩ .entry (next_ .core State.reset)
    s.fault = none ∧ nextMove s = .core ∧
    ∃ r, s.phase = .running r ∧ decodeCommand (runningCommand r s) = .instr (.updateBaudRate 0xFFFFFFFF) :=
  ⟨rfl, rfl, _, rfl, by decide⟩

theorem witness_HostIssuesItsNextCommand :
    let s := { State.reset with program := [⟨1, 0, 0, 0⟩, ⟨4, 5, 6, 7⟩], hpc := 1 }
    let t := { State.reset with program := [⟨1, 0, 0, 0⟩], hpc := 1 }
    (s.fault = none ∧ nextMove s = .core ∧ s.phase = .idle ∧ s.program[s.hpc]? = some ⟨4, 5, 6, 7⟩) ∧
    (t.fault = none ∧ nextMove t = .core ∧ t.phase = .idle ∧ t.program.length ≤ t.hpc) := by decide

theorem witness_MarkedFaultStopsEveryAgent :
    ({ State.reset with fault := some .bufferWrap }).fault = some .bufferWrap ∧ ∃ t, step State.reset = .next t :=
  ⟨rfl, _, rfl⟩

theorem witness_TbInitProgramsTheTickSource :
    Stands .entry .empty State.reset ∧ Stands .conclude .empty State.reset ∧
    { Params.default with clockHz := 1000 }.wf = true ∧ { Params.default with clockHz := 268435455 }.wf = true := by decide

theorem witness_TbNowReturnsTheCounter :
    Stands .entry .empty State.reset ∧ Stands .useTime (times 0 0xFFFFFFFF) State.reset := by decide

theorem witness_TbDelayFollowsItsPseudocode :
    Stands .entry .empty State.reset ∧ Stands .enterLoop .empty State.reset ∧
    (Stands .useTime (times 0xFFFFFFFF 0) State.reset ∧
      ((standing .useTime (times 0xFFFFFFFF 0)).locals.t - (standing .useTime (times 0xFFFFFFFF 0)).locals.start).toNat
        < (2 : Word).toNat) ∧
    (Stands .useTime (times 0xFFFFFFFF 1) State.reset ∧
      (2 : Word).toNat ≤
        ((standing .useTime (times 0xFFFFFFFF 1)).locals.t - (standing .useTime (times 0xFFFFFFFF 1)).locals.start).toNat) := by
  decide

theorem witness_TickAddsOne : ({ State.reset with tb := ⟨0xFFFFFFFF, true, 0⟩ }).tb.tickEn = true := rfl

/-- Any step at all meets the hypothesis of a statement about `step s = next t`: here the tick's. -/
theorem witness_a_step :
    let s := next_ .tick { State.reset with tb := ⟨0xFFFFFFFF, true, 0⟩ }
    nextMove s = .tick ∧ got (fun t => t.tb.tickCnt) (step s) = some 0 := by decide

theorem witness_TimeoutIsStrictlyExceeded :
    4294967295 < 2 ^ 32 ∧ (5 : Word).toNat < 6 ∧ ¬(5 : Word).toNat < 5 := by decide

theorem witness_divisors :
    (1 ≠ 0 ∧ (16 = 16 ∨ 16 = 8)) ∧ (4294967295 ≠ 0 ∧ (8 = 16 ∨ 8 = 8)) ∧ 2 ≤ 2 * (3 % 2) ∧ ¬3 ≤ 2 * (4 % 3) ∧ 15 < 16 ∧ 7 < 8 ∧
    Params.default.wf = true := by decide

theorem witness_InitDefaultProgramsTheChannel :
    Stands .entry .empty State.reset ∧ Stands .conclude .empty ready ∧ (0xFFFFFFFF : Word) ≠ 0 := by decide

theorem witness_InitDefaultTwiceIsOnce :
    let s := at_ .entry .empty State.reset
    let r := standing .entry .empty
    (9600 : Word) ≠ 0 ∧ s.standsAt .entry r ∧
    ∃ u, exec (.initDefault 9600) s = .next u ∧
      let t := { at_ .entry .empty State.reset with chan := u.chan, plat := u.plat }
      t.standsAt .entry r ∧ t.chan = u.chan ∧ t.plat = u.plat ∧ t.params = u.params :=
  ⟨by decide, ⟨rfl, rfl⟩, _, rfl, ⟨rfl, rfl⟩, rfl, rfl, rfl⟩

theorem witness_InitConfigProgramsTheChannel :
    Stands .entry .empty State.reset ∧ Stands .conclude .empty ready ∧ (0xFFFFFFFF : Word) ≠ 0 ∧
    (0x400 : Word).extractLsb' 10 22 ≠ 0 ∧ (0x18 : Word).extractLsb' 3 2 = 3#2 ∧
    (0x3F7 : Word).extractLsb' 10 22 = 0 ∧ (0x3F7 : Word).extractLsb' 3 2 ≠ 3#2 := by decide

theorem witness_ConfigurationFieldsReachTheRegisters :
    (at_ .entry .empty State.reset).standsAt .entry (standing .entry .empty) ∧ (1 : Word) ≠ 0 ∧ (0xFFFFFFFF : Word) ≠ 0 :=
  ⟨⟨rfl, rfl⟩, by decide, by decide⟩

theorem witness_TransmitFollowsItsPseudocode :
    Stands .entry .empty ready ∧
    (Stands .testDirection .empty ready ∧ bit Locals.empty.c1 Cr1.te = false) ∧
    (bit (0x200C : Word) Cr1.te = true ∧ 2 ^ 32 < (0xFFFFFFFF : Word).toNat + (2 : Word).toNat) ∧
    (bit (0x200C : Word) Cr1.te = true ∧ (0xFFFFFFFF : Word).toNat + (1 : Word).toNat ≤ 2 ^ 32) ∧
    Stands .enterLoop .empty ready ∧
    (Stands (.testFlag .txe) (seen 0xC0) ready ∧ bit (seen 0xC0).status Sr.txe = true ∧
      ready.grants (0xFFFFFFFF + (seen 0xC0).i) .read = true ∧ closed.grants (0xFFFFFFFF + (seen 0xC0).i) .read = false) ∧
    (Stands (.testFlag .txe) (seen 0x40) ready ∧ bit (seen 0x40).status Sr.txe = false) ∧
    Stands .useByte .empty ready ∧
    (Stands .endFrame .empty ready ∧ Locals.empty.i.toNat + 1 < (2 : Word).toNat ∧
      (1 : Word).toNat ≤ Locals.empty.i.toNat + 1) ∧
    (Stands (.testFlag .tc) (seen 0xC0) ready ∧ bit (seen 0xC0).status Sr.tc = true ∧
      bit (seen 0x80).status Sr.tc = false) ∧
    (Stands (.testTimeout .txe) (times 0xFFFFFFFF 1) ready ∧ Stands (.testTimeout .tc) (times 0xFFFFFFFF 1) ready ∧
      (1 : Word).toNat < ((times 0xFFFFFFFF 1).t - (times 0xFFFFFFFF 1).start).toNat ∧
      ((times 0xFFFFFFFF 1).t - (times 0xFFFFFFFF 1).start).toNat ≤ (2 : Word).toNat) := by decide

theorem witness_SendByteFollowsItsPseudocode :
    Stands .entry .empty ready ∧ 255 < (0x100 : Word).toNat ∧ (0xFF : Word).toNat ≤ 255 ∧
    (Stands .testDirection .empty ready ∧ bit Locals.empty.c1 Cr1.te = false) ∧
    (Stands .testDirection { Locals.empty with c1 := 0x200C } ready ∧ bit (0x200C : Word) Cr1.te = true) ∧
    Stands .enterLoop .empty ready ∧
    (Stands (.testFlag .txe) (seen 0x80) ready ∧ bit (seen 0x80).status Sr.txe = true ∧
      bit (seen 0x7F).status Sr.txe = false) ∧
    (Stands (.testTimeout .txe) (times 0 1001) ready ∧ 1000 < ((times 0 1001).t - (times 0 1001).start).toNat ∧
      ((times 0 1000).t - (times 0 1000).start).toNat ≤ 1000) ∧
    Stands .endFrame .empty ready := by decide

theorem witness_SendStringFollowsItsPseudocode :
    Stands .entry .empty ready ∧ (1 : Word) ≠ 0 ∧ ready.grants 0xFFFFFFFF .read = true ∧
    closed.grants 0xFFFFFFFF .read = false ∧
    (Stands .useByte { Locals.empty with b := 1 } ready ∧ ({ Locals.empty with b := 1 } : Locals).b ≠ 0) ∧
    (Stands .useByte .empty ready ∧ Locals.empty.b = 0) ∧
    (Stands (.testFlag .txe) (seen 0x80) ready ∧ bit (seen 0x80).status Sr.txe = true) ∧
    (Stands .endFrame { Locals.empty with i := 1 } ready ∧ (0xFFFFFFFE : Word).toNat + (1 : Word).toNat + 1 = 2 ^ 32 ∧
      (0xFFFFFFFD : Word).toNat + (1 : Word).toNat + 1 < 2 ^ 32 ∧ ready.grants (0xFFFFFFFD + (1 + 1)) .read = true ∧
      closed.grants (0xFFFFFFFD + (1 + 1)) .read = false) ∧
    (Stands (.testFlag .tc) (seen 0x40) ready ∧ bit (seen 0x40).status Sr.tc = true) ∧
    (Stands (.testFlag .txe) (seen 0) ready ∧ Stands (.testFlag .tc) (seen 0) ready ∧
      bit (seen 0).status (pollBit .txe) = false ∧ bit (seen 0).status (pollBit .tc) = false) := by decide

theorem witness_ReceiveFollowsItsPseudocode :
    Stands .entry .empty ready ∧
    (Stands .testDirection .empty ready ∧ bit Locals.empty.c1 Cr1.re = false) ∧
    (bit (0x200C : Word) Cr1.re = true ∧ 2 ^ 32 < (0xFFFFFFFF : Word).toNat + (2 : Word).toNat ∧
      (0xFFFFFFFF : Word).toNat + (1 : Word).toNat ≤ 2 ^ 32) ∧
    Stands .enterLoop .empty ready ∧
    (Stands (.testFlag .rxne) (seen 0x20) ready ∧ bit (seen 0x20).status Sr.rxne = true ∧
      bit (seen 0xDF).status Sr.rxne = false) ∧
    (Stands (.testTimeout .rxne) (times 0xFFFFFFFF 1) ready ∧
      (1 : Word).toNat < ((times 0xFFFFFFFF 1).t - (times 0xFFFFFFFF 1).start).toNat ∧
      ((times 0xFFFFFFFF 1).t - (times 0xFFFFFFFF 1).start).toNat ≤ (2 : Word).toNat) ∧
    Stands .useStatus .empty ready ∧
    (Stands .useData { Locals.empty with e := 4 } ready ∧ (4 : Word) ≠ 0 ∧ Stands .useData .empty ready ∧
      Locals.empty.e = 0 ∧ ready.grants (0xFFFFFFFF + Locals.empty.i) .write = true ∧
      closed.grants (0xFFFFFFFF + Locals.empty.i) .write = false) ∧
    (Stands .endStore .empty ready ∧ Locals.empty.i.toNat + 1 < (2 : Word).toNat ∧
      (1 : Word).toNat ≤ Locals.empty.i.toNat + 1) := by decide

theorem witness_ReceiveByteFollowsItsPseudocode :
    Stands .entry .empty ready ∧ Stands .enterLoop .empty ready ∧
    (Stands (.testTimeout .rxne) (times 0 1000) ready ∧ ((times 0 1000).t - (times 0 1000).start).toNat ≤ 1000) ∧
    (Stands (.testFlag .rxne) (seen 0x20) ready ∧ bit (seen 0x20).status Sr.rxne = true ∧
      bit (seen 0xDF).status Sr.rxne = false) ∧
    (Stands (.testTimeout .rxne) (times 0 1001) ready ∧ 1000 < ((times 0 1001).t - (times 0 1001).start).toNat) ∧
    Stands .useData .empty ready := by decide

theorem witness_IsDataAvailableReturnsRxne : Stands .entry .empty ready ∧ Stands .useStatus (seen 0x20) ready := by decide

theorem witness_ErrorFlagsDecodeInFixedPrecedence :
    bit 1 Sr.pe = true ∧ (bit 2 Sr.pe = false ∧ bit 2 Sr.fe = true) ∧
    (bit 4 Sr.pe = false ∧ bit 4 Sr.fe = false ∧ bit 4 Sr.nf = true) ∧
    (bit 8 Sr.pe = false ∧ bit 8 Sr.fe = false ∧ bit 8 Sr.nf = false ∧ bit 8 Sr.ore = true) ∧
    (bit 16 Sr.pe = false ∧ bit 16 Sr.fe = false ∧ bit 16 Sr.nf = false ∧ bit 16 Sr.ore = false) := by decide

theorem witness_ClearErrorsFollowsItsPseudocode :
    Stands .entry .empty ready ∧ (Stands .useStatus (seen 8) ready ∧ 3 < 4 ∧ bit (seen 8).status 3 = true) ∧
    (Stands .useStatus (seen 0xF0) ready ∧ ∀ k, k < 4 → bit (seen 0xF0).status k = false) ∧
    Stands .useData .empty ready := by decide

theorem witness_interrupt_masks :
    Stands .entry .empty ready ∧ Stands .conclude .empty ready ∧ 15 < (16 : Word).toNat ∧ (15 : Word).toNat ≤ 15 ∧
    ready.plat.clkEn = true ∧ State.reset.plat.clkEn = false := by decide

theorem witness_UpdateBaudRateWritesOnlyTheDivisor :
    Stands .entry .empty ready ∧ Stands .conclude .empty ready ∧ (0xFFFFFFFF : Word) ≠ 0 ∧ ready.plat.clkEn = true ∧
    Stands .entry .empty State.reset ∧ State.reset.plat.clkEn = false := by decide

theorem witness_register_access : ready.plat.clkEn = true ∧ State.reset.plat.clkEn = false := by decide

theorem witness_InterruptRequestIsALevelOfEnabledFlags : UnwrittenBitsZero (clocked 0xC0 0x20EC) :=
  ⟨by decide, by decide, by decide, by decide, by decide, fun _ => by decide⟩

theorem witness_TransmitterMovesFramesOnlyWhenEnabled :
    let s := next_ (.line .txLoad) (clocked 0x40 0x2008)
    let t := next_ (.line .txDone) { clocked 0x80 0x2008 with chan := { (clocked 0x80 0x2008).chan with shiftBusy := true } }
    (s.fault = none ∧ nextMove s = .line .txLoad ∧ s.params.envModel = .device ∧ s.plat.clkEn = true ∧
      bit s.chan.cr1 Cr1.ue = true ∧ bit s.chan.cr1 Cr1.te = true ∧ bit s.chan.sr Sr.txe = false ∧
      s.chan.shiftBusy = false) ∧
    (t.fault = none ∧ nextMove t = .line .txDone ∧ t.params.envModel = .device ∧ t.plat.clkEn = true ∧
      bit t.chan.cr1 Cr1.ue = true ∧ t.chan.shiftBusy = true) ∧
    (nextMove (next_ (.line .txLoad) ready) = .line .txLoad ∧ bit ready.chan.sr Sr.txe = true) ∧
    (nextMove (next_ (.line .txDone) ready) = .line .txDone ∧ ready.chan.shiftBusy = false) := by decide

theorem witness_ReceiverDeliversOrOverruns :
    let s := next_ (.line (.rx 0x1FF true true true)) (clocked 0xC0 0x3404)
    let t := next_ (.line (.rx 0x0FF false true true)) (clocked 0xE0 0x2004)
    let u := next_ (.line (.rx 0x100 false true true)) (clocked 0xC0 0x2004)
    (s.fault = none ∧ nextMove s = .line (.rx 0x1FF true true true) ∧ s.params.envModel = .device ∧ s.plat.clkEn = true ∧
      bit s.chan.cr1 Cr1.ue = true ∧ bit s.chan.cr1 Cr1.re = true ∧ bit s.chan.cr1 Cr1.m = true ∧
      bit s.chan.cr1 Cr1.pce = true ∧ bit s.chan.sr Sr.rxne = false) ∧
    (t.fault = none ∧ nextMove t = .line (.rx 0x0FF false true true) ∧ t.params.envModel = .device ∧ t.plat.clkEn = true ∧
      bit t.chan.cr1 Cr1.ue = true ∧ bit t.chan.cr1 Cr1.re = true ∧ (0x0FF : Frame).toNat < 256 ∧
      bit t.chan.sr Sr.rxne = true) ∧
    (u.fault = none ∧ nextMove u = .line (.rx 0x100 false true true) ∧ ¬(0x100 : Frame).toNat < 256 ∧
      bit u.chan.cr1 Cr1.m = false) := by decide

theorem witness_FreeChangeSetsFlagsAndReceiveData :
    let s := next_ (.line (.free 0x3FF 0x1FF)) freeReady
    let t := next_ (.line (.free 0x3FF 0x1FF)) ready
    (s.fault = none ∧ nextMove s = .line (.free 0x3FF 0x1FF) ∧ s.params.envModel = .free ∧ s.plat.clkEn = true) ∧
    (t.fault = none ∧ nextMove t = .line (.free 0x3FF 0x1FF) ∧ t.params.envModel ≠ .free) := by decide

/-- A next state of RECEIVE at its store, and of another instruction. -/
theorem witness_OnlyReceiveStoresAndOnlyItsByte :
    let l := { Locals.empty with d := 0x1C5, i := 0xFFFFFFFF }
    (∃ t, exec .isDataAvailable (at_ .entry .empty ready) = .next t) ∧
    (∃ t, exec (.receive 1 0 0) (at_ .useData l ready) = .next t) ∧ MemoryCanonical (at_ .useData l ready) ∧
    Stands .useData l ready ∧ l.e = 0 ∧ ready.grants (byteAddress 1 l.i) .write = true ∧
    (∃ t, exec (.receive 1 0 0) (at_ .useData { l with e := 7 } ready) = .next t) ∧
    (∃ t, exec (.receive 1 0 0) (at_ .useData l closed) = .next t) ∧ closed.grants (byteAddress 1 l.i) .write = false :=
  ⟨⟨_, rfl⟩, ⟨_, rfl⟩, rfl, by decide, rfl, by decide, ⟨_, rfl⟩, ⟨_, rfl⟩, by decide⟩

/-- Each command that writes a result register finishes somewhere, from a state in which no Overflow is about to be
reported: RECEIVE with each kind of outcome. -/
theorem witness_ResultRegistersAreWrittenOnlyByTheirCommands :
    NoOverflow (at_ .useData { Locals.empty with e := 7 } ready) ∧
    got (fun t => (t.phase, t.ci.r0)) (exec (.receive 8 1 0) (at_ .useData { Locals.empty with e := 7 } ready)) =
      some (.idle, 7) ∧
    got (fun t => t.phase) (exec (.initConfig 0 0 0) (at_ .entry .empty ready)) = some .idle ∧
    got (fun t => t.phase) (exec (.transmit 8 1 0) (at_ (.testTimeout .tc) (times 0 1) ready)) = some .idle ∧
    got (fun t => t.phase) (exec (.sendByte 1) (at_ .endFrame .empty ready)) = some .idle ∧
    got (fun t => t.phase) (exec .clearErrors (at_ .useData .empty ready)) = some .idle ∧
    got (fun t => t.phase) (exec (.updateBaudRate 0) (at_ .entry .empty ready)) = some .idle ∧
    got (fun t => t.phase) (exec .tbNow (at_ .useTime .empty ready)) = some .idle :=
  ⟨⟨fun h => (by cases h), fun r h => (by cases h; decide)⟩, rfl, rfl, rfl, rfl, rfl, rfl, rfl⟩

/-- A next state of an instruction outside each of the frame statements' exceptions. -/
theorem witness_frames :
    (∃ t, exec .receiveByte (at_ .useData .empty ready) = .next t) ∧ configures .receiveByte = false ∧
    Instr.receiveByte ∉ [Instr.clearErrors] ∧ (∃ t, exec .clearErrors (at_ .useData .empty ready) = .next t) ∧
    Instr.clearErrors ∉ [Instr.tbNow, .receiveByte, .isDataAvailable] :=
  ⟨⟨_, rfl⟩, rfl, by decide, ⟨_, rfl⟩, by decide⟩

/-- Reset meets every invariant's hypothesis and has a step. -/
theorem witness_invariants :
    MemoryCanonical State.reset ∧ UnwrittenBitsZero State.reset ∧ ControllerConsistent State.reset ∧
    TxeSetBeforeDataWrite State.reset ∧ NoOverflow State.reset ∧ BufferLoopInBounds State.reset ∧
    State.reset.fault = none ∧ State.reset.params.envModel = .device ∧ Memory.wf [(4294967295, 1)] = true ∧
    ∃ t, step State.reset = .next t :=
  ⟨rfl, ⟨by decide, by decide, by decide, by decide, by decide, fun _ => by decide⟩, fun _ h => (by cases h),
    fun _ _ h => (by cases h.1), ⟨fun h => (by cases h), fun _ h => (by cases h)⟩, fun _ _ _ _ _ h => (by cases h.1), rfl,
    rfl, rfl, _, rfl⟩

/-- `s` with the issued command `c` running at position `m` with local variables `l`, and FG to move. -/
def midway (c : HostCommand) (m : Mpc) (l : Locals) (s : State) : State :=
  { next_ .core s with
    ci := { s.ci with cmd := c.cmd, a0 := c.a0, a1 := c.a1, a2 := c.a2 }
    phase := .running { op := opcodeField c.cmd, a0 := c.a0, a1 := c.a1, a2 := c.a2, mpc := m, locals := l } }

theorem midway_consistent {c : HostCommand} {m : Mpc} {i : Instr} (l : Locals) (s : State)
    (hd : decodeCommand c = .instr i) (hm : m ∈ positions i) : ControllerConsistent (midway c m l s) := by
  rintro r ⟨⟩
  refine ⟨rfl, rfl, rfl, rfl, fun j hj => ?_, fun why hw => ?_⟩
  · cases hd.symm.trans hj
    exact hm
  · cases hd.symm.trans hw

/-- SEND_BYTE about to write DR, on a channel with TXE = 1, meets the invariants, and its step does write DR. -/
theorem witness_invariants_at_a_data_write :
    let s := midway ⟨0x21, 0x41, 0, 0⟩ (.testFlag .txe) (seen 0xC0) ready
    ControllerConsistent s ∧ s.fault = none ∧ s.params.envModel = .device ∧ TxeSetBeforeDataWrite s ∧ NoOverflow s ∧
    UnwrittenBitsZero s ∧ MemoryCanonical s ∧ ∃ t, step s = .next t ∧ t.hist = s.hist ++ [.regWr .dr 0x41] :=
  ⟨midway_consistent _ _ (i := .sendByte 0x41) (by decide) (by decide), rfl, rfl,
    fun _ _ _ => ⟨fun _ _ => by decide, fun _ _ => by decide⟩, ⟨fun h => (by cases h), fun r h => (by cases h; decide)⟩,
    ⟨by decide, by decide, by decide, by decide, by decide, fun _ => by decide⟩, rfl, _, rfl, rfl⟩

/-- RECEIVE at the store of its second and last byte meets the invariants, and its step does store. -/
theorem witness_invariants_at_a_store :
    let s := midway ⟨0x30, 0xFFFFFFFE, 2, 50⟩ .useData { Locals.empty with i := 1, d := 0x41 } ready
    ControllerConsistent s ∧ s.fault = none ∧ BufferLoopInBounds s ∧ NoOverflow s ∧ MemoryCanonical s ∧
    got (fun t => t.byteAt 0xFFFFFFFF) (step s) = some 0x41 := by
  have hd : decodeCommand ⟨0x30, 0xFFFFFFFE, 2, 50⟩ = .instr (.receive 0xFFFFFFFE 2 50) := by decide
  refine ⟨midway_consistent _ _ hd (by decide), rfl, ?_, ⟨fun h => (by cases h), fun r h => (by cases h; decide)⟩, rfl,
    by decide⟩
  rintro r i a n w ⟨⟨⟩, hi⟩ hk
  cases hd.symm.trans hi
  rcases hk with hk | hk <;> cases hk
  decide

/-- TRANSMIT at the DR write of its first byte meets the invariants, and its step does write DR. -/
theorem witness_invariants_in_a_transmission :
    let s := midway ⟨0x20, 0xFFFFFFFE, 2, 50⟩ .useByte { Locals.empty with b := 0x41 } ready
    ControllerConsistent s ∧ s.fault = none ∧ BufferLoopInBounds s ∧ TxeSetBeforeDataWrite s ∧
    s.params.envModel = .device ∧ ∃ t, step s = .next t ∧ t.hist = s.hist ++ [.regWr .dr 0x41] := by
  have hd : decodeCommand ⟨0x20, 0xFFFFFFFE, 2, 50⟩ = .instr (.transmit 0xFFFFFFFE 2 50) := by decide
  refine ⟨midway_consistent _ _ hd (by decide), rfl, ?_, fun _ _ _ => ⟨fun _ _ => by decide, fun _ _ => by decide⟩, rfl, _,
    rfl, rfl⟩
  rintro r i a n w ⟨⟨⟩, hi⟩ hk
  cases hd.symm.trans hi
  rcases hk with hk | hk <;> cases hk
  decide

theorem witness_DelayEndsAfterExactlyItsTicks :
    let s :=
      { issued ⟨3, 2, 0, 0⟩ .entry { State.reset with tb := ⟨0xFFFFFFFF, true, 0⟩ } with
        schedule := [.core, .tick, .core, .tick, .core, .core] }
    let t :=
      { issued ⟨3, 0, 0, 0⟩ .entry { State.reset with tb := ⟨0xFFFFFFFF, true, 0⟩ } with
        schedule := [.core, .core, .core] }
    (s.fault = none ∧ s.ci.cmd = 3 ∧ s.tb.tickEn = true ∧ 1 ≤ s.ci.a0.toNat ∧
      s.schedule = .core :: (List.replicate s.ci.a0.toNat [Move.tick, Move.core]).flatten ++ .core :: []) ∧
    (t.fault = none ∧ t.ci.cmd = 3 ∧ t.tb.tickEn = true ∧ t.ci.a0 = 0 ∧ t.schedule = .core :: .core :: .core :: []) := by
  decide

theorem witness_ReceiveByteTimesOutAfter1001Polls :
    let s :=
      { issued ⟨0x31, 0, 0, 0⟩ .entry { ready with tb := ⟨0, true, 0⟩ } with
        schedule := .core :: (List.replicate 1001 [Move.tick, Move.core, Move.core]).flatten ++ .core :: [] }
    s.fault = none ∧ (∃ r, s.phase = .running r ∧ r.mpc = .entry) ∧ s.ci.cmd = 0x31 ∧ s.tb.tickEn = true ∧
    bit (readValue .sr s) Sr.rxne = false ∧
    s.schedule = .core :: (List.replicate 1001 [Move.tick, Move.core, Move.core]).flatten ++ .core :: [] :=
  ⟨rfl, ⟨_, rfl, rfl⟩, rfl, rfl, by decide, rfl⟩

theorem witness_TransmitWritesItsBytesInOrder :
    let s :=
      { issued ⟨0x20, 0xFFFFFFFE, 2, 0⟩ .entry freeReady with
        schedule :=
          [.core, .core, .core, .core, .core, .line (.free 0xC0 5), .core, .core, .core, .line (.free 0xC0 5), .core,
            .core] }
    (∃ r, s.phase = .running r ∧ r.mpc = .entry ∧ r.a0 = s.ci.a0 ∧ r.a1 = s.ci.a1) ∧
    s.fault = none ∧ s.ci.cmd = 0x20 ∧ s.params.envModel = .free ∧ s.plat.clkEn = true ∧ bit s.chan.cr1 Cr1.te = true ∧
    s.chan.sr = 0xC0 ∧ s.ci.a0 ≠ 0 ∧ s.ci.a1 ≠ 0 ∧ s.ci.a0.toNat + s.ci.a1.toNat ≤ 2 ^ 32 ∧
    (∀ i, i < s.ci.a1.toNat → s.grants (s.ci.a0 + BitVec.ofNat 32 i) .read = true) ∧
    s.schedule =
      [.core, .core]
        ++ (List.replicate s.ci.a1.toNat [Move.core, .core, .core, .line (.free 0xC0 5)]).flatten
        ++ [.core, .core] ++ [] :=
  ⟨⟨_, rfl, rfl, rfl, rfl⟩, by decide⟩

/-- TRANSMIT against TXE = 0, with one tick before each poll: with timeout 1 it returns Timeout in its ninth step. -/
def waiting : State :=
  { issued ⟨0x20, 8, 1, 0⟩ .entry { clocked 0x00 0x200C with tb := ⟨0xFFFFFFFF, true, 0⟩ } with
    schedule := [.core, .core, .tick, .core, .core, .tick, .core, .core, .core] }

theorem witness_TimeoutIsMonotone :
    (∃ r, waiting.phase = .running r ∧ r.mpc = .entry) ∧ waiting.ci.cmd = 0x20 ∧ (0 : Word).toNat < (1 : Word).toNat ∧
    TimesOutAfter 9 (withTimeout 1 waiting) := by
  refine ⟨⟨_, rfl, rfl⟩, rfl, by decide, fun k hk => ?_, _, rfl, rfl, rfl⟩
  interval_cases k <;> exact ⟨_, rfl, fun h => by cases h⟩

/-- A run of IS_DATA_AVAILABLE: its two steps, and then nothing more to do. -/
def asking (n : Nat) : State :=
  let s := issued ⟨0x32, 0, 0, 0⟩ .entry ready
  match n with
  | 0 => s
  | 1 => (got id (exec .isDataAvailable s)).getD s
  | _ => ((got id (exec .isDataAvailable s)).bind fun t => got id (exec .isDataAvailable t)).getD s

theorem witness_CommandsWithoutWaitsEndInFairRuns :
    IsRun (fun _ => .core) asking ∧ FgFair (fun _ => .core) asking ∧ neverWaits .isDataAvailable = true ∧
    ControllerConsistent (asking 0) ∧ ∃ r, (asking 0).runsInstr r .isDataAvailable := by
  have hd : decodeCommand ⟨0x32, 0, 0, 0⟩ = .instr .isDataAvailable := by decide
  refine ⟨fun n => ?_, fun n _ => ⟨n, le_refl n, rfl⟩, rfl, ?_, _, rfl, hd⟩
  rotate_left
  · rintro r ⟨⟩
    refine ⟨rfl, rfl, rfl, rfl, fun i hi => ?_, fun _ _ => rfl⟩
    cases hd.symm.trans hi
    decide
  match n with
  | 0 => exact ⟨rfl, rfl⟩
  | 1 => exact ⟨rfl, rfl⟩
  | _ + 2 => exact ⟨rfl, rfl⟩

end Sys2Proof.Tests
end

section
/-! SUPPORT. The packed divisor as arithmetic (R9, R32, R120 to R123). -/

namespace Sys2Proof.Machine

open Sys2Proof

/-- A mantissa below 2^28 over a fraction below 2^32 packs, before truncation, into 32 bits. -/
theorem packedValue_lt {m f : Nat} (hm : m < 2 ^ 28) (hf : f < 2 ^ 32) : (m <<< 4) ||| f < 2 ^ 32 :=
  Nat.or_lt_two_pow (by rw [Nat.shiftLeft_eq]; omega) hf

/-- A four-bit fraction fills the bits below the shifted mantissa, so packing is a sum (R123). -/
theorem packDivisor_toNat {m f : Nat} (hf : f < 16) : (packDivisor (m, f)).toNat = (m % 4096) * 16 + f := by
  have hor : (m <<< 4) ||| f = m * 16 + f := by
    rw [← Nat.shiftLeft_add_eq_or_of_lt (i := 4) (by omega), Nat.shiftLeft_eq]
  rw [packDivisor, hor, BitVec.toNat_ofNat]
  omega

/-- A three-bit fraction, as 8x oversampling gives, leaves bit 3 of BRR clear (R32). -/
theorem packDivisor_bit3 {m f : Nat} (hf : f < 8) : bit (packDivisor (m, f)) 3 = false := by
  rw [bit, BitVec.getLsbD, packDivisor_toNat (by omega), Nat.testBit_eq_decide_div_mod_eq]
  exact decide_eq_false (by omega)

theorem Params.clockHz_lt_of_wf {p : Params} (h : p.wf = true) : p.clockHz < 2 ^ 28 := by
  rw [Params.wf, Bool.and_eq_true, decide_eq_true_eq, decide_eq_true_eq] at h
  exact h.2

theorem divisor_fst_le (clk b o : Nat) : (divisor clk b o).1 ≤ clk / o :=
  Nat.div_le_div_right (Nat.div_le_self _ _)

theorem divisor_snd_le (clk b o : Nat) : (divisor clk b o).2 ≤ clk :=
  (Nat.mod_le _ _).trans (Nat.div_le_self _ _)

/-- Rounding adds at most 1 to the mantissa, by its carry, and at most 1 to the fraction (R121). -/
theorem divisorRounded_le (clk b : Nat) :
    (divisorRounded clk b).1 ≤ (divisor clk b 16).1 + 1 ∧ (divisorRounded clk b).2 ≤ (divisor clk b 16).2 + 1 := by
  simp only [divisorRounded]
  split_ifs <;> constructor <;> omega

end Sys2Proof.Machine

open Sys2Proof Sys2Proof.Machine

/-- Settles O18: a short fraction makes packing a sum, and below 2^28 neither the clock nor the rounding carry reaches
bit 32. -/
theorem packedDivisorHoldsMantissaAndFraction : Obligations.PackedDivisorHoldsMantissaAndFraction := by
  refine ⟨fun m f hf => ⟨packDivisor_toNat hf, packDivisor_bit3⟩, fun p b o hp _ _ => ?_⟩
  have hclk := Params.clockHz_lt_of_wf hp
  have hrem : p.clockHz % b ≤ p.clockHz := Nat.mod_le _ _
  have hm := divisor_fst_le p.clockHz b
  have hf := divisor_snd_le p.clockHz b
  obtain ⟨hrm, hrf⟩ := divisorRounded_le p.clockHz b
  refine ⟨by omega, packedValue_lt ?_ ((hf o).trans_lt (by omega)), packedValue_lt ?_ ?_⟩
  · exact (hm o).trans_lt ((Nat.div_le_self _ _).trans_lt hclk)
  · have := hm 16
    omega
  · have := hf 16
    omega

end

section
/-! SUPPORT. What the `atomic` blocks of field writes leave, written with the masks the statements use (R6, R44). -/

namespace Sys2Proof.Machine

open Sys2Proof

/-! ### Masks -/

/-- Writing CR2.STOP is writing its two bits, the low one first. -/
theorem setStop_eq_withBits (w : Word) (v : BitVec 2) :
    setStop w v = withBits (withBits w 0x1000 (v.getLsbD 0)) 0x2000 (v.getLsbD 1) := rfl

/-- BRR implements every bit of a packed divisor, so a write to it stores the divisor as it is (R32, R123). -/
theorem packDivisor_masked (d : Nat × Nat) : packDivisor d &&& implementedMask .brr = packDivisor d := by
  have h := packDivisor_named d
  rw [masked_zero_iff] at h
  refine word_ext fun n hn => ?_
  rw [bit_and]
  cases hm : bit (implementedMask .brr) n
  · rw [h n hn hm, Bool.and_false]
  · rw [Bool.and_true]

/-! ### An `atomic` block as one update -/

/-- The channel after an `atomic` block, on a channel that is clocked or not (R44). -/
def chanAfter (clk : Bool) (ws : List FieldWrite) (c : Channel) : Channel :=
  if clk then ws.foldl (fun c w => w.apply c) c else c

/-- An `atomic` block changes the channel and the history, and nothing else. -/
theorem writeFields_eq (ws : List FieldWrite) (s : State) :
    writeFields ws s =
      { s with chan := chanAfter s.plat.clkEn ws s.chan, hist := s.hist ++ fieldEvents s.plat.clkEn ws s.chan } := by
  apply State.ext_fields <;> simp [writeFields_chan, writeFields_events, chanAfter]

@[simp] theorem chanAfter_nil (clk : Bool) (c : Channel) : chanAfter clk [] c = c := by
  cases clk <;> rfl

theorem chanAfter_cons (clk : Bool) (w : FieldWrite) (ws : List FieldWrite) (c : Channel) :
    chanAfter clk (w :: ws) c = chanAfter clk ws (chanAfter clk [w] c) := by
  cases clk <;> rfl

theorem chanAfter_append (clk : Bool) (xs ys : List FieldWrite) (c : Channel) :
    chanAfter clk (xs ++ ys) c = chanAfter clk ys (chanAfter clk xs c) := by
  cases clk
  · rfl
  · exact List.foldl_append

theorem fieldEvents_append (clk : Bool) (xs ys : List FieldWrite) (c : Channel) :
    fieldEvents clk (xs ++ ys) c = fieldEvents clk xs c ++ fieldEvents clk ys (chanAfter clk xs c) := by
  induction xs generalizing c with
  | nil => rw [chanAfter_nil]; rfl
  | cons x xs ih => rw [chanAfter_cons, List.cons_append, fieldEvents, ih]; rfl

/-! ### A statement that is made only where a mask selects it -/

/-- A register with bit `n` written where the condition holds. -/
def writeBitIf (p : Bool) (n : Nat) (v : Bool) (w : Word) : Word := if p then setBit w n v else w

theorem bit_writeBitIf (p v : Bool) (w : Word) (n m : Nat) (hn : n < 32) :
    bit (writeBitIf p n v w) m = if p = true ∧ m = n then v else bit w m := by
  cases p
  · simp [writeBitIf]
  · simpa [writeBitIf] using bit_setBit w n m v hn

/-- A selected CR1 statement changes CR1 alone, on a clocked channel. -/
theorem chanAfter_selected_cr1 (clk sel v : Bool) (n : Nat) (c : Channel) :
    chanAfter clk (if sel then [.cr1 n v] else []) c = { c with cr1 := writeBitIf (clk && sel) n v c.cr1 } := by
  cases clk <;> cases sel <;> rfl

/-- A selected CR3 statement changes CR3 alone, on a clocked channel. -/
theorem chanAfter_selected_cr3 (clk sel v : Bool) (n : Nat) (c : Channel) :
    chanAfter clk (if sel then [.cr3 n v] else []) c = { c with cr3 := writeBitIf (clk && sel) n v c.cr3 } := by
  cases clk <;> cases sel <;> rfl

/-- A selected statement appends one RegWr, of what its register holds after it. -/
theorem fieldEvents_selected (clk sel : Bool) (w : FieldWrite) (c : Channel) :
    fieldEvents clk (if sel then [w] else []) c =
      if sel then [.regWr w.reg ((chanAfter clk (if sel then [w] else []) c).value w.reg)] else [] := by
  cases clk <;> cases sel <;> rfl

/-! ### The interrupt enables (R182, R184) -/

section
variable (clk : Bool) (mask : Word) (v : Bool) (c : Channel)

/-- The enable statements change CR1 and CR3 alone. -/
theorem chanAfter_enableBitWrites :
    chanAfter clk (enableBitWrites mask v) c =
      { c with
        cr1 :=
          writeBitIf (clk && bit mask 2) Cr1.tcie v
            (writeBitIf (clk && bit mask 1) Cr1.txeie v (writeBitIf (clk && bit mask 0) Cr1.rxneie v c.cr1))
        cr3 := writeBitIf (clk && bit mask 3) Cr3.eie v c.cr3 } := by
  simp only [enableBitWrites, chanAfter_append, chanAfter_selected_cr1, chanAfter_selected_cr3]

theorem bit_cr1_enableBitWrites (n : Nat) :
    bit (chanAfter clk (enableBitWrites mask v) c).cr1 n =
      if clk = true ∧
          (n = Cr1.rxneie ∧ bit mask 0 = true ∨ n = Cr1.txeie ∧ bit mask 1 = true ∨ n = Cr1.tcie ∧ bit mask 2 = true)
      then v else bit c.cr1 n := by
  rw [chanAfter_enableBitWrites]
  simp (disch := decide) only [bit_writeBitIf, Bool.and_eq_true]
  split_ifs <;> tauto

theorem bit_cr3_enableBitWrites (n : Nat) :
    bit (chanAfter clk (enableBitWrites mask v) c).cr3 n =
      if clk = true ∧ n = Cr3.eie ∧ bit mask 3 = true then v else bit c.cr3 n := by
  rw [chanAfter_enableBitWrites]
  simp (disch := decide) only [bit_writeBitIf, Bool.and_eq_true]
  split_ifs <;> tauto

/-- The events of the enable statements: one RegWr for each selected bit, on a clocked channel with the register's whole
value after the statement. -/
theorem fieldEvents_enableBitWrites :
    ∃ v1 v2 v3 v4 : Word,
      fieldEvents clk (enableBitWrites mask v) c =
        (if bit mask 0 then [Event.regWr .cr1 v1] else []) ++ (if bit mask 1 then [Event.regWr .cr1 v2] else [])
          ++ (if bit mask 2 then [Event.regWr .cr1 v3] else [])
          ++ (if bit mask 3 then [Event.regWr .cr3 v4] else []) ∧
      (clk = true →
        v1 = (if bit mask 0 then withBits c.cr1 0x20 v else c.cr1) ∧
        v2 = (if bit mask 1 then withBits v1 0x80 v else v1) ∧
        v3 = (if bit mask 2 then withBits v2 0x40 v else v2) ∧
        v4 = (if bit mask 3 then withBits c.cr3 0x01 v else c.cr3) ∧
        (chanAfter clk (enableBitWrites mask v) c).cr1 = v3 ∧ (chanAfter clk (enableBitWrites mask v) c).cr3 = v4) := by
  simp only [enableBitWrites, fieldEvents_append, fieldEvents_selected, chanAfter_append, chanAfter_selected_cr1,
    chanAfter_selected_cr3]
  refine ⟨_, _, _, _, rfl, ?_⟩
  rintro rfl
  exact ⟨rfl, rfl, rfl, rfl, rfl, rfl⟩

end

/-! ### The two commands, position by position -/

section
variable {r : Running} {s : State} (hr : s.phase = .running r)
include hr

/-- Where FG is Running at `r` the step is what the command does there (R50). -/
theorem whileRunning_of_running (k : Running → Result) : whileRunning s k = k r := by
  rw [whileRunning, hr]

theorem exec_enableInterrupts_entry (mask : Word) (hm : r.mpc = .entry) :
    exec (.enableInterrupts mask) s =
      .next
        (if mask.toNat ≤ 15 then
          setRunning { r with mpc := .conclude } (armLine (writeFields (enableBitWrites mask true) s))
        else raiseFault .badArg s) := by
  simp only [exec, execEnableInterrupts, whileRunning_of_running hr, hm, ← Bool.not_eq_true, maskLegal_iff,
    stepRaise_unchanged hr]
  split_ifs <;> rfl

theorem exec_disableInterrupts_entry (mask : Word) (hm : r.mpc = .entry) :
    exec (.disableInterrupts mask) s =
      .next
        (if mask.toNat ≤ 15 then setRunning { r with mpc := .conclude } (writeFields (enableBitWrites mask false) s)
        else raiseFault .badArg s) := by
  simp only [exec, execDisableInterrupts, whileRunning_of_running hr, hm, ← Bool.not_eq_true, maskLegal_iff,
    stepRaise_unchanged hr]
  split_ifs <;> rfl

theorem exec_enableInterrupts_conclude (mask : Word) (hm : r.mpc = .conclude) :
    exec (.enableInterrupts mask) s = .next (finish r s) := by
  simp only [exec, execEnableInterrupts, whileRunning_of_running hr, hm]

theorem exec_disableInterrupts_conclude (mask : Word) (hm : r.mpc = .conclude) :
    exec (.disableInterrupts mask) s = .next (finish r s) := by
  simp only [exec, execDisableInterrupts, whileRunning_of_running hr, hm]

end

end Sys2Proof.Machine

open Sys2Proof Sys2Proof.Machine

/-- Settles O31: the enable statements write only their selected bits, and the line is armed after them. -/
theorem enableInterruptsSetsItsBits : Obligations.EnableInterruptsSetsItsBits := by
  intro mask s r hr
  refine ⟨fun hm h => ?_, fun hm h => ?_, exec_enableInterrupts_conclude hr mask⟩
  · rw [exec_enableInterrupts_entry hr mask hm, if_neg (by omega)]
  · refine ⟨_, fieldEvents s.plat.clkEn (enableBitWrites mask true) s.chan,
      (exec_enableInterrupts_entry hr mask hm).trans (by rw [if_pos h, writeFields_eq]), ?_,
      fieldEvents_enableBitWrites _ _ _ _, bit_cr1_enableBitWrites _ _ _ _, bit_cr3_enableBitWrites _ _ _ _⟩
    apply State.ext_fields <;> simp [chanAfter_enableBitWrites]

/-- Settles O32: the same statements with the value 0, and nothing that disarms the line. -/
theorem disableInterruptsClearsItsBits : Obligations.DisableInterruptsClearsItsBits := by
  intro mask s r hr
  refine ⟨fun hm h => ?_, fun hm h => ?_, exec_disableInterrupts_conclude hr mask⟩
  · rw [exec_disableInterrupts_entry hr mask hm, if_neg (by omega)]
  · refine ⟨_, fieldEvents s.plat.clkEn (enableBitWrites mask false) s.chan,
      (exec_disableInterrupts_entry hr mask hm).trans (by rw [if_pos h, writeFields_eq]), ?_,
      fieldEvents_enableBitWrites _ _ _ _, bit_cr1_enableBitWrites _ _ _ _, bit_cr3_enableBitWrites _ _ _ _⟩
    apply State.ext_fields <;> simp [chanAfter_enableBitWrites]

end

section
/-! SUPPORT. INIT_CONFIG, position by position, and what its `atomic` block leaves (R126, R127). -/

namespace Sys2Proof.Machine

open Sys2Proof

section
variable {r : Running} {s : State} (hr : s.phase = .running r)
include hr

/-- INIT_CONFIG's first step: the three refusals in their order, then the `atomic` block. -/
theorem exec_initConfig_entry (present baud cfg : Word) (hm : r.mpc = .entry) :
    exec (.initConfig present baud cfg) s =
      .next
        (if present = 0 then finish r (writeR0 .busy s)
        else if cfg.extractLsb' 10 22 ≠ 0 ∨ cfg.extractLsb' 3 2 = 3#2 then
          setRunning { r with locals := configWord cfg r.locals } (raiseFault .badArg s)
        else if baud = 0 then
          setRunning { r with locals := configWord cfg r.locals } (raiseFault .divideByZero s)
        else
          setRunning { r with mpc := .conclude, locals := configLocals cfg r.locals }
            (writeFields (initConfigWrites s.params.clockHz baud cfg) (enableClockAndPins s))) := by
  have hl : cfgLegal cfg = false ↔ cfg.extractLsb' 10 22 ≠ 0 ∨ cfg.extractLsb' 3 2 = 3#2 := by
    rw [cfgLegal, Bool.and_eq_false_iff, beq_eq_false_iff_ne, Bool.not_eq_false', beq_iff_eq]
  simp only [exec, execInitConfig, whileRunning_of_running hr, hm, hl]
  split_ifs <;> rfl

theorem exec_initConfig_conclude (present baud cfg : Word) (hm : r.mpc = .conclude) :
    exec (.initConfig present baud cfg) s = .next (finish r (writeR0 .ok s)) := by
  simp only [exec, execInitConfig, whileRunning_of_running hr, hm, finishWith]

end

/-- The locals INIT_CONFIG assigns, with the oversampling factor written as a condition (R126). -/
theorem configLocals_eq (cfg : Word) (l : Locals) :
    configLocals cfg l = { l with c := cfg, o := if bit cfg 7 then 8 else 16 } := by
  rw [configLocals, configWord, oversampling]
  split_ifs <;> rfl

/-- CR1 after INIT_CONFIG's statements on it, in program order (R126, R127). -/
def initConfigCr1 (cfg w : Word) : Word :=
  let w := setBit w Cr1.ue false
  let w := setBit w Cr1.over8 (bit cfg 7)
  let w := setBit w Cr1.m (bit cfg 0)
  let w := setBit w Cr1.pce (decide (cfg.extractLsb' 3 2 ≠ 0#2))
  let w := setBit w Cr1.ps (decide (cfg.extractLsb' 3 2 = 2#2))
  let w := setBit w Cr1.te (bit cfg 5)
  let w := setBit w Cr1.re (bit cfg 6)
  setBit w Cr1.ue true

/-- Each field of CR1 holds what the CFG word says, UE is 1 by the last write to it, and no other bit changed. -/
theorem bit_initConfigCr1 (cfg w : Word) (n : Nat) :
    bit (initConfigCr1 cfg w) n =
      if n = Cr1.ue then true
      else if n = Cr1.over8 then bit cfg 7
      else if n = Cr1.m then bit cfg 0
      else if n = Cr1.pce then decide (cfg.extractLsb' 3 2 ≠ 0#2)
      else if n = Cr1.ps then decide (cfg.extractLsb' 3 2 = 2#2)
      else if n = Cr1.te then bit cfg 5
      else if n = Cr1.re then bit cfg 6
      else bit w n := by
  simp (disch := decide) only [initConfigCr1, bit_setBit]
  by_cases h : n ∈ [Cr1.ue, Cr1.over8, Cr1.m, Cr1.pce, Cr1.ps, Cr1.te, Cr1.re]
  · fin_cases h <;> rfl
  · simp only [List.mem_cons, List.not_mem_nil, or_false, not_or] at h
    simp only [h, if_false]

/-- CR3 takes RTSE and CTSE from the CFG word, and no other bit (R127). -/
theorem bit_initConfigCr3 (cfg w : Word) (n : Nat) :
    bit (setBit (setBit w Cr3.rtse (bit cfg 8)) Cr3.ctse (bit cfg 9)) n =
      if n = Cr3.rtse then bit cfg 8 else if n = Cr3.ctse then bit cfg 9 else bit w n := by
  simp (disch := decide) only [bit_setBit]
  by_cases h : n = Cr3.rtse
  · subst h; rfl
  · simp only [h, if_false]

section
variable (clk : Nat) (baud cfg : Word) (c : Channel)

/-- The statements of INIT_CONFIG's block, with the parity tests and the oversampling factor written as conditions. -/
theorem initConfigWrites_eq :
    initConfigWrites clk baud cfg =
      [.cr1 Cr1.ue false, .cr1 Cr1.over8 (bit cfg 7),
       .brr (packDivisor (divisor clk baud.toNat (if bit cfg 7 then 8 else 16))),
       .cr1 Cr1.m (bit cfg 0), .cr1 Cr1.pce (decide (cfg.extractLsb' 3 2 ≠ 0#2)),
       .cr1 Cr1.ps (decide (cfg.extractLsb' 3 2 = 2#2)), .cr2Stop (cfg.extractLsb' 1 2),
       .cr3 Cr3.rtse (bit cfg 8), .cr3 Cr3.ctse (bit cfg 9), .cr1 Cr1.te (bit cfg 5), .cr1 Cr1.re (bit cfg 6),
       .cr1 Cr1.ue true] := by
  rw [decide_not]
  rfl

/-- The channel INIT_CONFIG leaves: BRR, CR1, CR2 and CR3 change. -/
theorem chanAfter_initConfigWrites :
    chanAfter true (initConfigWrites clk baud cfg) c =
      { c with
        brr := packDivisor (divisor clk baud.toNat (if bit cfg 7 then 8 else 16))
        cr1 := initConfigCr1 cfg c.cr1
        cr2 := setStop c.cr2 (cfg.extractLsb' 1 2)
        cr3 := setBit (setBit c.cr3 Cr3.rtse (bit cfg 8)) Cr3.ctse (bit cfg 9) } := by
  simp only [chanAfter, if_true, initConfigWrites_eq, List.foldl, FieldWrite.apply, Channel.afterWrite,
    packDivisor_masked]
  rfl

/-- The STOP field of the CFG word reaches bits 12 and 13 of CR2 (R127). -/
theorem setStop_cfg (w : Word) :
    setStop w (cfg.extractLsb' 1 2) = withBits (withBits w 0x1000 (bit cfg 1)) 0x2000 (bit cfg 2) := by
  have hbit (i : Nat) (hi : i < 2) : (cfg.extractLsb' 1 2).getLsbD i = bit cfg (1 + i) := by simp [bit, hi]
  rw [setStop_eq_withBits, hbit 0 (by decide), hbit 1 (by decide)]

end

end Sys2Proof.Machine

open Sys2Proof Sys2Proof.Machine

/-- Settles O21: the refusals are tested in their order, and past them the twelve statements run on a clocked
channel. -/
theorem initConfigProgramsTheChannel : Obligations.InitConfigProgramsTheChannel := by
  intro present baud cfg s r hr
  refine ⟨fun hm hp => ?_, fun hm hp hc => ?_, fun hm hp hc hpar hb => ?_, fun hm hp hc hpar hb => ?_,
    exec_initConfig_conclude hr present baud cfg⟩
  · rw [exec_initConfig_entry hr present baud cfg hm, if_pos hp]
  · rw [exec_initConfig_entry hr present baud cfg hm, if_neg hp, if_pos hc]
    rfl
  · rw [exec_initConfig_entry hr present baud cfg hm, if_neg hp, if_neg (by tauto), if_pos hb]
    rfl
  · have hexec := exec_initConfig_entry hr present baud cfg hm
    rw [if_neg hp, if_neg (by tauto), if_neg hb, writeFields_eq, configLocals_eq] at hexec
    simp only [enableClockAndPins_plat, enableClockAndPins_chan, enableClockAndPins_hist,
      chanAfter_initConfigWrites] at hexec
    refine ⟨_, _, hexec, rfl, ⟨rfl, ?_, rfl, ?_⟩, rfl, bit_initConfigCr1 _ _, stopField_setStop _ _, ?_, ?_⟩
    · exact setStop_cfg _ _
    · -- Each mask of the statement is the shifted bit that `setBit` writes, so the values agree by computation.
      rw [initConfigWrites_eq]
      simp only [fieldEvents, if_true, FieldWrite.reg, FieldWrite.apply, Channel.afterWrite, Channel.value,
        packDivisor_masked, setStop_cfg]
      rfl
    · intro n h12 h13
      exact (bit_setStop _ _ _).trans (by rw [if_neg h13, if_neg h12])
    · exact bit_initConfigCr3 _ _

end

section
/-! SUPPORT. What one access, one FG step and one LINE event leave alone and what they keep, said once for each part of
the state (R6, R44, R50); the invariants below are read off these. -/

namespace Sys2Proof.Machine

open Sys2Proof

/-! ### The parts of the state no access touches -/

/-- What the state keeps in every access of FG (R6) and in every LINE event: all but the timebase, the channel, the
platform bits, the history and caller memory. -/
structure KeepsControl (s t : State) : Prop where
  ci : t.ci = s.ci
  phase : t.phase = s.phase
  hpc : t.hpc = s.hpc
  fault : t.fault = s.fault
  params : t.params = s.params
  program : t.program = s.program
  schedule : t.schedule = s.schedule

theorem Access.keepsControl {i : Instr} {r : Running} {s t : State} (h : Access i r s t) : KeepsControl s t := by
  cases h <;> constructor <;> simp

/-- LINE touches only the channel and the history (R201 to R204, R208). -/
theorem lineEffect_eq (e : LineEvent) (s : State) :
    lineEffect e s = { s with chan := (lineEffect e s).chan, hist := (lineEffect e s).hist } := by
  cases e with
  | rx b pe fe nf => simp only [lineEffect]; split <;> rfl
  | _ => rfl

theorem lineEffect_tb (e : LineEvent) (s : State) : (lineEffect e s).tb = s.tb := by rw [lineEffect_eq]

theorem lineEffect_plat (e : LineEvent) (s : State) : (lineEffect e s).plat = s.plat := by rw [lineEffect_eq]

theorem lineEffect_keepsControl (e : LineEvent) (s : State) : KeepsControl s (lineEffect e s) := by
  rw [lineEffect_eq]
  constructor <;> rfl

/-! ### The instruction's step: the tick's, or one of FG's effects -/

/-- A tick that has a next state leaves the state as it is or advances the counter (R102). -/
theorem exec_tbTick_cases {s t : State} (h : exec .tbTick s = .next t) : t = s ∨ t = tickCounter s := by
  simp only [exec, execTbTick] at h
  split at h <;> cases h
  · exact .inr rfl
  · exact .inl rfl

/-- An instruction's step is the tick's or, from a Running state, one of FG's effects. -/
theorem exec_cases {i : Instr} {s t : State} (h : exec i s = .next t) :
    (i = .tbTick ∧ (t = s ∨ t = tickCounter s)) ∨ ∃ r, s.phase = .running r ∧ FgEffect i r s t := by
  by_cases hi : i = .tbTick
  · subst hi
    exact .inl ⟨rfl, exec_tbTick_cases h⟩
  · obtain ⟨r, hr⟩ := exec_running hi h
    exact .inr ⟨r, hr, exec_effect hi hr h⟩

/-! ### Status flags and the line's own state (R30, R40) -/

/-- From `c` to `d` no status flag is set, and RDR, the shift register and the line trace are as before. -/
structure FlagsOnlyFall (c d : Channel) : Prop where
  sr : ∀ n, bit d.sr n = true → bit c.sr n = true
  rdr : d.rdr = c.rdr
  shiftBusy : d.shiftBusy = c.shiftBusy
  shiftData : d.shiftData = c.shiftData
  txLine : d.txLine = c.txLine

theorem FlagsOnlyFall.refl (c : Channel) : FlagsOnlyFall c c := ⟨fun _ h => h, rfl, rfl, rfl, rfl⟩

theorem FlagsOnlyFall.trans {c d e : Channel} (h : FlagsOnlyFall c d) (h' : FlagsOnlyFall d e) : FlagsOnlyFall c e :=
  ⟨fun n hn => h.sr n (h'.sr n hn), h'.rdr.trans h.rdr, h'.shiftBusy.trans h.shiftBusy,
    h'.shiftData.trans h.shiftData, h'.txLine.trans h.txLine⟩

/-- A read clears SR bits and sets none (R66). -/
theorem afterRead_flagsOnlyFall (c : Channel) (g : ChanReg) : FlagsOnlyFall c (c.afterRead g) := by
  cases g with
  | dr =>
    refine ⟨fun n h => ?_, rfl, rfl, rfl, rfl⟩
    rw [Channel.afterRead, bit_and, Bool.and_eq_true] at h
    exact h.1
  | _ => exact ⟨fun _ h => h, rfl, rfl, rfl, rfl⟩

/-- SR after a DR write: TXE is 0, TC is 0 where it was armed, and no other bit changes (R67). -/
theorem bit_srAfterDataWrite (c : Channel) (n : Nat) :
    bit (srAfterDataWrite c) n =
      if n = Sr.txe then false else if n = Sr.tc then bit c.sr n && !c.tcArmed else bit c.sr n := by
  unfold srAfterDataWrite
  cases c.tcArmed
  · simp (disch := decide) [bit_setBit]
  · simp (disch := decide) only [if_true, bit_setBit]
    by_cases h : n = Sr.txe
    · subst h
      rfl
    · simp [h]

/-- A write clears SR bits and sets none (R67). -/
theorem afterWrite_flagsOnlyFall (c : Channel) (g : ChanReg) (v : Word) : FlagsOnlyFall c (c.afterWrite g v) := by
  cases g with
  | dr =>
    refine ⟨fun n h => ?_, rfl, rfl, rfl, rfl⟩
    rw [Channel.afterWrite, bit_srAfterDataWrite] at h
    split_ifs at h
    · exact (Bool.and_eq_true _ _ ▸ h).1
    · exact h
  | _ => exact ⟨fun _ h => h, rfl, rfl, rfl, rfl⟩

theorem fieldWrite_flagsOnlyFall (w : FieldWrite) (c : Channel) : FlagsOnlyFall c (w.apply c) := by
  cases w <;> exact ⟨fun _ h => h, rfl, rfl, rfl, rfl⟩

/-- An `atomic` block of field writes sets no status flag. -/
theorem chanAfter_flagsOnlyFall (clk : Bool) (ws : List FieldWrite) (c : Channel) :
    FlagsOnlyFall c (chanAfter clk ws c) := by
  induction ws generalizing c with
  | nil => rw [chanAfter_nil]; exact .refl c
  | cons w ws ih =>
    rw [chanAfter_cons]
    refine .trans ?_ (ih _)
    cases clk
    · exact .refl c
    · exact fieldWrite_flagsOnlyFall w c

theorem regRead_flagsOnlyFall (g : ChanReg) (s : State) : FlagsOnlyFall s.chan (regRead g s).chan := by
  rw [regRead_chan]
  split
  · exact afterRead_flagsOnlyFall _ g
  · exact .refl _

theorem regWrite_flagsOnlyFall (g : ChanReg) (v : Word) (s : State) : FlagsOnlyFall s.chan (regWrite g v s).chan := by
  rw [regWrite_chan]
  split
  · exact afterWrite_flagsOnlyFall _ g v
  · exact .refl _

theorem writeFields_flagsOnlyFall (ws : List FieldWrite) (s : State) :
    FlagsOnlyFall s.chan (writeFields ws s).chan := by
  rw [writeFields_eq]
  exact chanAfter_flagsOnlyFall _ ws _

theorem Access.flagsOnlyFall {i : Instr} {r : Running} {s t : State} (h : Access i r s t) :
    FlagsOnlyFall s.chan t.chan := by
  cases h with
  | readCr1 | readStatus | readData => exact regRead_flagsOnlyFall _ s
  | writeData v => exact regWrite_flagsOnlyFall _ v s
  | readTick | readByte | writeByte | startTicks => exact .refl _
  | initialise ws => exact writeFields_flagsOnlyFall ws (enableClockAndPins s)
  | enableBits mask => exact writeFields_flagsOnlyFall (enableBitWrites mask true) s
  | disableBits mask => exact writeFields_flagsOnlyFall _ s
  | updateBaud baud => exact (regRead_flagsOnlyFall .cr1 s).trans (writeFields_flagsOnlyFall _ _)

/-- Only an access changes the channel, so every FG step does to it what an access, or nothing, does. -/
theorem FgEffect.chan {i : Instr} {r : Running} {s t : State} (h : FgEffect i r s t) :
    t.chan = s.chan ∨ ∃ u, Access i r s u ∧ t.chan = u.chan := by
  cases h with
  | moved r' u hu => exact .inr ⟨u, hu, rfl⟩
  | _ => exact .inl rfl

theorem FgEffect.flagsOnlyFall {i : Instr} {r : Running} {s t : State} (h : FgEffect i r s t) :
    FlagsOnlyFall s.chan t.chan := by
  obtain h | ⟨u, hu, h⟩ := h.chan <;> rw [h]
  · exact .refl _
  · exact hu.flagsOnlyFall

end Sys2Proof.Machine

open Sys2Proof Sys2Proof.Machine

/-- Settles O44: the tick leaves the channel alone, and FG's accesses only clear flags. -/
theorem noInstructionSetsAStatusFlag : Obligations.NoInstructionSetsAStatusFlag := by
  intro i s t h
  have hfall : FlagsOnlyFall s.chan t.chan := by
    obtain ⟨-, rfl | rfl⟩ | ⟨r, -, he⟩ := exec_cases h
    · exact .refl _
    · exact .refl _
    · exact he.flagsOnlyFall
  exact ⟨hfall.sr, hfall.rdr, hfall.shiftBusy, hfall.shiftData, hfall.txLine⟩

end

section
/-! SUPPORT. What an access does to the timebase, the platform bits and the configuration registers BRR, CR1, CR2 and
CR3 (R22, R23, R32 to R35, R43), and the invariant over their unwritten bits (R30 to R37, R205). -/

namespace Sys2Proof.Machine

open Sys2Proof

/-! ### The timebase (R22, R23) -/

/-- Only TB_INIT's access touches the timebase. -/
theorem Access.tb {i : Instr} {r : Running} {s t : State} (h : Access i r s t) :
    t.tb = s.tb ∨ i = .tbInit ∧ t = startTickSource s := by
  cases h with
  | startTicks hi => exact .inr ⟨hi, rfl⟩
  | _ => exact .inl (by simp)

/-- Outside its access an FG step leaves the timebase and the platform bits as they are. -/
theorem FgEffect.tb_plat {i : Instr} {r : Running} {s t : State} (h : FgEffect i r s t) :
    t.tb = s.tb ∧ t.plat = s.plat ∨ ∃ u, Access i r s u ∧ t.tb = u.tb ∧ t.plat = u.plat := by
  cases h with
  | moved r' u hu => exact .inr ⟨u, hu, rfl, rfl⟩
  | _ => exact .inl ⟨rfl, rfl⟩

theorem FgEffect.tb {i : Instr} {r : Running} {s t : State} (h : FgEffect i r s t) :
    t.tb = s.tb ∨ i = .tbInit ∧ t.tb = (startTickSource s).tb := by
  obtain ⟨h, -⟩ | ⟨u, hu, h, -⟩ := h.tb_plat
  · exact .inl h
  · obtain hu | ⟨hi, rfl⟩ := hu.tb
    · exact .inl (h.trans hu)
    · exact .inr ⟨hi, h⟩

theorem FgEffect.tickCnt {i : Instr} {r : Running} {s t : State} (h : FgEffect i r s t) :
    t.tb.tickCnt = s.tb.tickCnt := by
  obtain h | ⟨-, h⟩ := h.tb <;> rw [h]
  rfl

/-! ### The configuration registers -/

/-- BRR, CR1, CR2 and CR3 hold the same in both channels. -/
structure SameConfig (c d : Channel) : Prop where
  brr : d.brr = c.brr
  cr1 : d.cr1 = c.cr1
  cr2 : d.cr2 = c.cr2
  cr3 : d.cr3 = c.cr3

theorem SameConfig.refl (c : Channel) : SameConfig c c := ⟨rfl, rfl, rfl, rfl⟩

/-- A read leaves the configuration registers as they are (R66). -/
theorem regRead_sameConfig (g : ChanReg) (s : State) : SameConfig s.chan (regRead g s).chan := by
  rw [regRead_chan]
  split
  · cases g <;> exact ⟨rfl, rfl, rfl, rfl⟩
  · exact .refl _

/-- A DR write leaves the configuration registers as they are (R67). -/
theorem regWrite_dr_sameConfig (v : Word) (s : State) : SameConfig s.chan (regWrite .dr v s).chan := by
  rw [regWrite_chan]
  split
  · exact ⟨rfl, rfl, rfl, rfl⟩
  · exact .refl _

/-- LINE leaves the configuration registers as they are (R201 to R204, R208). -/
theorem lineEffect_sameConfig (e : LineEvent) (s : State) : SameConfig s.chan (lineEffect e s).chan := by
  cases e with
  | rx b pe fe nf => simp only [lineEffect]; split <;> exact ⟨rfl, rfl, rfl, rfl⟩
  | _ => exact ⟨rfl, rfl, rfl, rfl⟩

/-- An instruction that is none of the configuring ones leaves the configuration registers and the platform bits as they
are. -/
theorem Access.sameConfig {i : Instr} {r : Running} {s t : State} (h : Access i r s t) (hi : configures i = false) :
    SameConfig s.chan t.chan ∧ t.plat = s.plat := by
  cases h with
  | readCr1 | readStatus | readData => exact ⟨regRead_sameConfig _ s, rfl⟩
  | writeData v => exact ⟨regWrite_dr_sameConfig v s, rfl⟩
  | readTick | readByte | writeByte | startTicks => exact ⟨.refl _, rfl⟩
  | initialise _ _ hc | enableBits _ hc | disableBits _ hc | updateBaud _ hc => rw [hc] at hi; cases hi

theorem FgEffect.sameConfig {i : Instr} {r : Running} {s t : State} (h : FgEffect i r s t)
    (hi : configures i = false) : SameConfig s.chan t.chan ∧ t.plat = s.plat := by
  cases h with
  | moved r' u hu => exact hu.sameConfig hi
  | _ => exact ⟨.refl _, rfl⟩

/-! ### The bits no command writes (R30 to R37, R205) -/

/-- The bits of BRR, CR1, CR2 and CR3 that no command writes are 0. -/
structure ConfigBitsZero (c : Channel) : Prop where
  brr : c.brr &&& ~~~(writtenMask .brr) = 0
  cr1 : c.cr1 &&& ~~~(writtenMask .cr1) = 0
  cr2 : c.cr2 &&& ~~~(writtenMask .cr2) = 0
  cr3 : c.cr3 &&& ~~~(writtenMask .cr3) = 0

theorem ConfigBitsZero.of_same {c d : Channel} (h : ConfigBitsZero c) (hs : SameConfig c d) : ConfigBitsZero d :=
  ⟨hs.brr ▸ h.brr, hs.cr1 ▸ h.cr1, hs.cr2 ▸ h.cr2, hs.cr3 ▸ h.cr3⟩

/-- Writing a bit inside a mask leaves the bits outside it 0. -/
theorem setBit_masked_zero {w m : Word} {n : Nat} (v : Bool) (hn : n < 32) (hm : bit m n = true)
    (h : w &&& ~~~m = 0) : setBit w n v &&& ~~~m = 0 := by
  rw [masked_zero_iff] at h ⊢
  intro k hk hmk
  rw [bit_setBit w n k v hn, if_neg (by rintro rfl; rw [hm] at hmk; cases hmk)]
  exact h k hk hmk

/-- A bit that a CR1 statement writes is one of CR1's written bits (R33). -/
theorem writtenMask_cr1_of_mem {n : Nat} (h : n ∈ [2, 3, 5, 6, 7, 9, 10, 12, 13, 15]) :
    n < 32 ∧ bit (writtenMask .cr1) n = true := by
  fin_cases h <;> decide

/-- A bit that a CR3 statement writes is one of CR3's written bits (R35). -/
theorem writtenMask_cr3_of_mem {n : Nat} (h : n ∈ [0, 8, 9]) : n < 32 ∧ bit (writtenMask .cr3) n = true := by
  fin_cases h <;> decide

theorem FieldWrite.named.configBitsZero {w : FieldWrite} {c : Channel} (hw : w.named) (h : ConfigBitsZero c) :
    ConfigBitsZero (w.apply c) := by
  cases w with
  | brr v =>
    refine { h with brr := ?_ }
    change (v &&& implementedMask .brr) &&& ~~~(implementedMask .brr) = 0
    rw [BitVec.and_assoc, BitVec.and_not_self]
    exact BitVec.and_zero
  | cr1 n v =>
    obtain ⟨hn, hm⟩ := writtenMask_cr1_of_mem hw
    exact { h with cr1 := setBit_masked_zero v hn hm h.cr1 }
  | cr2Stop v =>
    have h12 := setBit_masked_zero (v.getLsbD 0) (n := 12) (by decide) (by decide) h.cr2
    exact { h with cr2 := setBit_masked_zero (v.getLsbD 1) (n := 13) (by decide) (by decide) h12 }
  | cr3 n v =>
    obtain ⟨hn, hm⟩ := writtenMask_cr3_of_mem hw
    exact { h with cr3 := setBit_masked_zero v hn hm h.cr3 }

theorem writeFields_configBitsZero {ws : List FieldWrite} (hw : ∀ w ∈ ws, w.named) {s : State}
    (h : ConfigBitsZero s.chan) : ConfigBitsZero (writeFields ws s).chan := by
  rw [writeFields_chan]
  split
  · exact List.foldlRecOn ws _ h fun c hc w hmem => (hw w hmem).configBitsZero hc
  · exact h

theorem Access.configBitsZero {i : Instr} {r : Running} {s t : State} (h : Access i r s t)
    (hz : ConfigBitsZero s.chan) : ConfigBitsZero t.chan := by
  cases h with
  | readCr1 | readStatus | readData => exact hz.of_same (regRead_sameConfig _ s)
  | writeData v => exact hz.of_same (regWrite_dr_sameConfig v s)
  | readTick | readByte | writeByte | startTicks => exact hz
  | initialise ws hw => exact writeFields_configBitsZero hw hz
  | enableBits mask => exact writeFields_configBitsZero (enableBitWrites_named mask true) hz
  | disableBits mask => exact writeFields_configBitsZero (enableBitWrites_named mask false) hz
  | updateBaud baud =>
    exact writeFields_configBitsZero (updateBaudWrites_named _ _ _) (hz.of_same (regRead_sameConfig .cr1 s))

/-- The SR bits that must be 0: the reserved ones and, in the device model, IDLE, LBD and CTS (R30, R205). -/
def srMustBeZero (p : Params) (n : Nat) : Prop :=
  10 ≤ n ∨ p.envModel = .device ∧ (n = Sr.idle ∨ n = Sr.lbd ∨ n = Sr.cts)

theorem bit_srImplemented (n : Nat) (hn : n < 32) : bit (implementedMask .sr) n = decide (n < 10) := by
  interval_cases n <;> decide

/-- The invariant of the unwritten bits, in SR bit by bit and in the configuration registers. -/
theorem unwrittenBitsZero_iff (s : State) :
    UnwrittenBitsZero s ↔ (∀ n, srMustBeZero s.params n → bit s.chan.sr n = false) ∧ ConfigBitsZero s.chan := by
  have hsr : s.chan.sr &&& ~~~(implementedMask .sr) = 0 ↔ ∀ n, 10 ≤ n → bit s.chan.sr n = false := by
    rw [masked_zero_iff]
    refine ⟨fun h n hn => ?_, fun h n hn hm => h n ?_⟩
    · by_cases h32 : n < 32
      · exact h n h32 ((bit_srImplemented n h32).trans (decide_eq_false (by omega)))
      · exact BitVec.getLsbD_of_ge _ _ (by omega)
    · rw [bit_srImplemented n hn] at hm
      simpa using hm
  rw [UnwrittenBitsZero, hsr]
  constructor
  · rintro ⟨hres, hbrr, hcr1, hcr2, hcr3, hdev⟩
    refine ⟨?_, hbrr, hcr1, hcr2, hcr3⟩
    rintro n (hn | ⟨he, rfl | rfl | rfl⟩)
    · exact hres n hn
    · exact (hdev he).1
    · exact (hdev he).2.1
    · exact (hdev he).2.2
  · rintro ⟨hsr, hbrr, hcr1, hcr2, hcr3⟩
    exact ⟨fun n hn => hsr n (.inl hn), hbrr, hcr1, hcr2, hcr3, fun he =>
      ⟨hsr _ (.inr ⟨he, .inl rfl⟩), hsr _ (.inr ⟨he, .inr (.inl rfl)⟩), hsr _ (.inr ⟨he, .inr (.inr rfl)⟩)⟩⟩

/-- The invariant speaks of the channel and the parameters alone. -/
theorem UnwrittenBitsZero.congr {s t : State} (h : UnwrittenBitsZero s) (hp : t.params = s.params)
    (hc : t.chan = s.chan) : UnwrittenBitsZero t := by
  rw [unwrittenBitsZero_iff] at h ⊢
  rwa [hp, hc]

theorem UnwrittenBitsZero.access {i : Instr} {r : Running} {s t : State} (h : UnwrittenBitsZero s)
    (ha : Access i r s t) : UnwrittenBitsZero t := by
  rw [unwrittenBitsZero_iff] at h ⊢
  obtain ⟨hsr, hcfg⟩ := h
  rw [ha.keepsControl.params]
  refine ⟨fun n hn => ?_, ha.configBitsZero hcfg⟩
  rw [← Bool.not_eq_true]
  intro hbit
  have := ha.flagsOnlyFall.sr n hbit
  rw [hsr n hn] at this
  cases this

/-! ### What LINE does to SR -/

/-- The free change replaces SR[9:0] and keeps the bits above (R208). -/
theorem bit_srWithFlags (w : Word) (v : BitVec 10) (n : Nat) :
    bit (srWithFlags w v) n = if n < 10 then v.getLsbD n else bit w n := by
  by_cases hn : n < 32
  · have hv : bit (v.setWidth 32) n = v.getLsbD n := by simp [bit, hn]
    rw [srWithFlags, bit, BitVec.getLsbD_or]
    change (bit (w &&& ~~~(implementedMask .sr)) n || bit (v.setWidth 32) n) = _
    rw [bit_and, bit_not _ _ hn, bit_srImplemented n hn, hv]
    by_cases h10 : n < 10
    · simp [h10]
    · simp [h10, BitVec.getLsbD_of_ge v n (by omega)]
  · rw [if_neg (by omega), bit, bit, BitVec.getLsbD_of_ge _ _ (by omega), BitVec.getLsbD_of_ge _ _ (by omega)]

/-- An event of the device model writes no SR bit but PE, FE, NF, ORE, RXNE, TC and TXE (R201 to R205). -/
theorem bit_sr_deviceEvent (e : LineEvent) (he : ∀ v d, e ≠ .free v d) (s : State) (n : Nat)
    (hn : n ∉ [0, 1, 2, 3, 5, 6, 7]) :
    bit (lineEffect e s).chan.sr n = bit s.chan.sr n := by
  simp only [List.mem_cons, List.not_mem_nil, or_false, not_or] at hn
  obtain ⟨hpe, hfe, hnf, hore, hrxne, htc, htxe⟩ := hn
  cases e with
  | txLoad => exact (bit_setBit _ _ _ _ (by decide)).trans (if_neg htxe)
  | txDone =>
    simp only [lineEffect, txDone]
    split
    · exact (bit_setBit _ _ _ _ (by decide)).trans (if_neg htc)
    · rfl
  | rx b pe fe nf =>
    simp only [lineEffect]
    split
    · exact (bit_setBit _ _ _ _ (by decide)).trans (if_neg hore)
    · simp (disch := decide) only [rxFrame, record_chan, bit_orBit, bit_setBit, hpe, hfe, hnf, hrxne, if_false]
  | free v d => exact absurd rfl (he v d)

theorem UnwrittenBitsZero.line {e : LineEvent} {s : State} (h : UnwrittenBitsZero s) (he : lineEnabled e s = true) :
    UnwrittenBitsZero (lineEffect e s) := by
  rw [unwrittenBitsZero_iff] at h ⊢
  obtain ⟨hsr, hcfg⟩ := h
  rw [(lineEffect_keepsControl e s).params]
  refine ⟨fun n hn => ?_, hcfg.of_same (lineEffect_sameConfig e s)⟩
  by_cases hfree : ∃ v d, e = .free v d
  · obtain ⟨v, d, rfl⟩ := hfree
    simp only [lineEnabled, Bool.and_eq_true, decide_eq_true_eq] at he
    have h10 : 10 ≤ n := hn.resolve_right fun hdev => by rw [he.1] at hdev; cases hdev.1
    exact (bit_srWithFlags _ _ _).trans ((if_neg (by omega)).trans (hsr n hn))
  · rw [bit_sr_deviceEvent e (fun v d h => hfree ⟨v, d, h⟩) s n, hsr n hn]
    simp only [List.mem_cons, List.not_mem_nil, or_false, not_or]
    obtain hn | ⟨-, rfl | rfl | rfl⟩ := hn
    · omega
    all_goals decide

end Sys2Proof.Machine

open Sys2Proof Sys2Proof.Machine

/-- Settles O46: FG's accesses clear SR bits and write named fields only, and LINE sets the flags of its own events. -/
theorem unwrittenBitsStayZero : Obligations.UnwrittenBitsStayZero := by
  intro s t hs h
  obtain ⟨-, he⟩ := step_effect h
  have hs' : UnwrittenBitsZero (takeMove s) := hs.congr rfl rfl
  cases he with
  | nothing => exact hs'
  | ticked => exact hs.congr rfl rfl
  | line e hm he => exact hs'.line he
  | issued => exact hs.congr rfl rfl
  | badCommand => exact hs.congr rfl rfl
  | command r i t hm hr he =>
    cases command_effect hr he with
    | moved r' u hu => exact (hs'.access hu).congr rfl rfl
    | _ => exact hs.congr rfl rfl

/-- Settles O42: the configuring commands alone make field writes, and TB_INIT alone starts the tick source. -/
theorem onlyTheirCommandsChangeConfigurationAndTimebase :
    Obligations.OnlyTheirCommandsChangeConfigurationAndTimebase := by
  intro i s t h
  obtain ⟨rfl, ht⟩ | ⟨r, -, he⟩ := exec_cases h
  · refine ⟨fun _ => ?_, fun _ hi => absurd rfl hi⟩
    obtain rfl | rfl := ht <;> exact ⟨rfl, rfl, rfl, rfl, rfl⟩
  · refine ⟨fun hi => ?_, fun hi _ => he.tb.resolve_right fun hi' => hi hi'.1⟩
    obtain ⟨hcfg, hplat⟩ := he.sameConfig hi
    exact ⟨hcfg.brr, hcfg.cr1, hcfg.cr2, hcfg.cr3, hplat⟩

/-- Settles O14: no access and no LINE event writes the counter. -/
theorem onlyTheTickWritesTheCounter : Obligations.OnlyTheTickWritesTheCounter := by
  refine ⟨fun s t h => ?_, fun _ _ _ _ => rfl⟩
  obtain ⟨-, he⟩ := step_effect h
  cases he with
  | ticked hm he => exact .inr ⟨hm, he, rfl⟩
  | line e => exact .inl (congrArg Timebase.tickCnt (lineEffect_tb e (takeMove s)))
  | command r i t hm hr he => exact .inl (command_effect hr he).tickCnt
  | _ => exact .inl rfl

end

section
/-! SUPPORT. What every step keeps or extends: the enables, the parameters, the history and the host's index (R23, R43,
R47, R48, R51). -/

namespace Sys2Proof.Machine

open Sys2Proof

/-! ### The enables (R23, R43, R188) -/

/-- Each enable that is 1 in `s` is 1 in `t`. -/
structure EnablesKept (s t : State) : Prop where
  tickEn : s.tb.tickEn = true → t.tb.tickEn = true
  clkEn : s.plat.clkEn = true → t.plat.clkEn = true
  pinRoute : s.plat.pinRoute = true → t.plat.pinRoute = true
  irqArmed : s.plat.irqArmed = true → t.plat.irqArmed = true
  ue : bit s.chan.cr1 Cr1.ue = true → bit t.chan.cr1 Cr1.ue = true

/-- The five enables stand in the timebase, the platform bits and CR1 alone. -/
theorem EnablesKept.of_eq {s t : State} (htb : t.tb.tickEn = s.tb.tickEn) (hplat : t.plat = s.plat)
    (hcr1 : t.chan.cr1 = s.chan.cr1) : EnablesKept s t := by
  constructor <;> simp only [htb, hplat, hcr1, imp_self]

/-- The interrupt enables' statements do not touch UE (R182, R184). -/
theorem ue_enableBitWrites (mask : Word) (v : Bool) (s : State) :
    bit (writeFields (enableBitWrites mask v) s).chan.cr1 Cr1.ue = bit s.chan.cr1 Cr1.ue := by
  rw [writeFields_eq]
  exact (bit_cr1_enableBitWrites _ mask v _ Cr1.ue).trans (if_neg (by simp))

/-- UPDATE_BAUD_RATE's block leaves UE as it was before its CR1 read (R186, R188). -/
theorem ue_updateBaudWrites (clk : Nat) (baud : Word) (s : State) :
    bit (writeFields (updateBaudWrites clk baud (readValue .cr1 s)) (regRead .cr1 s)).chan.cr1 Cr1.ue =
      bit s.chan.cr1 Cr1.ue := by
  rw [writeFields_chan, regRead_plat, regRead_chan, readValue]
  split
  · exact (bit_setBit _ _ _ _ (by decide)).trans (if_pos rfl)
  · rfl

theorem Access.enablesKept {i : Instr} {r : Running} {s t : State} (h : Access i r s t) : EnablesKept s t := by
  cases h with
  | readCr1 | readStatus | readData => exact .of_eq rfl rfl (regRead_sameConfig _ s).cr1
  | writeData v => exact .of_eq rfl rfl (regWrite_dr_sameConfig v s).cr1
  | readTick | readByte | writeByte => exact .of_eq rfl rfl rfl
  | startTicks => exact { EnablesKept.of_eq (s := s) rfl rfl rfl with tickEn := fun _ => rfl }
  | initialise ws hw hi hue =>
    refine ⟨by simp, by simp, by simp, by simp, fun _ => ?_⟩
    rw [writeFields_chan, enableClockAndPins_plat, if_pos rfl]
    exact hue _
  | enableBits mask =>
    exact ⟨by simp, by simp, by simp, by simp, fun h => (ue_enableBitWrites mask true s).trans h⟩
  | disableBits mask =>
    exact ⟨by simp, by simp, by simp, by simp, fun h => (ue_enableBitWrites mask false s).trans h⟩
  | updateBaud baud => exact ⟨by simp, by simp, by simp, by simp, fun h => (ue_updateBaudWrites _ baud s).trans h⟩

theorem FgEffect.enablesKept {i : Instr} {r : Running} {s t : State} (h : FgEffect i r s t) : EnablesKept s t := by
  cases h with
  | moved r' u hu => exact { hu.enablesKept with }
  | _ => exact .of_eq rfl rfl rfl

/-! ### The parameters, the command list and the history (R20, R51) -/

/-- What a step keeps once its move is taken: the parameters, the host's list and the schedule; and the history grows at
its end only. -/
structure Extends (s t : State) : Prop where
  params : t.params = s.params
  program : t.program = s.program
  schedule : t.schedule = s.schedule
  hist : s.hist <+: t.hist

theorem Access.hist {i : Instr} {r : Running} {s t : State} (h : Access i r s t) : s.hist <+: t.hist := by
  have hfields (ws : List FieldWrite) (u : State) : u.hist <+: (writeFields ws u).hist := by
    rw [writeFields_events]
    exact ⟨_, rfl⟩
  cases h with
  | startTicks => exact ⟨[], List.append_nil _⟩
  | initialise ws => exact hfields ws (enableClockAndPins s)
  | enableBits mask => exact hfields (enableBitWrites mask true) s
  | disableBits mask => exact hfields _ s
  | updateBaud baud => exact List.IsPrefix.trans ⟨_, rfl⟩ (hfields _ (regRead .cr1 s))
  | _ => exact ⟨_, rfl⟩

theorem Access.extends {i : Instr} {r : Running} {s t : State} (h : Access i r s t) : Extends s t :=
  ⟨h.keepsControl.params, h.keepsControl.program, h.keepsControl.schedule, h.hist⟩

theorem FgEffect.extends {i : Instr} {r : Running} {s t : State} (h : FgEffect i r s t) : Extends s t := by
  cases h with
  | stuck => exact ⟨rfl, rfl, rfl, ⟨[], List.append_nil _⟩⟩
  | moved r' u hu => exact { hu.extends with }
  | _ => exact ⟨rfl, rfl, rfl, ⟨_, rfl⟩⟩

theorem lineEffect_hist (e : LineEvent) (s : State) : s.hist <+: (lineEffect e s).hist := by
  cases e with
  | txDone => exact ⟨[], List.append_nil _⟩
  | rx b pe fe nf => simp only [lineEffect]; split <;> exact ⟨_, rfl⟩
  | _ => exact ⟨_, rfl⟩

theorem lineEffect_extends (e : LineEvent) (s : State) : Extends s (lineEffect e s) := by
  have h := lineEffect_keepsControl e s
  exact ⟨h.params, h.program, h.schedule, lineEffect_hist e s⟩

theorem step_extends {s t : State} (h : step s = .next t) : Extends (takeMove s) t := by
  obtain ⟨-, he⟩ := step_effect h
  cases he with
  | nothing => exact ⟨rfl, rfl, rfl, ⟨[], List.append_nil _⟩⟩
  | line e => exact lineEffect_extends e _
  | command r i t hm hr he => exact (command_effect hr he).extends
  | _ => exact ⟨rfl, rfl, rfl, ⟨_, rfl⟩⟩

/-! ### A running command goes on or finishes (R47, R48) -/

/-- FG goes on with the command it runs: with its opcode and arguments, at the same position or at another of its own. -/
structure RunsOn (i : Instr) (r : Running) (s t : State) : Prop where
  running : ∃ r', t.phase = .running r' ∧ (r'.op = r.op ∧ r'.a0 = r.a0 ∧ r'.a1 = r.a1 ∧ r'.a2 = r.a2) ∧
    (r'.mpc = r.mpc ∨ r'.mpc ∈ positions i)
  ci : t.ci = s.ci
  hpc : t.hpc = s.hpc

/-- An FG step goes on with its command, or it writes a result at most and finishes it. -/
theorem FgEffect.runsOn_or_finish {i : Instr} {r : Running} {s t : State} (h : FgEffect i r s t)
    (hr : s.phase = .running r) : RunsOn i r s t ∨ ∃ c, t = finish r { s with ci := c } := by
  cases h with
  | stuck => exact .inl ⟨⟨r, hr, ⟨rfl, rfl, rfl, rfl⟩, .inl rfl⟩, rfl, rfl⟩
  | marked f r' hc hm => exact .inl ⟨⟨r', rfl, hc, .inl hm⟩, rfl, rfl⟩
  | moved r' u hu hc hm => exact .inl ⟨⟨r', rfl, hc, .inr hm⟩, hu.keepsControl.ci, hu.keepsControl.hpc⟩
  | finished | finishedWith | reported | finishedValue => exact .inr ⟨_, rfl⟩

end Sys2Proof.Machine

open Sys2Proof Sys2Proof.Machine

/-- Settles O52: the accesses that write CR1 end with UE as it was or 1, and no access clears another enable. -/
theorem enablesAreNeverCleared : Obligations.EnablesAreNeverCleared := by
  intro s t h
  have hkept : EnablesKept s t := by
    obtain ⟨-, he⟩ := step_effect h
    cases he with
    | line e =>
      exact .of_eq (congrArg Timebase.tickEn (lineEffect_tb e (takeMove s))) (lineEffect_plat e (takeMove s))
        (lineEffect_sameConfig e (takeMove s)).cr1
    | command r i t hm hr he => exact { (command_effect hr he).enablesKept with }
    | _ => exact .of_eq rfl rfl rfl
  exact ⟨hkept.tickEn, hkept.clkEn, hkept.pinRoute, hkept.irqArmed, hkept.ue⟩

/-- Settles O54: each effect keeps the parameters, the list and the schedule, and appends to the history. -/
theorem stepsKeepParametersAndExtendTheHistory : Obligations.StepsKeepParametersAndExtendTheHistory := by
  intro s t h
  obtain ⟨hp, hl, hs, l, hh⟩ := step_extends h
  exact ⟨hp, hl, hs, l, hh.symm⟩

/-- Settles O53: only `finish` advances the index, and an FG step is `finish` or goes on with its command. -/
theorem hostIndexAdvancesOnlyAtFinish : Obligations.HostIndexAdvancesOnlyAtFinish := by
  refine ⟨fun r s => rfl, fun s t h => ?_⟩
  obtain ⟨hf, he⟩ := step_effect h
  cases he with
  | nothing | ticked => exact .inl ⟨rfl, id⟩
  | line e =>
    have hk := lineEffect_keepsControl e (takeMove s)
    exact .inl ⟨hk.hpc, fun hp => hk.phase ▸ hp⟩
  | issued => exact .inl ⟨rfl, fun _ => nofun⟩
  | badCommand => exact .inl ⟨rfl, id⟩
  | command r i t hm hr he =>
    obtain ⟨⟨r', hr', -⟩, -, hhpc⟩ | ⟨c, rfl⟩ := (command_effect hr he).runsOn_or_finish hr.1
    · exact .inl ⟨hhpc, fun _ => hr' ▸ nofun⟩
    · exact .inr ⟨rfl, hr.1 ▸ nofun, rfl, hf, r, hr.1, rfl⟩

end

section
/-! SUPPORT. The step of the machine, agent by agent (R47, R48, R50, R86, R222), and the controller's consistency. -/

namespace Sys2Proof.Machine

open Sys2Proof

/-! ### The step as one move -/

/-- Where no fault is marked the step is the next move, taken off the schedule (R50). -/
theorem step_of_unmarked {s : State} (hf : s.fault = none) : step s = moveStep (nextMove s) (takeMove s) := by
  rw [step, agentStep, hf]

/-- Where a fault is marked the step answers the stop (R52, R222). -/
theorem step_of_marked {s : State} {f : FaultMark} (hf : s.fault = some f) : step s = .fault (.marked f) := by
  rw [step, agentStep, hf]

theorem coreTurn_of_idle {s : State} (hp : s.phase = .idle) : coreTurn s = .next (hostTurn s) := by
  rw [coreTurn, hp]

/-- A Running command that decodes takes its own step (R47). -/
theorem coreTurn_of_runsInstr {s : State} {r : Running} {i : Instr} (hr : s.runsInstr r i) : coreTurn s = exec i s := by
  obtain ⟨hp, hd⟩ := hr
  simp only [coreTurn, hp, fgTurn, hd]

/-- A Running command that does not decode marks BadCommand (R86). -/
theorem coreTurn_of_rejected {s : State} {r : Running} {why : Reject} (hp : s.phase = .running r)
    (hd : decodeCommand (runningCommand r s) = .rejected why) : coreTurn s = .next (raiseFault .badCommand s) := by
  simp only [coreTurn, hp, fgTurn, hd]

theorem hostTurn_of_command {s : State} {c : HostCommand} (hc : s.program[s.hpc]? = some c) :
    hostTurn s = issue c s := by
  rw [hostTurn, hc]

/-- Past the end of its list the host issues nothing (R256). -/
theorem hostTurn_of_end {s : State} (h : s.program.length ≤ s.hpc) : hostTurn s = s := by
  rw [hostTurn, List.getElem?_eq_none h]

/-! ### The consistent controller (R24, R47, R86) -/

/-- A command that decodes to an instruction starts at a position of that instruction (R47). -/
theorem entry_mem_positions {c : HostCommand} {i : Instr} (h : decodeCommand c = .instr i) : .entry ∈ positions i := by
  have hi := decodeCommand_ne_tick h
  cases i with
  | tbTick => exact absurd rfl hi
  | _ => exact List.mem_cons_self

/-- Consistency speaks of FG's phase and the command interface alone. -/
theorem ControllerConsistent.congr {s t : State} (h : ControllerConsistent s) (hp : t.phase = s.phase)
    (hc : t.ci = s.ci) : ControllerConsistent t := by
  intro r hr
  simpa only [runningCommand, hc] using h r (hp ▸ hr)

theorem controllerConsistent_of_idle {s : State} (hp : s.phase = .idle) : ControllerConsistent s :=
  fun _ hr => nomatch hp.symm.trans hr

/-- A command just issued is consistent (R24, R47). -/
theorem issue_controllerConsistent (c : HostCommand) (s : State) : ControllerConsistent (issue c s) := by
  intro r hr
  cases hr
  exact ⟨rfl, rfl, rfl, rfl, fun i hi => entry_mem_positions hi, fun _ _ => rfl⟩

/-- A command that goes on stays consistent: CMD and its arguments are as they were. -/
theorem ControllerConsistent.runsOn {s t : State} {r : Running} {i : Instr} (h : ControllerConsistent s)
    (hr : s.runsInstr r i) (ht : RunsOn i r s t) : ControllerConsistent t := by
  obtain ⟨⟨r', hr', ⟨hop, ha0, ha1, ha2⟩, hm⟩, hci, -⟩ := ht
  obtain ⟨hp, hd⟩ := hr
  obtain ⟨gop, ga0, ga1, ga2, gpos, -⟩ := h r hp
  have hcmd : runningCommand r' t = runningCommand r s := by rw [runningCommand, runningCommand, hci, ha0, ha1, ha2]
  intro r'' hr''
  cases hr'.symm.trans hr''
  rw [hcmd, hd, hop, ha0, ha1, ha2, hci]
  refine ⟨gop, ga0, ga1, ga2, ?_, nofun⟩
  rintro _ ⟨⟩
  exact hm.elim (fun hm => hm ▸ gpos i hd) id

theorem step_controllerConsistent {s t : State} (hs : ControllerConsistent s) (h : step s = .next t) :
    ControllerConsistent t := by
  obtain ⟨-, he⟩ := step_effect h
  cases he with
  | nothing | ticked | badCommand => exact hs.congr rfl rfl
  | line e =>
    have hk := lineEffect_keepsControl e (takeMove s)
    exact hs.congr hk.phase hk.ci
  | issued c => exact issue_controllerConsistent c _
  | command r i t hm hr he =>
    obtain ht | ⟨c, rfl⟩ := (command_effect hr he).runsOn_or_finish hr.1
    · exact (hs.congr rfl rfl : ControllerConsistent (takeMove s)).runsOn hr ht
    · exact controllerConsistent_of_idle rfl

/-- A consistent unfaulted machine is never refused a step: a command stands at one of its own positions. -/
theorem step_answers {s : State} (hs : ControllerConsistent s) (hf : s.fault = none) : ∃ t, step s = .next t := by
  rw [step_of_unmarked hf]
  cases nextMove s with
  | tick => simp only [moveStep, exec, execTbTick]; split <;> exact ⟨_, rfl⟩
  | line e => exact ⟨_, rfl⟩
  | core =>
    rw [moveStep]
    cases hp : s.phase with
    | idle => exact ⟨_, coreTurn_of_idle hp⟩
    | running r =>
      obtain ⟨-, -, -, -, hpos, -⟩ := hs r hp
      cases hd : decodeCommand (runningCommand r s) with
      | instr i =>
        rw [coreTurn_of_runsInstr (s := takeMove s) ⟨hp, hd⟩]
        exact exec_answers hp (hpos i hd)
      | rejected why => exact ⟨_, coreTurn_of_rejected (s := takeMove s) hp hd⟩

/-! ### The result registers (R24, R25, R84) -/

/-- What an instruction leaves of the command interface: R0 and R1 unless it is one of those that write them, all of it
while it does not finish, and CMD and the arguments always. -/
structure KeepsInterface (i : Instr) (s t : State) : Prop where
  r0 : writesR0 i = false → t.ci.r0 = s.ci.r0 ∧ t.ci.r0Set = s.ci.r0Set
  r1 : writesR1 i = false → t.ci.r1 = s.ci.r1 ∧ t.ci.r1Set = s.ci.r1Set
  ci : t.phase ≠ .idle → t.ci = s.ci
  command : t.ci.cmd = s.ci.cmd ∧ t.ci.a0 = s.ci.a0 ∧ t.ci.a1 = s.ci.a1 ∧ t.ci.a2 = s.ci.a2

theorem KeepsInterface.of_ci_eq {i : Instr} {s t : State} (h : t.ci = s.ci) : KeepsInterface i s t := by
  constructor <;> simp [h]

theorem finishCode_keepsInterface {i : Instr} (hi : writesR0 i = true) (v : Word) (r : Running) (s : State) :
    KeepsInterface i s (finishCode v r s) :=
  ⟨fun h => (nomatch hi.symm.trans h), fun _ => ⟨rfl, rfl⟩, fun hp => absurd rfl hp, rfl, rfl, rfl, rfl⟩

theorem finishValue_keepsInterface {i : Instr} (hi : writesR1 i = true) (v : Word) (r : Running) (s : State) :
    KeepsInterface i s (finishValue v r s) :=
  ⟨fun _ => ⟨rfl, rfl⟩, fun h => (nomatch hi.symm.trans h), fun hp => absurd rfl hp, rfl, rfl, rfl, rfl⟩

theorem FgEffect.keepsInterface {i : Instr} {r : Running} {s t : State} (h : FgEffect i r s t) :
    KeepsInterface i s t := by
  cases h with
  | stuck | marked | finished => exact .of_ci_eq rfl
  | moved r' u hu => exact .of_ci_eq hu.keepsControl.ci
  | finishedWith o ho => exact finishCode_keepsInterface (writesR0_of_outcome ho) o.code r s
  | reported hi =>
    obtain ⟨a, n, w, rfl⟩ := hi
    exact finishCode_keepsInterface rfl _ r s
  | finishedValue v hi => exact finishValue_keepsInterface hi v r s

theorem exec_keepsInterface {i : Instr} {s t : State} (h : exec i s = .next t) : KeepsInterface i s t := by
  obtain ⟨-, rfl | rfl⟩ | ⟨r, -, he⟩ := exec_cases h
  · exact .of_ci_eq rfl
  · exact .of_ci_eq rfl
  · exact he.keepsInterface

/-- The codes of the errors RECEIVE decodes (R84, R161). -/
def decodedCodes : Instr → List Word
  | .receive _ _ _ => [4, 5, 6, 7]
  | _ => []

/-- The codes R84 lists for each command that writes R0. -/
def resultCodes (i : Instr) : List Word := (outcomes i).map ErrorOutcome.code ++ decodedCodes i

theorem code_mem_resultCodes {i : Instr} {o : ErrorOutcome} (h : (outcomes i).contains o = true) :
    o.code ∈ resultCodes i :=
  List.mem_append_left _ (List.mem_map_of_mem (List.contains_iff_mem.mp h))

/-- R0's three bits hold one of RECEIVE's codes unless they hold that of Overflow (R25, R84). -/
theorem masked_mem_receiveCodes {v : Word} (h : v &&& 7 ≠ ErrorOutcome.overflow.code) (a n w : Word) :
    v &&& 7 ∈ resultCodes (.receive a n w) := by
  have hall : ∀ k < 8, BitVec.ofNat 32 k ≠ 3 → BitVec.ofNat 32 k ∈ [(0 : Word), 1, 2, 4, 5, 6, 7] := by decide
  have hle : (v &&& 7).toNat ≤ 7 := by
    rw [BitVec.toNat_and]
    exact Nat.and_le_right
  have := hall (v &&& 7).toNat (by omega)
  rw [show BitVec.ofNat 32 (v &&& 7).toNat = v &&& 7 by simp] at this
  exact this h

/-- No command writes both result registers (the table of R25). -/
theorem writesR0_of_writesR1 {i : Instr} (h : writesR1 i = true) : writesR0 i = false := by
  cases i with
  | tbNow | receiveByte | isDataAvailable => rfl
  | _ => cases h

/-- A command of the table that finishes leaves a value in its register, and in R0 one of its own codes (R84). -/
theorem exec_result {i : Instr} {s t : State} (hn : NoOverflow s) (h : exec i s = .next t) (hp : t.phase = .idle) :
    (writesR0 i = true → t.ci.r0Set = true ∧ t.ci.r0 ∈ resultCodes i) ∧ (writesR1 i = true → t.ci.r1Set = true) := by
  obtain ⟨rfl, -⟩ | ⟨r, hr, he⟩ := exec_cases h
  · exact ⟨nofun, nofun⟩
  · cases he with
    | stuck => cases hr.symm.trans hp
    | marked | moved => cases hp
    | finished hi => exact ⟨fun h0 => (nomatch h0.symm.trans hi.1), fun h1 => (nomatch h1.symm.trans hi.2)⟩
    | finishedWith o ho =>
      refine ⟨fun _ => ⟨rfl, ?_⟩, fun h1 => nomatch (writesR0_of_outcome ho).symm.trans (writesR0_of_writesR1 h1)⟩
      rw [finishWith, finish_ci, writeR0_ci]
      exact code_mem_resultCodes ho
    | reported hi =>
      obtain ⟨a, n, w, rfl⟩ := hi
      exact ⟨fun _ => ⟨rfl, masked_mem_receiveCodes (hn.2 r hr) a n w⟩, nofun⟩
    | finishedValue v hi => exact ⟨fun h0 => (nomatch h0.symm.trans (writesR0_of_writesR1 hi)), fun _ => rfl⟩

/-- The table of R25 for R0, read backwards. -/
theorem writesR0_eq_false {i : Instr} (hclear : i ∉ [Instr.clearErrors]) (hconfig : ∀ a b c, i ≠ .initConfig a b c)
    (htransmit : ∀ a b c, i ≠ .transmit a b c) (hsend : ∀ a, i ≠ .sendByte a) (hreceive : ∀ a b c, i ≠ .receive a b c)
    (hupdate : ∀ a, i ≠ .updateBaudRate a) : writesR0 i = false := by
  cases i with
  | clearErrors => exact absurd List.mem_cons_self hclear
  | initConfig a b c => exact absurd rfl (hconfig a b c)
  | transmit a b c => exact absurd rfl (htransmit a b c)
  | sendByte a => exact absurd rfl (hsend a)
  | receive a b c => exact absurd rfl (hreceive a b c)
  | updateBaudRate a => exact absurd rfl (hupdate a)
  | _ => rfl

/-- The commands that write R1 are the three of the table (R25). -/
theorem writesR1_iff (i : Instr) : writesR1 i = true ↔ i ∈ [Instr.tbNow, .receiveByte, .isDataAvailable] := by
  cases i <;> simp [writesR1]

end Sys2Proof.Machine

open Sys2Proof Sys2Proof.Machine

/-- Settles O47: a consistent machine is never refused a step, and each effect keeps it consistent. -/
theorem consistentMachineAlwaysStepsAndStaysConsistent :
    Obligations.ConsistentMachineAlwaysStepsAndStaysConsistent := by
  intro s hs hf
  obtain ⟨t, ht⟩ := step_answers hs hf
  exact ⟨t, ht, step_controllerConsistent hs ht⟩

/-- Settles O43: R0 and R1 are written by a finish with a result, and its outcome is one the table lists. -/
theorem resultRegistersAreWrittenOnlyByTheirCommands : Obligations.ResultRegistersAreWrittenOnlyByTheirCommands := by
  refine ⟨fun i s t h => ?_, fun o s => ?_, fun v s => rfl, fun i s t hn h hp => ?_⟩
  · have hk := exec_keepsInterface h
    refine ⟨fun h1 h2 h3 h4 h5 h6 => hk.r0 (writesR0_eq_false h1 h2 h3 h4 h5 h6), fun h1 => hk.r1 ?_, hk.ci, hk.command⟩
    rwa [← writesR1_iff, Bool.not_eq_true] at h1
  · cases o <;> rfl
  · obtain ⟨h0, h1⟩ := exec_result hn h hp
    refine ⟨?_, ?_, ?_, ?_, ?_, ?_, fun hi => h1 ((writesR1_iff i).2 hi)⟩
    · rintro a b c rfl; exact h0 rfl
    · rintro a b c rfl; exact h0 rfl
    · rintro a rfl; exact h0 rfl
    · rintro a b c rfl; exact h0 rfl
    · rintro rfl; exact (h0 rfl).imp_right List.eq_of_mem_singleton
    · rintro a rfl; exact h0 rfl

/-- Settles O6: an unmarked step is FG's turn, and FG's turn is the decoded command's. -/
theorem stepRunsTheDecodedCommand : Obligations.StepRunsTheDecodedCommand := by
  intro s r i hf hm hp hd
  rw [step_of_unmarked hf, hm]
  exact coreTurn_of_runsInstr (s := takeMove s) ⟨hp, hd⟩

/-- Settles O7: an unmarked step with FG Idle is the host's turn. -/
theorem hostIssuesItsNextCommand : Obligations.HostIssuesItsNextCommand := by
  intro s hf hm hp
  have hstep : step s = .next (hostTurn (takeMove s)) := by
    rw [step_of_unmarked hf, hm]
    exact coreTurn_of_idle (s := takeMove s) hp
  refine ⟨fun c hc => ?_, fun h => ?_⟩
  · rw [hstep, hostTurn_of_command (s := takeMove s) hc]
    rfl
  · rw [hstep, hostTurn_of_end (s := takeMove s) h]

/-- Settles O8: the step tests the mark before anything else. -/
theorem markedFaultStopsEveryAgent : Obligations.MarkedFaultStopsEveryAgent :=
  ⟨fun _ _ => rfl, fun _ _ => step_of_marked, fun _ _ h => (step_effect h).1, rfl⟩

end

section
/-! SUPPORT. Commands without a wait: each of FG's steps brings them nearer to their end (R47), and in a fair run FG
takes those steps (R50). -/

namespace Sys2Proof.Machine

open Sys2Proof

/-! ### Each step of a command without a wait brings it nearer to its end -/

/-- A bound on the steps FG has left, in a command without a wait, at a position of it. -/
def stepsLeft : Mpc → Nat
  | .entry => 3
  | .useStatus => 2
  | _ => 1

/-- `t` follows a step of the running command `r`: the step has marked a fault, or the command has ended, or it goes on
with fewer steps left. -/
def Advances (r : Running) (t : State) : Prop :=
  t.fault ≠ none ∨ t.phase = .idle ∨
    ∃ r', t.phase = .running r' ∧ (r'.a0 = r.a0 ∧ r'.a1 = r.a1 ∧ r'.a2 = r.a2) ∧ stepsLeft r'.mpc < stepsLeft r.mpc

section
variable {r : Running} {s t : State}

theorem stepRaise_advances (f : FaultMark) (r' : Running) (u : State) : Advances r (stepRaise f r' u) := .inl nofun

theorem finish_advances (u : State) : Advances r (finish r u) := .inr (.inl rfl)

/-- Going on at a position with fewer steps left advances the command. -/
theorem setRunning_advances {m m' : Mpc} (hm : r.mpc = m) (hlt : stepsLeft m' < stepsLeft m) (l : Locals) (u : State) :
    Advances r (setRunning { r with mpc := m', locals := l } u) :=
  .inr (.inr ⟨_, rfl, ⟨rfl, rfl, rfl⟩, hm ▸ hlt⟩)

/-- Every step of a command without a wait that has a next state advances it, position by position. -/
theorem exec_advances {i : Instr} (hi : neverWaits i = true) (hr : s.phase = .running r) (h : exec i s = .next t) :
    Advances r t := by
  cases i with
  | tbInit =>
    simp only [exec, execTbInit, whileRunning_of_running hr] at h
    split at h <;> cases h
    · exact setRunning_advances (m' := .conclude) ‹_› (by decide) _ _
    · exact finish_advances _
  | tbNow =>
    simp only [exec, execTbNow, whileRunning_of_running hr] at h
    split at h <;> cases h
    · exact setRunning_advances (m' := .useTime) ‹_› (by decide) _ _
    · exact finish_advances _
  | initDefault baud =>
    simp only [exec, execInitDefault, whileRunning_of_running hr] at h
    (repeat' split at h) <;> cases h
    · exact stepRaise_advances _ _ _
    · exact setRunning_advances (m' := .conclude) ‹_› (by decide) _ _
    · exact finish_advances _
  | initConfig present baud cfg =>
    simp only [exec, execInitConfig, whileRunning_of_running hr] at h
    (repeat' split at h) <;> cases h
    · exact finish_advances _
    · exact stepRaise_advances _ _ _
    · exact stepRaise_advances _ _ _
    · exact setRunning_advances (m' := .conclude) ‹_› (by decide) _ _
    · exact finish_advances _
  | isDataAvailable =>
    simp only [exec, execIsDataAvailable, whileRunning_of_running hr] at h
    split at h <;> cases h
    · exact setRunning_advances (m' := .useStatus) ‹_› (by decide) _ _
    · exact finish_advances _
  | clearErrors =>
    simp only [exec, execClearErrors, whileRunning_of_running hr] at h
    (repeat' split at h) <;> cases h
    · exact setRunning_advances (m' := .useStatus) ‹_› (by decide) _ _
    · exact setRunning_advances (m' := .useData) ‹_› (by decide) _ _
    · exact finish_advances _
    · exact finish_advances _
  | enableInterrupts mask =>
    simp only [exec, execEnableInterrupts, whileRunning_of_running hr] at h
    (repeat' split at h) <;> cases h
    · exact stepRaise_advances _ _ _
    · exact setRunning_advances (m' := .conclude) ‹_› (by decide) _ _
    · exact finish_advances _
  | disableInterrupts mask =>
    simp only [exec, execDisableInterrupts, whileRunning_of_running hr] at h
    (repeat' split at h) <;> cases h
    · exact stepRaise_advances _ _ _
    · exact setRunning_advances (m' := .conclude) ‹_› (by decide) _ _
    · exact finish_advances _
  | updateBaudRate baud =>
    simp only [exec, execUpdateBaudRate, whileRunning_of_running hr] at h
    (repeat' split at h) <;> cases h
    · exact finish_advances _
    · exact setRunning_advances (m' := .conclude) ‹_› (by decide) _ _
    · exact finish_advances _
  | _ => cases hi

/-- FG's step in a command without a wait ends it or leaves the same instruction running with fewer steps left. -/
theorem core_ends_or_runsInstr {i : Instr} (hi : neverWaits i = true) (hr : s.runsInstr r i)
    (h : moveStep .core s = .next t) (hf : t.fault = none) :
    t.phase = .idle ∨ ∃ r', t.runsInstr r' i ∧ stepsLeft r'.mpc < stepsLeft r.mpc := by
  rw [moveStep, coreTurn_of_runsInstr hr] at h
  obtain hm | hidle | ⟨r', hr', ⟨ha0, ha1, ha2⟩, hlt⟩ := exec_advances hi hr.1 h
  · exact absurd hf hm
  · exact .inl hidle
  · have hcmd : runningCommand r' t = runningCommand r s := by
      rw [runningCommand, runningCommand, (exec_keepsInterface h).command.1, ha0, ha1, ha2]
    exact .inr ⟨r', ⟨hr', hcmd ▸ hr.2⟩, hlt⟩

/-- The other agents leave FG's command as it is (R50). -/
theorem other_keeps_runsInstr {i : Instr} {m : Move} (hm : m ≠ .core) (hr : s.runsInstr r i)
    (h : moveStep m s = .next t) : t.runsInstr r i := by
  have hkeep : t.phase = s.phase ∧ t.ci = s.ci := by
    cases m with
    | core => exact absurd rfl hm
    | tick => obtain rfl | rfl := exec_tbTick_cases h <;> exact ⟨rfl, rfl⟩
    | line e =>
      cases h
      unfold lineStep
      split
      · exact ⟨(lineEffect_keepsControl e s).phase, (lineEffect_keepsControl e s).ci⟩
      · exact ⟨rfl, rfl⟩
  obtain ⟨hp, hd⟩ := hr
  refine ⟨hkeep.1.trans hp, ?_⟩
  rwa [runningCommand, hkeep.2]

end

/-! ### Fair runs -/

section
variable {moves : Nat → Move} {states : Nat → State} (hrun : IsRun moves states)
include hrun

/-- A command runs on until FG has the move. -/
theorem runsInstr_until_core {n : Nat} {r : Running} {i : Instr} (hr : (states n).runsInstr r i) (d : Nat)
    (hd : ∀ j < d, moves (n + j) ≠ .core) : (states (n + d)).runsInstr r i := by
  induction d with
  | zero => exact hr
  | succ d ih =>
    exact other_keeps_runsInstr (hd d (Nat.lt_succ_self d)) (ih fun j hj => hd j (Nat.lt_succ_of_lt hj))
      (hrun (n + d)).2

/-- In a fair run a command without a wait ends, by induction on the steps it has left. -/
theorem idle_of_fair (hfair : FgFair moves states) {i : Instr} (hi : neverWaits i = true) (b : Nat) :
    ∀ n r, (states n).runsInstr r i → stepsLeft r.mpc ≤ b → ∃ k, n < k ∧ (states k).phase = .idle := by
  induction b with
  | zero => intro n r _ hle; cases h : r.mpc <;> simp [h, stepsLeft] at hle
  | succ b ih =>
    intro n r hr hle
    by_contra! hnever
    have hmove : ∃ d, moves (n + d) = .core := by
      obtain ⟨k, hk, hcore⟩ := hfair n fun k hk => by
        obtain rfl | hlt := Nat.eq_or_lt_of_le hk
        · exact hr.1 ▸ nofun
        · exact hnever k hlt
      exact ⟨k - n, by rwa [Nat.add_sub_cancel' hk]⟩
    have hr' := runsInstr_until_core hrun hr (Nat.find hmove) fun j hj => Nat.find_min hmove hj
    have hstep := (hrun (n + Nat.find hmove)).2
    rw [Nat.find_spec hmove] at hstep
    obtain hidle | ⟨r'', hr'', hlt⟩ := core_ends_or_runsInstr hi hr' hstep (hrun _).1
    · exact hnever _ (by omega) hidle
    · obtain ⟨k, hk, hidle⟩ := ih _ r'' hr'' (by omega)
      exact hnever k (by omega) hidle

end

end Sys2Proof.Machine

open Sys2Proof Sys2Proof.Machine

/-- Settles O60: fairness gives FG its moves, and each shortens what a command without a wait has left. -/
theorem commandsWithoutWaitsEndInFairRuns : Obligations.CommandsWithoutWaitsEndInFairRuns :=
  fun _ _ n r _ hrun hfair _ hr hi => idle_of_fair hrun hfair hi (stepsLeft r.mpc) n r hr le_rfl

end

section
/-! SUPPORT. PIN_ROUTE and TICK_PERIOD are read by no rule (R23, R44, R232): every operation, every instruction and every
agent does the same from a state in which they are replaced. -/

namespace Sys2Proof.Machine

open Sys2Proof

/-! ### Operations and turns that do not read the two parts -/

/-- The operation does the same whatever PIN_ROUTE and TICK_PERIOD hold, but for those two. -/
def Blind (op : State → State) : Prop :=
  ∀ s pin period, ∃ pin' period', op (withUnreadParts s pin period) = withUnreadParts (op s) pin' period'

/-- The turn answers the same next state whatever PIN_ROUTE and TICK_PERIOD hold, but for those two. -/
def BlindTurn (k : State → Result) : Prop :=
  ∀ s t pin period, k s = .next t →
    ∃ pin' period', k (withUnreadParts s pin period) = .next (withUnreadParts t pin' period')

/-- An operation that commutes with the replacement is blind to what is replaced. -/
theorem Blind.of_comm {op : State → State}
    (h : ∀ s pin period, op (withUnreadParts s pin period) = withUnreadParts (op s) pin period) : Blind op :=
  fun s pin period => ⟨pin, period, h s pin period⟩

theorem BlindTurn.next {op : State → State} (h : Blind op) : BlindTurn fun s => .next (op s) := by
  rintro s _ pin period ⟨⟩
  obtain ⟨pin', period', hop⟩ := h s pin period
  exact ⟨pin', period', congrArg _ hop⟩

theorem BlindTurn.refused (why : Refusal) : BlindTurn fun _ => .refused why :=
  fun _ _ _ _ h => nomatch h

/-- A test that does not read the two parts chooses between two operations that do not. -/
theorem Blind.branch {c : State → Prop} [DecidablePred c] {op op' : State → State}
    (hc : ∀ s pin period, c (withUnreadParts s pin period) ↔ c s) (h : Blind op) (h' : Blind op') :
    Blind fun s => if c s then op s else op' s := by
  intro s pin period
  simp only [hc]
  split
  · exact h s pin period
  · exact h' s pin period

theorem BlindTurn.ite {c : Prop} [Decidable c] {k l : State → Result} (hk : BlindTurn k) (hl : BlindTurn l) :
    BlindTurn fun s => if c then k s else l s := by
  by_cases hc : c
  · simpa only [if_pos hc] using hk
  · simpa only [if_neg hc] using hl

theorem BlindTurn.of_whileRunning {k : State → Running → Result} (h : ∀ r, BlindTurn fun s => k s r) :
    BlindTurn fun s => whileRunning s (k s) := by
  intro s t pin period ht
  cases hp : s.phase with
  | idle => simp only [whileRunning, hp] at ht; cases ht
  | running r =>
    simp only [whileRunning_of_running hp] at ht
    simp only [whileRunning_of_running (s := withUnreadParts s pin period) hp]
    exact h r s t pin period ht

/-! ### The shared steps -/

theorem stepReadCr1_blind (r : Running) : Blind (stepReadCr1 r) := .of_comm fun _ _ _ => rfl
theorem stepReadStatus_blind (m : Mpc) (r : Running) : Blind (stepReadStatus m r) := .of_comm fun _ _ _ => rfl
theorem stepReadData_blind (r : Running) : Blind (stepReadData r) := .of_comm fun _ _ _ => rfl
theorem stepWriteData_blind (v : Word) (r : Running) : Blind (stepWriteData v r) := .of_comm fun _ _ _ => rfl
theorem stepReadStart_blind (r : Running) : Blind (stepReadStart r) := .of_comm fun _ _ _ => rfl
theorem stepReadTime_blind (m : Mpc) (r : Running) : Blind (stepReadTime m r) := .of_comm fun _ _ _ => rfl
theorem stepRaise_blind (f : FaultMark) (r : Running) : Blind (stepRaise f r) := .of_comm fun _ _ _ => rfl
theorem finish_blind (r : Running) : Blind (finish r) := .of_comm fun _ _ _ => rfl
theorem finishCode_blind (v : Word) (r : Running) : Blind (finishCode v r) := .of_comm fun _ _ _ => rfl
theorem finishWith_blind (o : ErrorOutcome) (r : Running) : Blind (finishWith o r) := .of_comm fun _ _ _ => rfl
theorem finishValue_blind (v : Word) (r : Running) : Blind (finishValue v r) := .of_comm fun _ _ _ => rfl

theorem stepReadByte_blind (a : Word) (r : Running) : Blind (stepReadByte a r) :=
  .branch (fun _ _ _ => Iff.rfl) (.of_comm fun _ _ _ => rfl) (.of_comm fun _ _ _ => rfl)

theorem stepWriteByte_blind (a : Word) (v : Byte) (r : Running) : Blind (stepWriteByte a v r) :=
  .branch (fun _ _ _ => Iff.rfl) (.of_comm fun _ _ _ => rfl) (.of_comm fun _ _ _ => rfl)

theorem waitPolled_blind (k : PollFlag) (tmo : Option Word) {ready : Running → State → State} (r : Running)
    (h : Blind (ready r)) : Blind (waitPolled k tmo ready r) := by
  refine .branch (fun _ _ _ => Iff.rfl) h ?_
  cases tmo with
  | none => exact stepReadStatus_blind _ r
  | some w => exact stepReadTime_blind _ r

theorem waitTimed_blind (k : PollFlag) (tmo : Word) {out : Running → State → State} (r : Running)
    (h : Blind (out r)) : Blind (waitTimed k tmo out r) :=
  .branch (fun _ _ _ => Iff.rfl) h (stepReadStatus_blind _ r)

theorem nextByte_blind (size : Word) {more last : Running → State → State} (r : Running)
    (hm : ∀ r, Blind (more r)) (hl : Blind (last r)) : Blind (nextByte size more last r) :=
  .branch (fun _ _ _ => Iff.rfl) (hm _) hl

theorem stringByte_blind (a : Word) (r : Running) : Blind (stringByte a r) :=
  .branch (fun _ _ _ => Iff.rfl) (stepRaise_blind _ r) (stepReadByte_blind _ r)

theorem storeOrReport_blind (a : Word) (r : Running) : Blind (storeOrReport a r) :=
  .branch (fun _ _ _ => Iff.rfl) (finishCode_blind _ r) (stepWriteByte_blind _ _ r)

/-! ### The `atomic` blocks -/

theorem writeFields_withUnreadParts (ws : List FieldWrite) (s : State) (pin : Bool) (period : Word) :
    writeFields ws (withUnreadParts s pin period) = withUnreadParts (writeFields ws s) pin period := by
  rw [writeFields_eq, writeFields_eq]
  rfl

/-- TB_INIT writes TICK_PERIOD itself (R100). -/
theorem startTickSource_blind (r : Running) : Blind fun s => setRunning r (startTickSource s) :=
  fun _ pin _ => ⟨pin, _, rfl⟩

/-- An initialisation writes PIN_ROUTE itself (R124, R126). -/
theorem initialise_blind (r : Running) (ws : Nat → List FieldWrite) :
    Blind fun s => setRunning r (writeFields (ws s.params.clockHz) (enableClockAndPins s)) :=
  fun s _ period =>
    ⟨true, period, congrArg (setRunning r) (writeFields_withUnreadParts _ (enableClockAndPins s) true period)⟩

theorem enableBits_blind (r : Running) (ws : List FieldWrite) :
    Blind fun s => setRunning r (armLine (writeFields ws s)) :=
  .of_comm fun s pin period => congrArg (fun u => setRunning r (armLine u)) (writeFields_withUnreadParts ws s pin period)

theorem disableBits_blind (r : Running) (ws : List FieldWrite) : Blind fun s => setRunning r (writeFields ws s) :=
  .of_comm fun s pin period => congrArg (setRunning r) (writeFields_withUnreadParts ws s pin period)

theorem updateBaud_blind (r : Word → Running) (ws : Nat → Word → List FieldWrite) :
    Blind fun s =>
      setRunning (r (readValue .cr1 s)) (writeFields (ws s.params.clockHz (readValue .cr1 s)) (regRead .cr1 s)) :=
  .of_comm fun s pin period =>
    congrArg (setRunning (r (readValue .cr1 s))) (writeFields_withUnreadParts _ (regRead .cr1 s) pin period)

/-! ### The instructions, position by position -/

theorem execTbInit_blind : BlindTurn execTbInit := by
  refine .of_whileRunning fun r => ?_
  generalize r.mpc = m
  cases m with
  | entry => exact .next (startTickSource_blind _)
  | conclude => exact .next (finish_blind r)
  | _ => exact .refused _

theorem execTbNow_blind : BlindTurn execTbNow := by
  refine .of_whileRunning fun r => ?_
  generalize r.mpc = m
  cases m with
  | entry => exact .next (stepReadTime_blind _ r)
  | useTime => exact .next (finishValue_blind _ r)
  | _ => exact .refused _

theorem execTbDelay_blind (ms : Word) : BlindTurn (execTbDelay ms) := by
  refine .of_whileRunning fun r => ?_
  generalize r.mpc = m
  cases m with
  | entry => exact .next (stepReadStart_blind r)
  | enterLoop => exact .next (stepReadTime_blind _ r)
  | useTime => exact .ite (.next (finish_blind r)) (.next (stepReadTime_blind _ r))
  | _ => exact .refused _

theorem execTbTick_blind : BlindTurn execTbTick := by
  intro s t pin period ht
  by_cases he : s.tb.tickEn = true
  · rw [execTbTick, if_pos he] at ht
    cases ht
    exact ⟨pin, period, if_pos he⟩
  · rw [execTbTick, if_neg he] at ht
    cases ht
    exact ⟨pin, period, if_neg he⟩

theorem execInitDefault_blind (baud : Word) : BlindTurn (execInitDefault baud) := by
  refine .of_whileRunning fun r => ?_
  generalize r.mpc = m
  cases m with
  | entry => exact .ite (.next (stepRaise_blind _ r)) (.next (initialise_blind _ fun clk => initDefaultWrites clk baud))
  | conclude => exact .next (finish_blind r)
  | _ => exact .refused _

theorem execInitConfig_blind (present baud cfg : Word) : BlindTurn (execInitConfig present baud cfg) := by
  refine .of_whileRunning fun r => ?_
  generalize r.mpc = m
  cases m with
  | entry =>
    exact .ite (.next (finishWith_blind _ r)) (.ite (.next (stepRaise_blind _ _)) (.ite (.next (stepRaise_blind _ _))
      (.next (initialise_blind _ fun clk => initConfigWrites clk baud cfg))))
  | conclude => exact .next (finishWith_blind _ r)
  | _ => exact .refused _

theorem execTransmit_blind (addr size timeout : Word) : BlindTurn (execTransmit addr size timeout) := by
  refine .of_whileRunning fun r => ?_
  generalize r.mpc = m
  cases m with
  | entry => exact .ite (.next (finishWith_blind _ r)) (.next (stepReadCr1_blind r))
  | testDirection =>
    exact .ite (.next (finishWith_blind _ r)) (.ite (.next (stepRaise_blind _ r)) (.next (stepReadStart_blind r)))
  | enterLoop => exact .next (stepReadStatus_blind _ _)
  | testFlag k =>
    cases k with
    | txe => exact .next (waitPolled_blind _ _ r (stepReadByte_blind _ r))
    | tc => exact .next (waitPolled_blind _ _ r (finishWith_blind _ r))
    | rxne => exact .refused _
  | testTimeout k =>
    cases k with
    | txe => exact .next (waitTimed_blind _ _ r (finishWith_blind _ r))
    | tc => exact .next (waitTimed_blind _ _ r (finishWith_blind _ r))
    | rxne => exact .refused _
  | useByte => exact .next (stepWriteData_blind _ r)
  | endFrame => exact .next (nextByte_blind size r (stepReadStatus_blind _) (stepReadStatus_blind _ r))
  | _ => exact .refused _

theorem execSendByte_blind (byte : Word) : BlindTurn (execSendByte byte) := by
  refine .of_whileRunning fun r => ?_
  generalize r.mpc = m
  cases m with
  | entry => exact .ite (.next (stepRaise_blind _ r)) (.next (stepReadCr1_blind r))
  | testDirection => exact .ite (.next (finishWith_blind _ r)) (.next (stepReadStart_blind r))
  | enterLoop => exact .next (stepReadStatus_blind _ r)
  | testFlag k =>
    cases k with
    | txe => exact .next (waitPolled_blind _ _ r (stepWriteData_blind _ r))
    | _ => exact .refused _
  | testTimeout k =>
    cases k with
    | txe => exact .next (waitTimed_blind _ _ r (finishWith_blind _ r))
    | _ => exact .refused _
  | endFrame => exact .next (finishWith_blind _ r)
  | _ => exact .refused _

theorem execSendString_blind (addr : Word) : BlindTurn (execSendString addr) := by
  refine .of_whileRunning fun r => ?_
  generalize r.mpc = m
  cases m with
  | entry => exact .ite (.next (stepRaise_blind _ r)) (.next (stringByte_blind addr _))
  | useByte => exact .ite (.next (stepReadStatus_blind _ r)) (.next (stepReadStatus_blind _ r))
  | testFlag k =>
    cases k with
    | txe => exact .next (waitPolled_blind _ _ r (stepWriteData_blind _ r))
    | tc => exact .next (waitPolled_blind _ _ r (finish_blind r))
    | rxne => exact .refused _
  | endFrame => exact .next (stringByte_blind addr _)
  | _ => exact .refused _

theorem execReceive_blind (addr size timeout : Word) : BlindTurn (execReceive addr size timeout) := by
  refine .of_whileRunning fun r => ?_
  generalize r.mpc = m
  cases m with
  | entry => exact .ite (.next (finishWith_blind _ r)) (.next (stepReadCr1_blind r))
  | testDirection =>
    exact .ite (.next (finishWith_blind _ r)) (.ite (.next (stepRaise_blind _ r)) (.next (stepReadStart_blind r)))
  | enterLoop => exact .next (stepReadStatus_blind _ _)
  | testFlag k =>
    cases k with
    | rxne => exact .next (waitPolled_blind _ _ r (stepReadStatus_blind _ r))
    | _ => exact .refused _
  | testTimeout k =>
    cases k with
    | rxne => exact .next (waitTimed_blind _ _ r (finishWith_blind _ r))
    | _ => exact .refused _
  | useStatus => exact .next (stepReadData_blind _)
  | useData => exact .next (storeOrReport_blind addr r)
  | endStore => exact .next (nextByte_blind size r (stepReadStatus_blind _) (finishWith_blind _ r))
  | _ => exact .refused _

theorem execReceiveByte_blind : BlindTurn execReceiveByte := by
  refine .of_whileRunning fun r => ?_
  generalize r.mpc = m
  cases m with
  | entry => exact .next (stepReadStart_blind r)
  | enterLoop => exact .next (stepReadStatus_blind _ r)
  | testFlag k =>
    cases k with
    | rxne => exact .next (waitPolled_blind _ _ r (stepReadData_blind r))
    | _ => exact .refused _
  | testTimeout k =>
    cases k with
    | rxne => exact .next (waitTimed_blind _ _ r (finishValue_blind _ r))
    | _ => exact .refused _
  | useData => exact .next (finishValue_blind _ r)
  | _ => exact .refused _

theorem execIsDataAvailable_blind : BlindTurn execIsDataAvailable := by
  refine .of_whileRunning fun r => ?_
  generalize r.mpc = m
  cases m with
  | entry => exact .next (stepReadStatus_blind _ r)
  | useStatus => exact .next (finishValue_blind _ r)
  | _ => exact .refused _

theorem execClearErrors_blind : BlindTurn execClearErrors := by
  refine .of_whileRunning fun r => ?_
  generalize r.mpc = m
  cases m with
  | entry => exact .next (stepReadStatus_blind _ r)
  | useStatus => exact .ite (.next (stepReadData_blind r)) (.next (finishWith_blind _ r))
  | useData => exact .next (finishWith_blind _ r)
  | _ => exact .refused _

theorem execEnableInterrupts_blind (mask : Word) : BlindTurn (execEnableInterrupts mask) := by
  refine .of_whileRunning fun r => ?_
  generalize r.mpc = m
  cases m with
  | entry => exact .ite (.next (stepRaise_blind _ r)) (.next (enableBits_blind _ _))
  | conclude => exact .next (finish_blind r)
  | _ => exact .refused _

theorem execDisableInterrupts_blind (mask : Word) : BlindTurn (execDisableInterrupts mask) := by
  refine .of_whileRunning fun r => ?_
  generalize r.mpc = m
  cases m with
  | entry => exact .ite (.next (stepRaise_blind _ r)) (.next (disableBits_blind _ _))
  | conclude => exact .next (finish_blind r)
  | _ => exact .refused _

theorem execUpdateBaudRate_blind (baud : Word) : BlindTurn (execUpdateBaudRate baud) := by
  refine .of_whileRunning fun r => ?_
  generalize r.mpc = m
  cases m with
  | entry =>
    exact .ite (.next (finishWith_blind _ r)) (.next (updateBaud_blind
      (fun c1 => { r with mpc := .conclude, locals := updateBaudLocals c1 r.locals })
      fun clk => updateBaudWrites clk baud))
  | conclude => exact .next (finishWith_blind _ r)
  | _ => exact .refused _

theorem exec_blind (i : Instr) : BlindTurn (exec i) := by
  cases i with
  | tbInit => exact execTbInit_blind
  | tbNow => exact execTbNow_blind
  | tbDelay ms => exact execTbDelay_blind ms
  | tbTick => exact execTbTick_blind
  | initDefault baud => exact execInitDefault_blind baud
  | initConfig present baud cfg => exact execInitConfig_blind present baud cfg
  | transmit addr size timeout => exact execTransmit_blind addr size timeout
  | sendByte byte => exact execSendByte_blind byte
  | sendString addr => exact execSendString_blind addr
  | receive addr size timeout => exact execReceive_blind addr size timeout
  | receiveByte => exact execReceiveByte_blind
  | isDataAvailable => exact execIsDataAvailable_blind
  | clearErrors => exact execClearErrors_blind
  | enableInterrupts mask => exact execEnableInterrupts_blind mask
  | disableInterrupts mask => exact execDisableInterrupts_blind mask
  | updateBaudRate baud => exact execUpdateBaudRate_blind baud

/-! ### The agents -/

theorem lineEffect_blind (e : LineEvent) : Blind (lineEffect e) := by
  cases e with
  | rx b pe fe nf =>
    exact .branch (fun _ _ _ => Iff.rfl) (.of_comm fun _ _ _ => rfl) (.of_comm fun _ _ _ => rfl)
  | _ => exact .of_comm fun _ _ _ => rfl

theorem lineStep_blind (e : LineEvent) : Blind (lineStep e) :=
  .branch (fun _ _ _ => by cases e <;> exact Iff.rfl) (lineEffect_blind e) (.of_comm fun _ _ _ => rfl)

theorem hostTurn_blind : Blind hostTurn := by
  refine .of_comm fun s pin period => ?_
  cases hc : s.program[s.hpc]? with
  | none => simp only [hostTurn, hc, withUnreadParts]
  | some c =>
    rw [hostTurn_of_command hc]
    exact hostTurn_of_command (s := withUnreadParts s pin period) hc

theorem coreTurn_blind : BlindTurn coreTurn := by
  intro s t pin period ht
  cases hp : s.phase with
  | idle =>
    rw [coreTurn_of_idle hp] at ht
    rw [coreTurn_of_idle (s := withUnreadParts s pin period) hp]
    exact BlindTurn.next hostTurn_blind s t pin period ht
  | running r =>
    cases hd : decodeCommand (runningCommand r s) with
    | instr i =>
      rw [coreTurn_of_runsInstr ⟨hp, hd⟩] at ht
      rw [coreTurn_of_runsInstr (s := withUnreadParts s pin period) ⟨hp, hd⟩]
      exact exec_blind i s t pin period ht
    | rejected why =>
      rw [coreTurn_of_rejected hp hd] at ht
      cases ht
      exact ⟨pin, period, coreTurn_of_rejected (s := withUnreadParts s pin period) hp hd⟩

theorem moveStep_blind (m : Move) : BlindTurn (moveStep m) := by
  cases m with
  | core => exact coreTurn_blind
  | tick => exact exec_blind .tbTick
  | line e => exact .next (lineStep_blind e)

end Sys2Proof.Machine

open Sys2Proof Sys2Proof.Machine

/-- Settles O55: every agent's move is blind to the two parts. -/
theorem pinRouteAndTickPeriodAreNeverRead : Obligations.PinRouteAndTickPeriodAreNeverRead := by
  intro s t pin period h
  have hf := (step_effect h).1
  rw [step_of_unmarked hf] at h
  rw [step_of_unmarked (s := withUnreadParts s pin period) hf]
  exact moveStep_blind _ _ _ _ _ h

end

section
/-! SUPPORT. Register writes on a clocked channel (R67), accesses on an unclocked one (R44), and UPDATE_BAUD_RATE, which
makes both kinds (R186). -/

namespace Sys2Proof.Machine

open Sys2Proof

/-! ### What a whole-register write stores -/

/-- A register with no bit from 32 on is described by a test of its bits below. -/
theorem bit_eq_decide {w : Word} {p : Nat → Prop} [DecidablePred p] (hp : ∀ n, p n → n < 32)
    (h : ∀ n, n < 32 → bit w n = decide (p n)) (n : Nat) : bit w n = decide (p n) := by
  by_cases hn : n < 32
  · exact h n hn
  · rw [bit, BitVec.getLsbD_of_ge w n (by omega), decide_eq_false fun hpn => hn (hp n hpn)]

theorem bit_brrMask (n : Nat) : bit (implementedMask .brr) n = decide (n < 16) :=
  bit_eq_decide (w := implementedMask .brr) (p := fun n => n < 16) (fun _ h => by omega) (by decide) n

theorem bit_cr1Mask (n : Nat) : bit (implementedMask .cr1) n = decide (n < 16 ∧ n ≠ 14) :=
  bit_eq_decide (w := implementedMask .cr1) (p := fun n => n < 16 ∧ n ≠ 14) (fun _ h => by omega) (by decide) n

theorem bit_cr2Mask (n : Nat) : bit (implementedMask .cr2) n = decide (n < 15 ∧ n ≠ 4 ∧ n ≠ 7) :=
  bit_eq_decide (w := implementedMask .cr2) (p := fun n => n < 15 ∧ n ≠ 4 ∧ n ≠ 7) (fun _ h => by omega) (by decide) n

theorem bit_cr3Mask (n : Nat) : bit (implementedMask .cr3) n = decide (n < 12) :=
  bit_eq_decide (w := implementedMask .cr3) (p := fun n => n < 12) (fun _ h => by omega) (by decide) n

/-- A write to a clocked channel: its effect on the channel, and its event (R67). -/
theorem regWrite_of_clocked {s : State} (hc : s.plat.clkEn = true) (g : ChanReg) (v : Word) :
    regWrite g v s = { s with chan := s.chan.afterWrite g v, hist := s.hist ++ [.regWr g v] } := by
  rw [regWrite, if_pos hc]
  rfl

/-! ### The unclocked channel (R44) -/

section
variable {s : State} (hc : s.plat.clkEn = false)
include hc

theorem readValue_of_unclocked (g : ChanReg) : readValue g s = 0 := by
  rw [readValue, hc]
  rfl

theorem regRead_of_unclocked (g : ChanReg) : regRead g s = { s with hist := s.hist ++ [.regRd g 0] } := by
  rw [regRead, readValue_of_unclocked hc, hc]
  rfl

theorem regWrite_of_unclocked (g : ChanReg) (v : Word) :
    regWrite g v s = { s with hist := s.hist ++ [.regWr g v] } := by
  rw [regWrite, hc]
  rfl

theorem lineEnabled_of_unclocked (e : LineEvent) : lineEnabled e s = false := by
  cases e <;> simp [lineEnabled, deviceLineRuns, hc]

end

/-! ### UPDATE_BAUD_RATE (R186) -/

section
variable {r : Running} {s : State} (hr : s.phase = .running r)
include hr

theorem exec_updateBaudRate_entry (baud : Word) (hm : r.mpc = .entry) :
    exec (.updateBaudRate baud) s =
      .next
        (if baud = 0 then finish r (writeR0 .busy s)
        else
          setRunning { r with mpc := .conclude, locals := updateBaudLocals (readValue .cr1 s) r.locals }
            (writeFields (updateBaudWrites s.params.clockHz baud (readValue .cr1 s)) (regRead .cr1 s))) := by
  simp only [exec, execUpdateBaudRate, whileRunning_of_running hr, hm]
  split_ifs <;> rfl

theorem exec_updateBaudRate_conclude (baud : Word) (hm : r.mpc = .conclude) :
    exec (.updateBaudRate baud) s = .next (finish r (writeR0 .ok s)) := by
  simp only [exec, execUpdateBaudRate, whileRunning_of_running hr, hm, finishWith]

end

/-- The locals UPDATE_BAUD_RATE assigns, with the two factors written as conditions (R186). -/
theorem updateBaudLocals_eq (c1 : Word) (l : Locals) :
    updateBaudLocals c1 l =
      { l with
        c1 := c1
        en := if bit c1 Cr1.ue then 1 else 0
        o := if bit c1 Cr1.over8 then 8 else 16 } := by
  rw [updateBaudLocals, oversampling]
  cases bit c1 Cr1.ue <;> cases bit c1 Cr1.over8 <;> rfl

/-- Clearing UE and writing it back leaves CR1 as it was (R186). -/
theorem setBit_restore (w : Word) (n : Nat) (v : Bool) (hn : n < 32) : setBit (setBit w n v) n (bit w n) = w :=
  word_ext fun m _ => by
    rw [bit_setBit _ _ _ _ hn, bit_setBit _ _ _ _ hn]
    split
    · next h => rw [h]
    · rfl

/-- The channel and the events of UPDATE_BAUD_RATE's block, for the CR1 it has read from a clocked channel. -/
theorem updateBaudWrites_clocked (clk : Nat) (baud : Word) (c : Channel) :
    let brr := packDivisor (divisor clk baud.toNat (if bit c.cr1 Cr1.over8 then 8 else 16))
    chanAfter true (updateBaudWrites clk baud c.cr1) c = { c with brr := brr } ∧
      fieldEvents true (updateBaudWrites clk baud c.cr1) c =
        [.regWr .cr1 (setBit c.cr1 Cr1.ue false), .regWr .brr brr, .regWr .cr1 c.cr1] := by
  have hue := setBit_restore c.cr1 Cr1.ue false (by decide)
  simp only [chanAfter, fieldEvents, updateBaudWrites, List.foldl, FieldWrite.apply, FieldWrite.reg,
    Channel.afterWrite, Channel.value, packDivisor_masked, oversampling, if_true, hue]
  exact ⟨trivial, trivial⟩

end Sys2Proof.Machine

open Sys2Proof Sys2Proof.Machine

/-- Settles O35: a DR write's SR is read off bit by bit, and the other writes store under their masks. -/
theorem registerWritesHaveTheirEffects : Obligations.RegisterWritesHaveTheirEffects := by
  intro s v hc
  refine ⟨⟨_, regWrite_of_clocked hc .dr v, bit_srAfterDataWrite _⟩, ⟨_, regWrite_of_clocked hc .brr v, fun n => ?_⟩,
    ⟨_, regWrite_of_clocked hc .cr1 v, fun n => ?_⟩, ⟨_, regWrite_of_clocked hc .cr2 v, fun n => ?_⟩,
    ⟨_, regWrite_of_clocked hc .cr3 v, fun n => ?_⟩⟩
  · rw [bit_and, bit_brrMask, Bool.and_comm]
  · rw [bit_and, bit_cr1Mask, Bool.and_comm]
  · rw [bit_and, bit_cr2Mask, Bool.and_comm]
  · rw [bit_and, bit_cr3Mask, Bool.and_comm]

/-- Settles O36: each access tests the clock before it touches the channel, and so does each LINE event's guard. -/
theorem unclockedChannelReadsZeroAndKeepsItsState : Obligations.UnclockedChannelReadsZeroAndKeepsItsState := by
  intro s hc
  refine ⟨fun g => ⟨readValue_of_unclocked hc g, regRead_of_unclocked hc g⟩, regWrite_of_unclocked hc, fun ws => ?_,
    lineEnabled_of_unclocked hc⟩
  rw [writeFields_chan, hc]
  rfl

/-- Settles O33: the block clears UE, writes BRR and restores UE, all of which an unclocked channel ignores. -/
theorem updateBaudRateWritesOnlyTheDivisor : Obligations.UpdateBaudRateWritesOnlyTheDivisor := by
  intro baud s r hr
  refine ⟨fun hm hb => ?_, fun hm hb hc => ?_, fun hm hb hc => ?_, exec_updateBaudRate_conclude hr baud⟩
  · rw [exec_updateBaudRate_entry hr baud hm, if_pos hb]
  · have hread : readValue .cr1 s = s.chan.cr1 := if_pos hc
    obtain ⟨hchan, hevents⟩ := updateBaudWrites_clocked s.params.clockHz baud s.chan
    have hchan' : (regRead .cr1 s).chan = s.chan := (regRead_chan .cr1 s).trans (if_pos hc)
    rw [exec_updateBaudRate_entry hr baud hm, if_neg hb, hread, updateBaudLocals_eq, writeFields_eq, hchan',
      regRead_plat, hc, hchan, hevents, regRead_hist, hread, List.append_assoc]
    rfl
  · rw [exec_updateBaudRate_entry hr baud hm, if_neg hb, readValue_of_unclocked hc, updateBaudLocals_eq,
      writeFields_eq, regRead_of_unclocked hc, hc]
    exact ⟨s.chan.cr1, s.chan.brr, s.chan.cr1, by rw [List.append_assoc]; rfl⟩

end

section
/-! SUPPORT. The shared pieces of a waiting command's step, each by the outcome of its test (R62, R140, R160), and
SEND_STRING and RECEIVE, position by position (R145, R160). -/

namespace Sys2Proof.Machine

open Sys2Proof

section
variable {r : Running} {s : State}

/-! ### The wait and the loops -/

theorem waitPolled_of_set {k : PollFlag} {tmo : Option Word} {ready : Running → State → State}
    (h : bit r.locals.status (pollBit k) = true) : waitPolled k tmo ready r s = ready r s :=
  if_pos h

theorem waitPolled_of_clear {k : PollFlag} {tmo : Option Word} {ready : Running → State → State}
    (h : bit r.locals.status (pollBit k) = false) :
    waitPolled k tmo ready r s =
      match tmo with
      | some _ => stepReadTime (.testTimeout k) r s
      | none => stepPoll k r s :=
  if_neg (by simp [h])

theorem waitTimed_eq (k : PollFlag) (tmo : Word) (out : Running → State → State) :
    waitTimed k tmo out r s =
      if tmo.toNat < (r.locals.t - r.locals.start).toNat then out r s else stepPoll k r s := by
  simp only [waitTimed, expired_iff]

theorem stepReadByte_of_granted {a : Word} (h : s.grants a .read = true) :
    stepReadByte a r s =
      setRunning { r with mpc := .useByte, locals := { r.locals with b := (s.byteAt a).setWidth 32 } }
        (record (.memRd a (s.byteAt a)) s) := by
  rw [stepReadByte, if_pos h]

/-- A refused read leaves FG stuck (R61, R223). -/
theorem stepReadByte_of_refused {a : Word} (h : s.grants a .read = false) : stepReadByte a r s = s := by
  rw [stepReadByte, h]
  rfl

theorem stepWriteByte_of_granted {a : Word} {v : Byte} (h : s.grants a .write = true) :
    stepWriteByte a v r s =
      setRunning { r with mpc := .endStore } (record (.memWr a v) { s with mem := Memory.set s.mem a.toNat v }) := by
  rw [stepWriteByte, if_pos h]

/-- A refused store leaves FG stuck (R61, R223). -/
theorem stepWriteByte_of_refused {a : Word} {v : Byte} (h : s.grants a .write = false) :
    stepWriteByte a v r s = s := by
  rw [stepWriteByte, h]
  rfl

theorem stringByte_of_below {a : Word} (h : a.toNat + r.locals.i.toNat < 2 ^ 32) :
    stringByte a r s = stepReadByte (a + r.locals.i) r s := by
  rw [stringByte, if_neg (by rw [pastTop_iff]; omega)]
  rfl

/-- Byte 0 of a string is at its address. -/
theorem stringByte_of_first {a : Word} (h : r.locals.i = 0) : stringByte a r s = stepReadByte a r s := by
  rw [stringByte_of_below (by rw [h]; exact a.isLt), h]
  exact congrArg (fun x => stepReadByte x r s) (BitVec.add_zero a)

theorem stringByte_of_past {a : Word} (h : 2 ^ 32 ≤ a.toNat + r.locals.i.toNat) :
    stringByte a r s = stepRaise .bufferWrap r s := by
  rw [stringByte, if_pos ((pastTop_iff _ _).2 h)]

/-- The local `e` after Decode, with its codes written out (R84, R161; log entry 16). -/
theorem decodedCode_eq (w : Word) :
    decodedCode (decodeErrors w) =
      if bit w 0 then 4 else if bit w 1 then 5 else if bit w 2 then 6 else if bit w 3 then 7 else 0 := by
  unfold decodeErrors
  split_ifs <;> rfl

/-! ### SEND_STRING (R145) -/

section
variable (hr : s.phase = .running r) (a : Word)
include hr

theorem exec_sendString_entry (hm : r.mpc = .entry) :
    exec (.sendString a) s =
      .next (if a = 0 then raiseFault .badArg s
        else stepReadByte a { r with locals := { r.locals with i := 0 } } s) := by
  rw [← stringByte_of_first rfl]
  simp only [exec, execSendString, whileRunning_of_running hr, hm, stepRaise_unchanged hr]
  split_ifs <;> rfl

theorem exec_sendString_useByte (hm : r.mpc = .useByte) :
    exec (.sendString a) s = .next (if r.locals.b = 0 then stepPoll .tc r s else stepPoll .txe r s) := by
  simp only [exec, execSendString, whileRunning_of_running hr, hm]
  split_ifs <;> rfl

theorem exec_sendString_txe (hm : r.mpc = .testFlag .txe) :
    exec (.sendString a) s = .next (waitPolled .txe none (fun r s => stepWriteData r.locals.b r s) r s) := by
  simp only [exec, execSendString, whileRunning_of_running hr, hm]

theorem exec_sendString_tc (hm : r.mpc = .testFlag .tc) :
    exec (.sendString a) s = .next (waitPolled .tc none finish r s) := by
  simp only [exec, execSendString, whileRunning_of_running hr, hm]

theorem exec_sendString_endFrame (hm : r.mpc = .endFrame) :
    exec (.sendString a) s =
      .next (stringByte a { r with locals := { r.locals with i := r.locals.i + 1 } } s) := by
  simp only [exec, execSendString, whileRunning_of_running hr, hm, nextStringByte]

end

/-! ### RECEIVE (R160) -/

section
variable (hr : s.phase = .running r) (a n w : Word)
include hr

theorem exec_receive_entry (hm : r.mpc = .entry) :
    exec (.receive a n w) s = .next (if a = 0 ∨ n = 0 then finish r (writeR0 .busy s) else stepReadCr1 r s) := by
  simp only [exec, execReceive, whileRunning_of_running hr, hm, bufferAbsent_iff]
  split_ifs <;> rfl

theorem exec_receive_testDirection (hm : r.mpc = .testDirection) :
    exec (.receive a n w) s =
      .next
        (if bit r.locals.c1 Cr1.re = false then finish r (writeR0 .busy s)
        else if 2 ^ 32 < a.toNat + n.toNat then raiseFault .bufferWrap s
        else stepReadStart r s) := by
  simp only [exec, execReceive, whileRunning_of_running hr, hm, bufferWraps_iff, stepRaise_unchanged hr]
  split_ifs <;> rfl

theorem exec_receive_enterLoop (hm : r.mpc = .enterLoop) :
    exec (.receive a n w) s = .next (stepPoll .rxne { r with locals := { r.locals with i := 0 } } s) := by
  simp only [exec, execReceive, whileRunning_of_running hr, hm]

theorem exec_receive_testFlag (hm : r.mpc = .testFlag .rxne) :
    exec (.receive a n w) s = .next (waitPolled .rxne (some w) (stepReadStatus .useStatus) r s) := by
  simp only [exec, execReceive, whileRunning_of_running hr, hm]

theorem exec_receive_testTimeout (hm : r.mpc = .testTimeout .rxne) :
    exec (.receive a n w) s =
      .next
        (if w.toNat < (r.locals.t - r.locals.start).toNat then finish r (writeR0 .timeout s)
        else stepPoll .rxne r s) := by
  simp only [exec, execReceive, whileRunning_of_running hr, hm, waitTimed_eq, finishWith]

theorem exec_receive_useStatus (hm : r.mpc = .useStatus) :
    exec (.receive a n w) s =
      .next (stepReadData { r with locals := { r.locals with e := decodedCode (decodeErrors r.locals.status) } } s) := by
  simp only [exec, execReceive, whileRunning_of_running hr, hm]

theorem exec_receive_useData (hm : r.mpc = .useData) :
    exec (.receive a n w) s =
      .next
        (if r.locals.e ≠ 0 then finishCode r.locals.e r s
        else stepWriteByte (a + r.locals.i) (r.locals.d.setWidth 8) r s) := by
  simp only [exec, execReceive, whileRunning_of_running hr, hm]
  rfl

theorem exec_receive_endStore (hm : r.mpc = .endStore) :
    exec (.receive a n w) s =
      .next
        (if r.locals.i.toNat + 1 < n.toNat then
          stepPoll .rxne { r with locals := { r.locals with i := r.locals.i + 1 } } s
        else finish r (writeR0 .ok s)) := by
  simp only [exec, execReceive, whileRunning_of_running hr, hm]
  rfl

end

end

end Sys2Proof.Machine

open Sys2Proof Sys2Proof.Machine

/-- Settles O25: each position's step, by the outcome of its test. -/
theorem sendStringFollowsItsPseudocode : Obligations.SendStringFollowsItsPseudocode := by
  intro a s r hr
  have hsucc (ha : a ≠ 0) (h : a.toNat + r.locals.i.toNat + 1 = 2 ^ 32) :
      (r.locals.i + 1).toNat = r.locals.i.toNat + 1 := by bv_omega
  refine ⟨fun hm ha => ?_, fun hm ha hg => ?_, fun hm ha hg => ?_, fun hm hb => ?_, fun hm hb => ?_, fun hm hs => ?_,
    fun hm ha h => ?_, fun hm h hg => ?_, fun hm h hg => ?_, fun hm hs => ?_, ?_⟩
  · rw [exec_sendString_entry hr a hm, if_pos ha]
  · rw [exec_sendString_entry hr a hm, if_neg ha, stepReadByte_of_granted hg]
  · rw [exec_sendString_entry hr a hm, if_neg ha, stepReadByte_of_refused hg]
  · rw [exec_sendString_useByte hr a hm, if_neg hb]
    rfl
  · rw [exec_sendString_useByte hr a hm, if_pos hb]
    rfl
  · rw [exec_sendString_txe hr a hm, waitPolled_of_set hs]
    rfl
  · rw [exec_sendString_endFrame hr a hm, stringByte_of_past (by rw [hsucc ha h]; omega)]
    rfl
  · rw [exec_sendString_endFrame hr a hm, stringByte_of_below (by bv_omega), stepReadByte_of_granted hg]
  · rw [exec_sendString_endFrame hr a hm, stringByte_of_below (by bv_omega), stepReadByte_of_refused hg]
  · rw [exec_sendString_tc hr a hm, waitPolled_of_set hs]
  · rintro k (rfl | rfl) hm hs
    · rw [exec_sendString_txe hr a hm, waitPolled_of_clear hs]
      rfl
    · rw [exec_sendString_tc hr a hm, waitPolled_of_clear hs]
      rfl

/-- Settles O26: each position's step, by the outcome of its test. -/
theorem receiveFollowsItsPseudocode : Obligations.ReceiveFollowsItsPseudocode := by
  intro a n w s r hr
  refine ⟨fun hm h => ?_, fun hm ha hn => ?_, fun hm hre => ?_, fun hm hre h => ?_, fun hm hre h => ?_, fun hm => ?_,
    fun hm hs => ?_, fun hm hs => ?_, fun hm h => ?_, fun hm h => ?_, fun hm => ?_, fun hm he => ?_,
    fun hm he hg => ?_, fun hm he hg => ?_, fun hm h => ?_, fun hm h => ?_⟩
  · rw [exec_receive_entry hr a n w hm, if_pos h]
  · rw [exec_receive_entry hr a n w hm, if_neg (not_or.2 ⟨ha, hn⟩)]
    rfl
  · rw [exec_receive_testDirection hr a n w hm, if_pos hre]
  · rw [exec_receive_testDirection hr a n w hm, if_neg (by simp [hre]), if_pos h]
  · rw [exec_receive_testDirection hr a n w hm, if_neg (by simp [hre]), if_neg (by omega)]
    rfl
  · rw [exec_receive_enterLoop hr a n w hm]
    rfl
  · rw [exec_receive_testFlag hr a n w hm, waitPolled_of_set hs]
    rfl
  · rw [exec_receive_testFlag hr a n w hm, waitPolled_of_clear hs]
    rfl
  · rw [exec_receive_testTimeout hr a n w hm, if_pos h]
  · rw [exec_receive_testTimeout hr a n w hm, if_neg (by omega)]
    rfl
  · rw [exec_receive_useStatus hr a n w hm, decodedCode_eq]
    rfl
  · rw [exec_receive_useData hr a n w hm, if_pos he]
    rfl
  · rw [exec_receive_useData hr a n w hm, if_neg (not_not.2 he), stepWriteByte_of_granted hg]
  · rw [exec_receive_useData hr a n w hm, if_neg (not_not.2 he), stepWriteByte_of_refused hg]
  · rw [exec_receive_endStore hr a n w hm, if_pos h]
    rfl
  · rw [exec_receive_endStore hr a n w hm, if_neg (by omega)]

end

section
/-! SUPPORT. The reset state (R53, R250). -/

namespace Sys2Proof.Machine

open Sys2Proof

/-- While FG is Idle it runs no instruction. -/
theorem not_runsInstr_of_idle {s : State} (hp : s.phase = .idle) (r : Running) (i : Instr) : ¬ s.runsInstr r i :=
  fun h => nomatch hp.symm.trans h.1

end Sys2Proof.Machine

open Sys2Proof Sys2Proof.Machine

/-- Settles O9: the reset state is given field by field. -/
theorem resetLeavesTheSpecifiedValues : Obligations.ResetLeavesTheSpecifiedValues :=
  ⟨fun _ _ _ _ => ⟨rfl, rfl, rfl, rfl, rfl, rfl, rfl, rfl, rfl, rfl, rfl, rfl, rfl, rfl, rfl, rfl, rfl⟩, rfl, rfl⟩

/-- Settles O51: FG is Idle, no result is set and every register but SR is 0, whose set bits are TC and TXE. -/
theorem resetMeetsTheInvariants : Obligations.ResetMeetsTheInvariants := by
  intro p prog mem sched hmem
  refine ⟨hmem, ?_, controllerConsistent_of_idle rfl, fun r i h => absurd h (not_runsInstr_of_idle rfl r i),
    ⟨nofun, nofun⟩, fun r i a n w h => absurd h (not_runsInstr_of_idle rfl r i)⟩
  exact ⟨(by decide : (0xC0 : Word) &&& ~~~(implementedMask .sr) = 0), BitVec.zero_and, BitVec.zero_and,
    BitVec.zero_and, BitVec.zero_and, fun _ =>
    (by decide : bit 0xC0 Sr.idle = false ∧ bit 0xC0 Sr.lbd = false ∧ bit 0xC0 Sr.cts = false)⟩

end

section
/-! SUPPORT. Caller memory: the one step that writes it (R60 to R62, R160). -/

namespace Sys2Proof.Machine

open Sys2Proof

/-- Caller memory after RECEIVE's store, by a command that stands at it: the byte at the address of its current byte is
written, and no other. -/
def StoresByte (i : Instr) (r : Running) (s t : State) : Prop :=
  ∃ a n w v, i = .receive a n w ∧ r.mpc = .useData ∧
    t.mem = Memory.set s.mem (byteAddress a r.locals.i).toNat v

theorem Access.mem {i : Instr} {r : Running} {s t : State} (h : Access i r s t) :
    t.mem = s.mem ∨ StoresByte i r s t := by
  cases h with
  | writeByte a n w v hi hm => exact .inr ⟨a, n, w, v, hi, hm, rfl⟩
  | _ => exact .inl (by simp)

/-- An FG step leaves caller memory as it is or is RECEIVE's store. -/
theorem FgEffect.mem {i : Instr} {r : Running} {s t : State} (h : FgEffect i r s t) :
    t.mem = s.mem ∨ StoresByte i r s t := by
  cases h with
  | moved r' u hu => exact hu.mem
  | _ => exact .inl rfl

/-- LINE does not touch caller memory (R60, R200). -/
theorem lineEffect_mem (e : LineEvent) (s : State) : (lineEffect e s).mem = s.mem := by rw [lineEffect_eq]

theorem byteAt_of_mem_eq {s t : State} (h : t.mem = s.mem) (x : Word) : t.byteAt x = s.byteAt x :=
  congrArg (fun m => Memory.get m x.toNat) h

/-- A store leaves every byte but its own as it is, in canonical form or not. -/
theorem byteAt_of_stored {s t : State} {a x : Word} {v : Byte} (h : t.mem = Memory.set s.mem a.toNat v) (hx : x ≠ a) :
    t.byteAt x = s.byteAt x := by
  rw [State.byteAt, h]
  exact Memory.get_set_ne _ _ _ v fun hxa => hx (BitVec.eq_of_toNat_eq hxa)

/-- A step of the machine leaves caller memory as it is or is the store of a running RECEIVE. -/
theorem step_mem {s t : State} (h : step s = .next t) :
    t.mem = s.mem ∨ ∃ r i, s.runsInstr r i ∧ StoresByte i r s t := by
  obtain ⟨-, he⟩ := step_effect h
  cases he with
  | line e => exact .inl (lineEffect_mem e (takeMove s))
  | command r i t hm hr he => exact (command_effect hr he).mem.imp_right fun hst => ⟨r, i, hr, hst⟩
  | _ => exact .inl rfl

end Sys2Proof.Machine

open Sys2Proof Sys2Proof.Machine

/-- Settles O45: memory changes only by a store to a 32-bit address, which keeps the canonical form. -/
theorem memoryStaysCanonical : Obligations.MemoryStaysCanonical := by
  intro s t hs h
  obtain ht | ⟨r, i, -, a, n, w, v, -, -, ht⟩ := step_mem h <;> rw [MemoryCanonical, ht]
  · exact hs
  · exact Memory.set_wf s.mem _ v hs

/-- Settles O41: only RECEIVE's store changes memory; past its two tests it writes the byte that then reads back. -/
theorem onlyReceiveStoresAndOnlyItsByte : Obligations.OnlyReceiveStoresAndOnlyItsByte := by
  refine ⟨fun i s t h hi => byteAt_of_mem_eq ?_, fun a n w s t r hr h => ?_⟩
  · obtain ⟨-, rfl | rfl⟩ | ⟨r, -, he⟩ := exec_cases h
    · rfl
    · rfl
    · exact he.mem.resolve_right fun ⟨a, n, w, _, hreceive, _⟩ => hi a n w hreceive
  · refine ⟨fun x hx => ?_, fun hm => byteAt_of_mem_eq ?_, fun hm hrefused => ?_, fun hs hm he hg => ?_⟩
    · obtain ht | ⟨_, _, _, v, ⟨⟩, -, ht⟩ := (exec_effect (by simp) hr h).mem
      · exact byteAt_of_mem_eq ht x
      · exact byteAt_of_stored ht hx
    · exact (exec_effect (by simp) hr h).mem.resolve_right fun ⟨_, _, _, _, _, hm', _⟩ => hm hm'
    · rw [exec_receive_useData hr a n w hm] at h
      cases h
      split
      · rfl
      · next he => rw [stepWriteByte_of_refused (a := a + r.locals.i) (hrefused.resolve_left he)]
    · rw [exec_receive_useData hr a n w hm, if_neg (not_not.2 he),
        stepWriteByte_of_granted (a := a + r.locals.i) hg] at h
      cases h
      exact (Memory.get_set _ _ _ _ _ hs).trans (if_pos rfl)

end

section
/-! SUPPORT. The byte loops of TRANSMIT and RECEIVE stay inside their buffers (R62, R63, R141, R160). -/

namespace Sys2Proof.Machine

open Sys2Proof

/-! ### A command that goes on is the same instruction (R24, R47) -/

/-- After a step of `i` a command that is still running decodes to `i`. -/
theorem FgEffect.runsInstr_eq {i j : Instr} {r r' : Running} {s t : State} (h : FgEffect i r s t)
    (hr : s.runsInstr r i) (ht : t.runsInstr r' j) : j = i := by
  obtain ⟨⟨r'', hr'', ⟨-, ha0, ha1, ha2⟩, -⟩, hci, -⟩ | ⟨c, rfl⟩ := h.runsOn_or_finish hr.1
  · cases hr''.symm.trans ht.1
    have hcmd : runningCommand r' t = runningCommand r s := by
      rw [runningCommand, runningCommand, hci, ha0, ha1, ha2]
    exact Decoded.instr.inj (ht.2.symm.trans (hcmd ▸ hr.2))
  · cases ht.1

/-- Which instruction runs is read off FG's phase and CMD alone. -/
theorem State.runsInstr.congr {s t : State} {r : Running} {i : Instr} (h : t.runsInstr r i)
    (hp : t.phase = s.phase) (hc : t.ci = s.ci) : s.runsInstr r i :=
  ⟨hp ▸ h.1, by simpa only [runningCommand, hc] using h.2⟩

/-- A command just issued stands at its entry (R47). -/
theorem issue_runsInstr {c : HostCommand} {s : State} {r : Running} {i : Instr} (h : (issue c s).runsInstr r i) :
    r.mpc = .entry := by
  cases h.1
  rfl

/-! ### Where a step leaves FG, if it leaves it Running -/

/-- Where FG is Running, what it runs meets `P`. -/
def RunningMeets (P : Running → Prop) (s : State) : Prop := ∀ r, s.phase = .running r → P r

section
variable {P : Running → Prop} {r : Running} {s : State}

theorem RunningMeets.of_running (hr : s.phase = .running r) (h : P r) : RunningMeets P s := by
  intro r' hr'
  cases hr.symm.trans hr'
  exact h

theorem RunningMeets.setRunning (h : P r) : RunningMeets P (setRunning r s) := .of_running rfl h

theorem RunningMeets.finish : RunningMeets P (finish r s) := nofun

theorem RunningMeets.waitPolled {k : PollFlag} {tmo : Word} {ready : Running → State → State}
    (hready : RunningMeets P (ready r s))
    (htime : ∀ t, P { r with mpc := .testTimeout k, locals := { r.locals with t := t } }) :
    RunningMeets P (waitPolled k (some tmo) ready r s) := by
  unfold Machine.waitPolled
  split
  · exact hready
  · exact .setRunning (htime _)

theorem RunningMeets.waitTimed {k : PollFlag} {tmo : Word} {out : Running → State → State}
    (hout : RunningMeets P (out r s))
    (hpoll : ∀ v, P { r with mpc := .testFlag k, locals := { r.locals with status := v } }) :
    RunningMeets P (waitTimed k tmo out r s) := by
  unfold Machine.waitTimed
  split
  · exact hout
  · exact .setRunning (hpoll _)

theorem RunningMeets.nextByte {n : Word} {more last : Running → State → State}
    (hmore : r.locals.i.toNat + 1 < n.toNat →
      RunningMeets P (more { r with locals := { r.locals with i := r.locals.i + 1 } } s))
    (hlast : RunningMeets P (last r s)) : RunningMeets P (nextByte n more last r s) := by
  unfold Machine.nextByte
  split
  · next h => exact hmore h
  · exact hlast

/-- A memory read is stuck or done (R61, R223). -/
theorem RunningMeets.stepReadByte {a : Word} (hs : RunningMeets P s)
    (hread : ∀ b, P { r with mpc := .useByte, locals := { r.locals with b := b } }) :
    RunningMeets P (stepReadByte a r s) := by
  unfold Machine.stepReadByte
  split
  · exact .setRunning (hread _)
  · exact hs

/-- A decoded error ends RECEIVE; otherwise the store is stuck or done (R61, R160, R223). -/
theorem RunningMeets.storeOrReport {a : Word} (hs : RunningMeets P s) (hstore : P { r with mpc := .endStore }) :
    RunningMeets P (storeOrReport a r s) := by
  unfold Machine.storeOrReport stepWriteByte
  split
  · exact .finish
  · split
    · exact .setRunning hstore
    · exact hs

end

/-! ### The invariant of one running command -/

/-- What `BufferLoopInBounds` says of a TRANSMIT or RECEIVE of the buffer `a`, `n` that runs at `r`. -/
structure RunsInBounds (a n : Word) (r : Running) : Prop where
  present : r.mpc ≠ .entry → bufferAbsent a n = false
  fits : r.mpc ≠ .entry → r.mpc ≠ .testDirection → bufferWraps a n = false
  index : inByteLoop r.mpc = true → r.locals.i.toNat < n.toNat

section
variable {a n w : Word} {r r' : Running} {s t : State}

theorem runsInBounds_of_entry (hm : r.mpc = .entry) : RunsInBounds a n r :=
  ⟨fun h => absurd hm h, fun h => absurd hm h, fun h => by rw [hm] at h; cases h⟩

/-- Past the test for an absent buffer the buffer is present (R63). -/
theorem runsInBounds_of_present (h : bufferAbsent a n = false) (hm : r.mpc = .testDirection) : RunsInBounds a n r :=
  ⟨fun _ => h, fun _ h' => absurd hm h', fun h' => by rw [hm] at h'; cases h'⟩

/-- Past the test for a wrapping buffer the buffer does not wrap (R62). -/
theorem RunsInBounds.enterLoop (h : RunsInBounds a n r) (hm : r.mpc = .testDirection) (hw : bufferWraps a n = false)
    (hm' : r'.mpc = .enterLoop) : RunsInBounds a n r' :=
  ⟨fun _ => h.present (by simp [hm]), fun _ _ => hw, fun h' => by rw [hm'] at h'; cases h'⟩

/-- Past both tests only the index of the current byte is left to bound. -/
theorem RunsInBounds.goOn (h : RunsInBounds a n r) (hm : r.mpc ≠ .entry ∧ r.mpc ≠ .testDirection)
    (hi : inByteLoop r'.mpc = true → r'.locals.i.toNat < n.toNat) : RunsInBounds a n r' :=
  ⟨fun _ => h.present hm.1, fun _ _ => h.fits hm.1 hm.2, hi⟩

theorem past_of_inByteLoop {m : Mpc} (h : inByteLoop m = true) : m ≠ .entry ∧ m ≠ .testDirection := by
  constructor <;> rintro rfl <;> cases h

/-- The loop starts at byte 0 of a buffer that is not empty. -/
theorem RunsInBounds.firstByte (h : RunsInBounds a n r) (hm : r.mpc = .enterLoop) (hi : r'.locals.i = 0) :
    RunsInBounds a n r' := by
  have hpresent := h.present (by simp [hm])
  rw [← Bool.not_eq_true, bufferAbsent_iff, not_or] at hpresent
  refine h.goOn (by simp [hm]) fun _ => ?_
  rw [hi]
  exact Nat.pos_of_ne_zero fun hn => hpresent.2 (BitVec.eq_of_toNat_eq hn)

/-- The loop goes on to the next byte only where there is one. -/
theorem RunsInBounds.nextByte (h : RunsInBounds a n r) (hm : inByteLoop r.mpc = true)
    (hlt : r.locals.i.toNat + 1 < n.toNat) (hi : r'.locals.i = r.locals.i + 1) : RunsInBounds a n r' := by
  refine h.goOn (past_of_inByteLoop hm) fun _ => ?_
  rw [hi]
  bv_omega

/-- Inside the loop every other step stays on the current byte. -/
theorem RunsInBounds.sameByte (h : RunsInBounds a n r) (hm : inByteLoop r.mpc = true)
    (hi : r'.locals.i = r.locals.i) : RunsInBounds a n r' :=
  h.goOn (past_of_inByteLoop hm) fun _ => hi ▸ h.index hm

theorem exec_transmit_runsInBounds (hr : s.phase = .running r) (h : RunsInBounds a n r)
    (he : exec (.transmit a n w) s = .next t) : RunningMeets (RunsInBounds a n) t := by
  have hstay : RunningMeets (RunsInBounds a n) s := .of_running hr h
  simp only [exec, execTransmit, whileRunning_of_running hr] at he
  (repeat' split at he) <;> cases he
  · exact .finish
  · next hpresent => exact .setRunning (runsInBounds_of_present (by simpa using hpresent) rfl)
  · exact .finish
  · exact .setRunning h
  · next hm _ hwraps => exact .setRunning (h.enterLoop hm (by simpa using hwraps) rfl)
  · next hm => exact .setRunning (h.firstByte hm rfl)
  · next hm =>
    exact .waitPolled (.stepReadByte hstay fun _ => h.sameByte (hm ▸ rfl) rfl)
      fun _ => h.sameByte (hm ▸ rfl) rfl
  · next hm => exact .waitTimed .finish fun _ => h.sameByte (hm ▸ rfl) rfl
  · next hm => exact .setRunning (h.sameByte (hm ▸ rfl) rfl)
  · next hm =>
    exact .nextByte (fun hlt => .setRunning (h.nextByte (hm ▸ rfl) hlt rfl))
      (.setRunning (h.sameByte (hm ▸ rfl) rfl))
  · next hm => exact .waitPolled .finish fun _ => h.goOn (by simp [hm]) nofun
  · next hm => exact .waitTimed .finish fun _ => h.goOn (by simp [hm]) nofun

theorem exec_receive_runsInBounds (hr : s.phase = .running r) (h : RunsInBounds a n r)
    (he : exec (.receive a n w) s = .next t) : RunningMeets (RunsInBounds a n) t := by
  have hstay : RunningMeets (RunsInBounds a n) s := .of_running hr h
  simp only [exec, execReceive, whileRunning_of_running hr] at he
  (repeat' split at he) <;> cases he
  · exact .finish
  · next hpresent => exact .setRunning (runsInBounds_of_present (by simpa using hpresent) rfl)
  · exact .finish
  · exact .setRunning h
  · next hm _ hwraps => exact .setRunning (h.enterLoop hm (by simpa using hwraps) rfl)
  · next hm => exact .setRunning (h.firstByte hm rfl)
  · next hm =>
    exact .waitPolled (.setRunning (h.sameByte (hm ▸ rfl) rfl)) fun _ => h.sameByte (hm ▸ rfl) rfl
  · next hm => exact .waitTimed .finish fun _ => h.sameByte (hm ▸ rfl) rfl
  · next hm => exact .setRunning (h.sameByte (hm ▸ rfl) rfl)
  · next hm => exact .storeOrReport hstay (h.sameByte (hm ▸ rfl) rfl)
  · next hm => exact .nextByte (fun hlt => .setRunning (h.nextByte (hm ▸ rfl) hlt rfl)) .finish

end

/-! ### The invariant of the machine -/

/-- The buffer of a TRANSMIT or a RECEIVE. -/
def HasBuffer (i : Instr) (a n : Word) : Prop := ∃ w, i = .transmit a n w ∨ i = .receive a n w

theorem bufferLoopInBounds_iff (s : State) :
    BufferLoopInBounds s ↔ ∀ r i a n, s.runsInstr r i → HasBuffer i a n → RunsInBounds a n r := by
  constructor
  · rintro h r i a n hr ⟨w, hi⟩
    obtain ⟨hpresent, hfits, hindex⟩ := h r i a n w hr hi
    exact ⟨hpresent, hfits, hindex⟩
  · intro h r i a n w hr hi
    obtain ⟨hpresent, hfits, hindex⟩ := h r i a n hr ⟨w, hi⟩
    exact ⟨hpresent, hfits, hindex⟩

/-- The invariant speaks of FG's phase and the command interface alone. -/
theorem BufferLoopInBounds.congr {s t : State} (h : BufferLoopInBounds s) (hp : t.phase = s.phase)
    (hc : t.ci = s.ci) : BufferLoopInBounds t :=
  fun r i a n w ht => h r i a n w (ht.congr hp hc)

theorem exec_bufferLoopInBounds {i : Instr} {r : Running} {s t : State} (h : BufferLoopInBounds s)
    (hr : s.runsInstr r i) (he : exec i s = .next t) : BufferLoopInBounds t := by
  rw [bufferLoopInBounds_iff] at h ⊢
  intro r' j a n ht hj
  cases (exec_effect (decodeCommand_ne_tick hr.2) hr.1 he).runsInstr_eq hr ht
  have hin := h r i a n hr hj
  obtain ⟨w, rfl | rfl⟩ := hj
  · exact exec_transmit_runsInBounds hr.1 hin he r' ht.1
  · exact exec_receive_runsInBounds hr.1 hin he r' ht.1

theorem step_bufferLoopInBounds {s t : State} (h : BufferLoopInBounds s) (hs : step s = .next t) :
    BufferLoopInBounds t := by
  obtain ⟨-, he⟩ := step_effect hs
  cases he with
  | nothing | ticked | badCommand => exact h.congr rfl rfl
  | line e =>
    have hk := lineEffect_keepsControl e (takeMove s)
    exact h.congr hk.phase hk.ci
  | issued c =>
    rw [bufferLoopInBounds_iff]
    exact fun r i a n hr _ => runsInBounds_of_entry (issue_runsInstr hr)
  | command r i t hm hr he => exact exec_bufferLoopInBounds (h.congr rfl rfl : BufferLoopInBounds (takeMove s)) hr he

/-- Within bounds the current byte's address does not wrap, and lies in the buffer (R62). -/
theorem RunsInBounds.byteAddress_mem {a n : Word} {r : Running} (h : RunsInBounds a n r)
    (hm : inByteLoop r.mpc = true) :
    a.toNat ≤ (byteAddress a r.locals.i).toNat ∧ (byteAddress a r.locals.i).toNat < a.toNat + n.toNat := by
  obtain ⟨hentry, hdirection⟩ := past_of_inByteLoop hm
  have hi := h.index hm
  have hw := h.fits hentry hdirection
  rw [← Bool.not_eq_true, bufferWraps_iff] at hw
  rw [byteAddress, BitVec.toNat_add]
  omega

end Sys2Proof.Machine

open Sys2Proof Sys2Proof.Machine

/-- Settles O50: each position of the two commands keeps its bounds, and RECEIVE's store goes to its current byte. -/
theorem bufferLoopsStayInBounds : Obligations.BufferLoopsStayInBounds := by
  refine fun s t hs h => ⟨step_bufferLoopInBounds hs h, fun x hx => ?_⟩
  obtain ht | ⟨r, i, hr, a, n, w, v, rfl, hm, ht⟩ := step_mem h
  · exact absurd (byteAt_of_mem_eq ht x) hx
  · have hxa : x = byteAddress a r.locals.i := by_contra fun hne => hx (byteAt_of_stored ht hne)
    have hin := (bufferLoopInBounds_iff s).1 hs r _ a n hr ⟨w, .inr rfl⟩
    exact ⟨r, a, n, w, hr, hxa ▸ hin.byteAddress_mem (hm ▸ rfl)⟩

end

section
/-! SUPPORT. TXE at a DR write (R66, R67, R269): which steps write DR, and what keeps TXE until they do. -/

namespace Sys2Proof.Machine

open Sys2Proof

/-! ### The steps that write DR -/

/-- From `s` to `t` the history grows by events none of which is a DR write. -/
def WritesNoData (s t : State) : Prop := ∃ l, t.hist = s.hist ++ l ∧ ∀ v, Event.regWr .dr v ∉ l

theorem WritesNoData.of_hist_eq {s t : State} (h : t.hist = s.hist) : WritesNoData s t :=
  ⟨[], by rw [h, List.append_nil], fun _ => List.not_mem_nil⟩

theorem WritesNoData.of_event {s t : State} (e : Event) (h : t.hist = s.hist ++ [e]) (he : ∀ v, e ≠ .regWr .dr v) :
    WritesNoData s t :=
  ⟨[e], h, fun v hv => he v (List.mem_singleton.1 hv).symm⟩

theorem WritesNoData.trans {s t u : State} (h : WritesNoData s t) (h' : WritesNoData t u) : WritesNoData s u := by
  obtain ⟨l, hl, hno⟩ := h
  obtain ⟨l', hl', hno'⟩ := h'
  refine ⟨l ++ l', by rw [hl', hl, List.append_assoc], fun v hv => ?_⟩
  exact (List.mem_append.1 hv).elim (hno v) (hno' v)

theorem WritesNoData.hist_ne {s t : State} (h : WritesNoData s t) (v : Word) : t.hist ≠ s.hist ++ [.regWr .dr v] := by
  obtain ⟨l, hl, hno⟩ := h
  intro heq
  exact hno v (List.append_cancel_left (hl.symm.trans heq) ▸ List.mem_singleton_self _)

/-- An `atomic` block writes control registers and BRR only (R124, R126, R182 to R186). -/
theorem writeFields_writesNoData (ws : List FieldWrite) (s : State) : WritesNoData s (writeFields ws s) := by
  obtain ⟨l, -, hl, hhist⟩ := writeFields_hist ws s
  refine ⟨l, hhist, fun v hv => ?_⟩
  obtain ⟨w, u, hw⟩ := hl _ hv
  exact w.reg_ne_dr (Event.regWr.inj hw).1.symm

/-- Where FG's next step may be a DR write (R141, R143, R145). -/
def AtDataWrite (i : Instr) (r : Running) : Prop :=
  r.mpc = .testFlag .txe ∧ bit r.locals.status Sr.txe = true ∨ r.mpc = .useByte ∧ ∃ a n w, i = .transmit a n w

theorem Access.dataWrite {i : Instr} {r : Running} {s t : State} (h : Access i r s t) :
    WritesNoData s t ∨ AtDataWrite i r := by
  cases h with
  | writeData v hi => exact .inr hi
  | startTicks => exact .inl (.of_hist_eq rfl)
  | initialise ws => exact .inl (writeFields_writesNoData ws (enableClockAndPins s))
  | enableBits mask => exact .inl (writeFields_writesNoData (enableBitWrites mask true) s)
  | disableBits mask => exact .inl (writeFields_writesNoData _ s)
  | updateBaud baud =>
    exact .inl (.trans (.of_event (.regRd .cr1 _) rfl nofun) (writeFields_writesNoData _ (regRead .cr1 s)))
  | _ => exact .inl (.of_event _ rfl nofun)

theorem FgEffect.dataWrite {i : Instr} {r : Running} {s t : State} (h : FgEffect i r s t) :
    WritesNoData s t ∨ AtDataWrite i r := by
  cases h with
  | stuck => exact .inl (.of_hist_eq rfl)
  | moved r' u hu => exact hu.dataWrite
  | _ => exact .inl (.of_event _ rfl nofun)

theorem lineEffect_writesNoData (e : LineEvent) (s : State) : WritesNoData s (lineEffect e s) := by
  cases e with
  | txDone => exact .of_hist_eq rfl
  | rx b pe fe nf => simp only [lineEffect]; split <;> exact .of_event _ rfl nofun
  | _ => exact .of_event _ rfl nofun

/-- A step that writes DR is that of a command standing where it does. -/
theorem step_dataWrite {s t : State} (h : step s = .next t) :
    WritesNoData s t ∨ ∃ r i, s.runsInstr r i ∧ AtDataWrite i r := by
  obtain ⟨-, he⟩ := step_effect h
  cases he with
  | nothing => exact .inl (.of_hist_eq rfl)
  | line e => exact .inl (lineEffect_writesNoData e (takeMove s))
  | command r i t hm hr he => exact (command_effect hr he).dataWrite.imp_right fun hat => ⟨r, i, hr, hat⟩
  | _ => exact .inl (.of_event _ rfl nofun)

/-! ### What keeps TXE -/

/-- No event of the device model clears TXE (R201 to R205). -/
theorem txe_deviceEvent {e : LineEvent} {s : State} (hdev : s.params.envModel = .device) (he : lineEnabled e s = true)
    (h : bit s.chan.sr Sr.txe = true) : bit (lineEffect e s).chan.sr Sr.txe = true := by
  cases e with
  | txLoad => exact (bit_setBit _ _ _ _ (by decide)).trans (if_pos rfl)
  | txDone =>
    simp only [lineEffect, txDone, h, if_true]
    exact (bit_setBit _ _ _ _ (by decide)).trans h
  | rx b pe fe nf =>
    simp only [lineEffect]
    split
    · exact (bit_setBit _ _ _ _ (by decide)).trans h
    · simpa (disch := decide) [rxFrame, bit_orBit, bit_setBit] using h
  | free v d =>
    rw [lineEnabled, hdev] at he
    cases he

/-- An SR read returns SR or, unclocked, 0, and leaves SR as it is: a flag it saw set is set (R44, R66). -/
theorem bit_sr_of_readValue {s : State} {n : Nat} (h : bit (readValue .sr s) n = true) :
    bit (regRead .sr s).chan.sr n = true := by
  rw [readValue] at h
  rw [regRead_chan]
  split at h
  · next hc => rwa [if_pos hc]
  · rw [bit_zero] at h
    cases h

/-- The invariant in one clause: wherever FG stands at a possible DR write, TXE is 1. -/
theorem txeSetBeforeDataWrite_iff (s : State) :
    TxeSetBeforeDataWrite s ↔ ∀ r i, s.runsInstr r i → AtDataWrite i r → bit s.chan.sr Sr.txe = true := by
  refine forall₂_congr fun r i => forall_congr' fun _ => ?_
  rw [AtDataWrite, or_imp, and_imp, and_imp]

/-- FG reaches a DR write by an SR read that sees TXE, after which it does nothing to the channel before the write
(R141, R143, R145). -/
theorem FgEffect.txeSetBeforeDataWrite {i : Instr} {r : Running} {s t : State} (he : FgEffect i r s t)
    (h : TxeSetBeforeDataWrite s) (hr : s.runsInstr r i) : TxeSetBeforeDataWrite t := by
  rw [txeSetBeforeDataWrite_iff] at h ⊢
  intro r' j ht hat
  obtain rfl := he.runsInstr_eq hr ht
  cases he with
  | stuck => exact h r' j ht hat
  | marked f r'' hc hm _ hs =>
    cases ht.1
    refine h r j hr ?_
    rwa [AtDataWrite, hm, hs] at hat
  | finished | finishedWith | reported | finishedValue => cases ht.1
  | moved r'' u hu _ _ _ hp hb =>
    cases ht.1
    obtain ⟨hm, htxe⟩ | ⟨hm, a, n, w, rfl⟩ := hat
    · obtain ⟨rfl, hstatus⟩ := hp _ hm
      exact bit_sr_of_readValue (hstatus ▸ htxe)
    · obtain ⟨hchan, hfrom⟩ := hb hm
      rw [setRunning_chan, hchan]
      exact h r _ hr (.inl (hfrom.resolve_right nofun))

theorem TxeSetBeforeDataWrite.congr {s t : State} (h : TxeSetBeforeDataWrite s) (hp : t.phase = s.phase)
    (hci : t.ci = s.ci) (hsr : bit s.chan.sr Sr.txe = true → bit t.chan.sr Sr.txe = true) :
    TxeSetBeforeDataWrite t := by
  rw [txeSetBeforeDataWrite_iff] at h ⊢
  exact fun r i hr hat => hsr (h r i (hr.congr hp hci) hat)

theorem issue_txeSetBeforeDataWrite (c : HostCommand) (s : State) : TxeSetBeforeDataWrite (issue c s) := by
  intro r i hr
  rw [issue_runsInstr hr]
  exact ⟨nofun, nofun⟩

theorem step_txeSetBeforeDataWrite {s t : State} (hdev : s.params.envModel = .device) (h : TxeSetBeforeDataWrite s)
    (hs : step s = .next t) : TxeSetBeforeDataWrite t := by
  obtain ⟨-, he⟩ := step_effect hs
  cases he with
  | nothing | ticked | badCommand => exact h.congr rfl rfl id
  | line e hm he =>
    have hk := lineEffect_keepsControl e (takeMove s)
    exact h.congr hk.phase hk.ci (txe_deviceEvent (s := takeMove s) hdev he)
  | issued c => exact issue_txeSetBeforeDataWrite c _
  | command r i t hm hr he =>
    exact (command_effect hr he).txeSetBeforeDataWrite (h.congr rfl rfl id) hr

end Sys2Proof.Machine

open Sys2Proof Sys2Proof.Machine

/-- Settles O48: FG reaches a DR write by a read that sees TXE, and LINE does not clear it in between. -/
theorem txeIsSetAtEveryDataWrite : Obligations.TxeIsSetAtEveryDataWrite := by
  refine fun s t hdev hs h => ⟨step_txeSetBeforeDataWrite hdev hs h, fun v hv => ?_⟩
  obtain hno | ⟨r, i, hr, hat⟩ := step_dataWrite h
  · exact absurd hv (hno.hist_ne v)
  · exact (txeSetBeforeDataWrite_iff s).1 hs r i hr hat

end

section
/-! SUPPORT. Register reads on a clocked channel (R66). -/

namespace Sys2Proof.Machine

open Sys2Proof

/-- A read of a clocked channel: its effect on the channel, and its event (R66). -/
theorem regRead_of_clocked {s : State} (hc : s.plat.clkEn = true) (g : ChanReg) :
    regRead g s = { s with chan := s.chan.afterRead g, hist := s.hist ++ [.regRd g (s.chan.value g)] } := by
  rw [regRead, readValue, if_pos hc, if_pos hc]
  rfl

/-- Clearing a register's bits under a mask. -/
theorem bit_and_not (a m : Word) (n : Nat) : bit (a &&& ~~~m) n = (bit a n && !bit m n) := by
  rw [bit_and]
  by_cases hn : n < 32
  · rw [bit_not m n hn]
  · have ha : bit a n = false := BitVec.getLsbD_of_ge a n (by omega)
    rw [ha, Bool.false_and, Bool.false_and]

/-- A DR read clears RXNE and the armed error flags (R66). -/
theorem bit_readClears (c : Channel) (n : Nat) :
    bit (readClears c) n = (c.errArmed.getLsbD n || decide (n = Sr.rxne)) := by
  have hrxne : bit (1#32 <<< Sr.rxne) n = decide (n = Sr.rxne) :=
    bit_eq_decide (w := 1#32 <<< Sr.rxne) (p := fun n => n = Sr.rxne) (fun _ h => h ▸ by decide) (by decide) n
  have harmed : bit (c.errArmed.setWidth 32) n = c.errArmed.getLsbD n := by
    by_cases hn : n < 32
    · simp [bit, hn]
    · rw [bit, BitVec.getLsbD_of_ge _ _ (by omega), BitVec.getLsbD_of_ge _ _ (by omega)]
  rw [← hrxne, ← harmed]
  exact BitVec.getLsbD_or

/-- SR after a DR read, bit by bit: the armed flags are among the low four (R40, R66). -/
theorem bit_sr_afterDataRead (c : Channel) (n : Nat) :
    bit (c.afterRead .dr).sr n =
      if n = Sr.rxne then false else if n < 4 then bit c.sr n && !c.errArmed.getLsbD n else bit c.sr n := by
  rw [Channel.afterRead, bit_and_not, bit_readClears]
  split_ifs with hrxne h4
  · simp [hrxne]
  · simp [hrxne]
  · simp [hrxne, BitVec.getLsbD_of_ge c.errArmed n (by omega)]

end Sys2Proof.Machine

open Sys2Proof Sys2Proof.Machine

/-- Settles O34: each read's effect on a clocked channel, with SR after a DR read taken bit by bit. -/
theorem registerReadsHaveTheirSideEffects : Obligations.RegisterReadsHaveTheirSideEffects := by
  intro s hc
  have hvalue (g : ChanReg) : readValue g s = s.chan.value g := if_pos hc
  refine ⟨⟨hvalue .sr, regRead_of_clocked hc .sr⟩,
    ⟨hvalue .dr, _, regRead_of_clocked hc .dr, bit_sr_afterDataRead s.chan⟩, fun g v hg => ?_⟩
  simp only [List.mem_cons, List.not_mem_nil, or_false, Prod.mk.injEq] at hg
  obtain ⟨rfl, rfl⟩ | ⟨rfl, rfl⟩ | ⟨rfl, rfl⟩ | ⟨rfl, rfl⟩ := hg <;> exact ⟨hvalue _, regRead_of_clocked hc _⟩

end

section
/-! SUPPORT. TRANSMIT, position by position (R141). -/

namespace Sys2Proof.Machine

open Sys2Proof

section
variable {r : Running} {s : State} (hr : s.phase = .running r) (a n w : Word)
include hr

theorem exec_transmit_entry (hm : r.mpc = .entry) :
    exec (.transmit a n w) s = .next (if a = 0 ∨ n = 0 then finish r (writeR0 .busy s) else stepReadCr1 r s) := by
  simp only [exec, execTransmit, whileRunning_of_running hr, hm, bufferAbsent_iff]
  split_ifs <;> rfl

theorem exec_transmit_testDirection (hm : r.mpc = .testDirection) :
    exec (.transmit a n w) s =
      .next
        (if bit r.locals.c1 Cr1.te = false then finish r (writeR0 .busy s)
        else if 2 ^ 32 < a.toNat + n.toNat then raiseFault .bufferWrap s
        else stepReadStart r s) := by
  simp only [exec, execTransmit, whileRunning_of_running hr, hm, bufferWraps_iff, stepRaise_unchanged hr]
  split_ifs <;> rfl

theorem exec_transmit_enterLoop (hm : r.mpc = .enterLoop) :
    exec (.transmit a n w) s = .next (stepPoll .txe { r with locals := { r.locals with i := 0 } } s) := by
  simp only [exec, execTransmit, whileRunning_of_running hr, hm]

theorem exec_transmit_txe (hm : r.mpc = .testFlag .txe) :
    exec (.transmit a n w) s =
      .next (waitPolled .txe (some w) (fun r s => stepReadByte (a + r.locals.i) r s) r s) := by
  simp only [exec, execTransmit, whileRunning_of_running hr, hm]
  rfl

theorem exec_transmit_tc (hm : r.mpc = .testFlag .tc) :
    exec (.transmit a n w) s = .next (waitPolled .tc (some w) (finishWith .ok) r s) := by
  simp only [exec, execTransmit, whileRunning_of_running hr, hm]

theorem exec_transmit_testTimeout {k : PollFlag} (hk : k = .txe ∨ k = .tc) (hm : r.mpc = .testTimeout k) :
    exec (.transmit a n w) s =
      .next
        (if w.toNat < (r.locals.t - r.locals.start).toNat then finish r (writeR0 .timeout s)
        else stepPoll k r s) := by
  obtain rfl | rfl := hk <;>
    simp only [exec, execTransmit, whileRunning_of_running hr, hm, waitTimed_eq, finishWith]

theorem exec_transmit_useByte (hm : r.mpc = .useByte) :
    exec (.transmit a n w) s = .next (stepWriteData r.locals.b r s) := by
  simp only [exec, execTransmit, whileRunning_of_running hr, hm]

theorem exec_transmit_endFrame (hm : r.mpc = .endFrame) :
    exec (.transmit a n w) s =
      .next
        (if r.locals.i.toNat + 1 < n.toNat then
          stepPoll .txe { r with locals := { r.locals with i := r.locals.i + 1 } } s
        else stepPoll .tc r s) := by
  simp only [exec, execTransmit, whileRunning_of_running hr, hm]
  rfl

end

end Sys2Proof.Machine

open Sys2Proof Sys2Proof.Machine

/-- Settles O23: each position's step, by the outcome of its test. -/
theorem transmitFollowsItsPseudocode : Obligations.TransmitFollowsItsPseudocode := by
  refine ⟨fun _ _ _ => ⟨rfl, rfl, rfl⟩, fun a n w s r hr => ?_⟩
  refine ⟨fun hm h => ?_, fun hm ha hn => ?_, fun hm hte => ?_, fun hm hte h => ?_, fun hm hte h => ?_, fun hm => ?_,
    fun hm hs hg => ?_, fun hm hs hg => ?_, fun hm hs => ?_, fun hm => ?_, fun hm h => ?_, fun hm h => ?_,
    fun hm hs => ?_, fun hm hs => ?_, fun k hk hm => ⟨fun h => ?_, fun h => ?_⟩⟩
  · rw [exec_transmit_entry hr a n w hm, if_pos h]
  · rw [exec_transmit_entry hr a n w hm, if_neg (not_or.2 ⟨ha, hn⟩)]
    rfl
  · rw [exec_transmit_testDirection hr a n w hm, if_pos hte]
  · rw [exec_transmit_testDirection hr a n w hm, if_neg (by simp [hte]), if_pos h]
  · rw [exec_transmit_testDirection hr a n w hm, if_neg (by simp [hte]), if_neg (by omega)]
    rfl
  · rw [exec_transmit_enterLoop hr a n w hm]
    rfl
  · rw [exec_transmit_txe hr a n w hm, waitPolled_of_set hs, stepReadByte_of_granted hg]
  · rw [exec_transmit_txe hr a n w hm, waitPolled_of_set hs, stepReadByte_of_refused hg]
  · rw [exec_transmit_txe hr a n w hm, waitPolled_of_clear hs]
    rfl
  · rw [exec_transmit_useByte hr a n w hm]
    rfl
  · rw [exec_transmit_endFrame hr a n w hm, if_pos h]
    rfl
  · rw [exec_transmit_endFrame hr a n w hm, if_neg (by omega)]
    rfl
  · rw [exec_transmit_tc hr a n w hm, waitPolled_of_set hs]
    rfl
  · rw [exec_transmit_tc hr a n w hm, waitPolled_of_clear hs]
    rfl
  · rw [exec_transmit_testTimeout hr a n w hk hm, if_pos h]
  · rw [exec_transmit_testTimeout hr a n w hk hm, if_neg (by omega)]
    rfl

end

section
/-! SUPPORT. The decoder and the encoder as inverses of each other (R80 to R82, R86, R88, R89). -/

namespace Sys2Proof.Machine

open Sys2Proof

/-! ### The decoder, its refusals taken off -/

/-- The host's decoder reads what the decoder over the whole table reads, less the tick event (R86). -/
theorem decodeCommand_eq_instr_iff (c : HostCommand) (i : Instr) :
    decodeCommand c = .instr i ↔ i.wf = true ∧ decodeTable c = .instr i := by
  refine ⟨fun h => ⟨decodeCommand_wf h, ?_⟩, fun ⟨hwf, ht⟩ => by simp only [decodeCommand, ht, hwf, if_true]⟩
  unfold decodeCommand at h
  split at h
  · next j hj =>
    split at h
    · exact hj.trans h
    · cases h
  · cases h

/-- The decoder over the whole table reads the opcode map wherever the reserved bits are 0 (R81, R86). -/
theorem decodeTable_eq_instr_iff (c : HostCommand) (i : Instr) :
    decodeTable c = .instr i ↔
      reservedField c.cmd = 0 ∧ decodeOpcode (opcodeField c.cmd) c.a0 c.a1 c.a2 = some i := by
  unfold decodeTable
  split
  · next hres => exact ⟨nofun, fun h => absurd h.1 hres⟩
  · next hres =>
    rw [and_iff_right (not_not.1 hres)]
    cases decodeOpcode (opcodeField c.cmd) c.a0 c.a1 c.a2 with
    | some j => simp
    | none => exact ⟨nofun, nofun⟩

/-! ### Assembled forms (R89) -/

theorem encode_cmd (i : Instr) : (encode i).cmd = commandWord (opcodeOf i) := by
  cases i <;> rfl

/-- The decoder over the whole table reads every assembled form as its instruction, the tick event's too. -/
theorem decodeTable_encode (i : Instr) : decodeTable (encode i) = .instr i := by
  cases i <;> exact decodeTable_word _ _ _ _ _ rfl

/-- The opcode map reads an instruction from its own opcode only (R81). -/
theorem opcodeOf_of_decodeOpcode {o : Byte} {a0 a1 a2 : Word} {i : Instr} (h : decodeOpcode o a0 a1 a2 = some i) :
    opcodeOf i = o := by
  unfold decodeOpcode at h
  split at h <;> cases h
  all_goals next ho => exact BitVec.eq_of_toNat_eq ho.symm

/-- From its own opcode it reads the instruction whose operands stand in the arguments it takes (R82). -/
theorem decodeOpcode_opcodeOf_iff (i : Instr) (a0 a1 a2 : Word) :
    decodeOpcode (opcodeOf i) a0 a1 a2 = some i ↔
      encode i = HostCommand.keepArgs ⟨commandWord (opcodeOf i), a0, a1, a2⟩ (argsRead i) := by
  cases i <;> simp [decodeOpcode, opcodeOf, encode, HostCommand.keepArgs, argsRead, eq_comm]

/-- A command reads as an instruction exactly when it is the assembled form, up to the arguments not read (R80 to R82,
R89). -/
theorem decodeTable_eq_instr_iff_encode (c : HostCommand) (i : Instr) :
    decodeTable c = .instr i ↔ encode i = c.keepArgs (argsRead i) := by
  rw [decodeTable_eq_instr_iff]
  constructor
  · rintro ⟨hres, hop⟩
    have ho := opcodeOf_of_decodeOpcode hop
    rw [← ho, decodeOpcode_opcodeOf_iff, ho, commandWord_opcodeField c.cmd hres] at hop
    exact hop
  · intro h
    have hcmd : c.cmd = commandWord (opcodeOf i) := (congrArg HostCommand.cmd h).symm.trans (encode_cmd i)
    refine ⟨hcmd ▸ reservedField_commandWord _, ?_⟩
    rw [hcmd, opcodeField_commandWord, decodeOpcode_opcodeOf_iff, ← hcmd]
    exact h

/-! ### The opcodes the host may issue (R81, R88) -/

/-- The opcode map reads a host-issuable instruction from exactly the fifteen opcodes, whatever the arguments. -/
theorem mem_issuableOpcodes_iff (o : Byte) (a0 a1 a2 : Word) :
    o ∈ issuableOpcodes ↔ ∃ i, i.wf = true ∧ decodeOpcode o a0 a1 a2 = some i := by
  constructor
  · intro ho
    fin_cases ho <;> exact ⟨_, rfl, rfl⟩
  · rintro ⟨i, hwf, hop⟩
    rw [← opcodeOf_of_decodeOpcode hop]
    cases i with
    | tbTick => cases hwf
    | _ => simp [opcodeOf, issuableOpcodes]

/-- The commands the host's decoder takes (R86, R88). -/
theorem decodeCommand_instr_iff (c : HostCommand) :
    (∃ i, decodeCommand c = .instr i) ↔ reservedField c.cmd = 0 ∧ opcodeField c.cmd ∈ issuableOpcodes := by
  simp only [decodeCommand_eq_instr_iff, decodeTable_eq_instr_iff, mem_issuableOpcodes_iff _ c.a0 c.a1 c.a2,
    and_left_comm, exists_and_left]

/-- Any other command is refused (R86). -/
theorem decodeCommand_rejected {c : HostCommand}
    (h : reservedField c.cmd ≠ 0 ∨ opcodeField c.cmd ∉ issuableOpcodes) : ∃ why, decodeCommand c = .rejected why := by
  cases hd : decodeCommand c with
  | rejected why => exact ⟨why, rfl⟩
  | instr i =>
    obtain ⟨hres, hop⟩ := (decodeCommand_instr_iff c).1 ⟨i, hd⟩
    exact absurd hop (h.resolve_left (not_not.2 hres))

end Sys2Proof.Machine

open Sys2Proof Sys2Proof.Machine

/-- Settles O1: the decoder's reading and the assembled form agree opcode by opcode, and the host's decoder refuses only
the tick event among them. -/
theorem assembledFormsAreExactlyWhatDecodes : Obligations.AssembledFormsAreExactlyWhatDecodes := by
  refine ⟨fun i hwf => (decodeCommand_eq_instr_iff _ i).2 ⟨hwf, decodeTable_encode i⟩, fun c i => ?_⟩
  rw [decodeCommand_eq_instr_iff, decodeTable_eq_instr_iff_encode]

/-- Settles O2: the opcode map meets the host-issuable instructions in the fifteen opcodes. -/
theorem decodableWordsAreTheFifteenCommands : Obligations.DecodableWordsAreTheFifteenCommands :=
  decodeCommand_instr_iff

/-- Settles O3: each word is written out, so the decoders compute. -/
theorem sampleWordsDecode : Obligations.SampleWordsDecode := by
  unfold Obligations.SampleWordsDecode
  decide

/-- Settles O4: such a command is refused by the decoder, and FG's turn on a refused command is the raise alone. -/
theorem badCommandWordOnlyMarksTheFault : Obligations.BadCommandWordOnlyMarksTheFault := by
  intro s r hf hm hr hbad
  obtain ⟨why, hd⟩ := decodeCommand_rejected (c := runningCommand r s) hbad
  rw [step_of_unmarked hf, hm]
  exact coreTurn_of_rejected (s := takeMove s) hr hd

end

section
/-! SUPPORT. Overflow: what R0 and a running command's `e` hold after a step (R25, R84, R161). -/

namespace Sys2Proof.Machine

open Sys2Proof

/-- No command of the table of R84 finishes with Overflow. -/
theorem code_ne_overflow {i : Instr} {o : ErrorOutcome} (h : (outcomes i).contains o = true) :
    o.code ≠ ErrorOutcome.overflow.code := by
  cases o with
  | overflow => cases i <;> cases h
  | _ => decide

/-- The invariant speaks of the command interface and FG's phase alone. -/
theorem NoOverflow.congr {s t : State} (h : NoOverflow s) (hc : t.ci = s.ci) (hp : t.phase = s.phase) :
    NoOverflow t := by
  rwa [NoOverflow, hc, hp]

/-- The half of the invariant that speaks of R0. -/
def R0NoOverflow (s : State) : Prop := s.ci.r0Set = true → s.ci.r0 ≠ ErrorOutcome.overflow.code

theorem noOverflow_of_running {s : State} {r : Running} (hr : s.phase = .running r) (h0 : R0NoOverflow s)
    (he : r.locals.e &&& 7 ≠ ErrorOutcome.overflow.code) : NoOverflow s :=
  ⟨h0, fun _ hr' => FgPhase.running.inj (hr.symm.trans hr') ▸ he⟩

/-- A finish leaves FG Idle, so only what R0 then holds is in question. -/
theorem noOverflow_finish {s : State} (r : Running) (h0 : R0NoOverflow s) : NoOverflow (finish r s) :=
  ⟨h0, nofun⟩

/-- FG writes R0 only with an outcome of the table or with the `e` it has decoded, and `e` only with a decoded error. -/
theorem FgEffect.noOverflow {i : Instr} {r : Running} {s t : State} (he : FgEffect i r s t) (h : NoOverflow s)
    (hr : s.phase = .running r) : NoOverflow t := by
  have hrun := h.2 r hr
  cases he with
  | stuck => exact h
  | marked f r' _ _ hsame => exact noOverflow_of_running rfl h.1 (hsame ▸ hrun)
  | finished | finishedValue => exact noOverflow_finish r h.1
  | finishedWith o ho =>
    refine noOverflow_finish r fun _ => ?_
    rw [writeR0_ci]
    exact code_ne_overflow ho
  | reported => exact noOverflow_finish r fun _ => hrun
  | moved r' u hu _ _ hdecoded =>
    refine noOverflow_of_running rfl ?_ ?_
    · rw [R0NoOverflow, setRunning_ci, hu.keepsControl.ci]
      exact h.1
    · obtain hsame | hdecoded := hdecoded
      · exact hsame ▸ hrun
      · exact hdecoded ▸ decodedCode_ne_overflow _

theorem step_noOverflow {s t : State} (h : NoOverflow s) (hs : step s = .next t) : NoOverflow t := by
  obtain ⟨-, he⟩ := step_effect hs
  cases he with
  | nothing | ticked | badCommand => exact h.congr rfl rfl
  | line e =>
    have hk := lineEffect_keepsControl e (takeMove s)
    exact h.congr hk.ci hk.phase
  | issued c => exact noOverflow_of_running rfl h.1 (by decide : (0 : Word) &&& 7 ≠ ErrorOutcome.overflow.code)
  | command r i t hm hr he => exact (command_effect hr he).noOverflow (h.congr rfl rfl) hr.1

end Sys2Proof.Machine

open Sys2Proof Sys2Proof.Machine

/-- Settles O49: every effect of a step keeps the invariant. -/
theorem overflowIsNeverProduced : Obligations.OverflowIsNeverProduced :=
  fun _ _ => step_noOverflow

end

section
/-! SUPPORT. The packed form of a SerialConfiguration, bit by bit, and its inverse (R83, R90). -/

namespace Sys2Proof.Machine

open Sys2Proof

/-! ### One field of the word -/

/-- A field of `k` bits put at bit `p` stands in its own bits. -/
theorem bit_field {k : Nat} (v : BitVec k) (p n : Nat) (hn : n < 32) :
    bit (v.setWidth 32 <<< p) n = (decide (p ≤ n) && v.getLsbD (n - p)) := by
  rw [bit, BitVec.getLsbD_shiftLeft, BitVec.getLsbD_setWidth]
  by_cases h : n < p
  · simp [h]
  · simp [h, hn, show n - p < 32 by omega, show p ≤ n by omega]

theorem bit_flag (b : Bool) (p n : Nat) (hn : n < 32) :
    bit ((BitVec.ofBool b).setWidth 32 <<< p) n = (decide (n = p) && b) := by
  rw [bit_field _ p n hn, BitVec.getLsbD_ofBool]
  by_cases h : n = p
  · simp [h]
  · by_cases hp : p ≤ n
    · simp [h, show n - p ≠ 0 by omega]
    · simp [h, hp]

/-- A field reads back from its bits. -/
theorem extractLsb'_eq_of_bit {w : Word} {p k : Nat} {v : BitVec k}
    (h : ∀ i, i < k → bit w (p + i) = v.getLsbD i) : w.extractLsb' p k = v :=
  BitVec.eq_of_getLsbD_eq fun i hi => by
    rw [BitVec.getLsbD_extractLsb', decide_eq_true hi, Bool.true_and]
    exact h i hi

/-! ### The packed word -/

/-- The packed word is its fields, each in its own bits (R83). -/
theorem bit_pack (c : SerialConfig) (n : Nat) (hn : n < 32) :
    bit c.pack n =
      (decide (n = 0) && c.nineBits || (decide (1 ≤ n) && c.stop.code.getLsbD (n - 1))
        || (decide (3 ≤ n) && c.parity.code.getLsbD (n - 3)) || (decide (n = 5) && c.tx) || (decide (n = 6) && c.rx)
        || (decide (n = 7) && c.over8) || (decide (n = 8) && c.rts) || (decide (n = 9) && c.cts)) := by
  have h0 := bit_flag c.nineBits 0 n hn
  rw [BitVec.shiftLeft_zero] at h0
  rw [← h0, ← bit_field c.stop.code 1 n hn, ← bit_field c.parity.code 3 n hn, ← bit_flag c.tx 5 n hn,
    ← bit_flag c.rx 6 n hn, ← bit_flag c.over8 7 n hn, ← bit_flag c.rts 8 n hn, ← bit_flag c.cts 9 n hn]
  simp only [SerialConfig.pack, bit, BitVec.getLsbD_or]

/-- Every flag of the form stands in its bit. -/
theorem flags_pack (c : SerialConfig) :
    bit c.pack 0 = c.nineBits ∧ bit c.pack 5 = c.tx ∧ bit c.pack 6 = c.rx ∧ bit c.pack 7 = c.over8 ∧
      bit c.pack 8 = c.rts ∧ bit c.pack 9 = c.cts := by
  simp [bit_pack]

theorem stop_pack (c : SerialConfig) : c.pack.extractLsb' 1 2 = c.stop.code :=
  extractLsb'_eq_of_bit fun i hi => by interval_cases i <;> simp [bit_pack]

theorem parity_pack (c : SerialConfig) : c.pack.extractLsb' 3 2 = c.parity.code :=
  extractLsb'_eq_of_bit fun i hi => by interval_cases i <;> simp [bit_pack]

/-- No field reaches the reserved bits. -/
theorem bit_pack_reserved (c : SerialConfig) (n : Nat) (hn : 10 ≤ n) : bit c.pack n = false := by
  by_cases hlt : n < 32
  · have hflag : ∀ k < 10, n ≠ k := by omega
    simp [bit_pack c n hlt, hflag, show 2 ≤ n - 1 by omega, show 2 ≤ n - 3 by omega]
  · exact BitVec.getLsbD_of_ge _ _ (not_lt.1 hlt)

/-! ### Legal words (R83) -/

/-- A word is below a power of two when its bits from there up are 0. -/
theorem toNat_lt_iff_bit (w : Word) (k : Nat) : w.toNat < 2 ^ k ↔ ∀ n, k ≤ n → bit w n = false :=
  ⟨fun h _ hn => Nat.testBit_lt_two_pow (h.trans_le (Nat.pow_le_pow_right Nat.two_pos hn)),
    fun h => Nat.lt_pow_two_of_testBit _ h⟩

/-- A CFG word is legal when its reserved bits are 0 and PAR is the code of a parity mode. -/
theorem cfgLegal_iff_bit (w : Word) :
    cfgLegal w = true ↔ (∀ n, 10 ≤ n → bit w n = false) ∧ w.extractLsb' 3 2 ≠ 3#2 :=
  (cfgLegal_iff w).trans (and_congr_left' (toNat_lt_iff_bit w 10))

theorem cfgLegal_pack (c : SerialConfig) : cfgLegal c.pack = true := by
  refine (cfgLegal_iff_bit _).2 ⟨bit_pack_reserved c, ?_⟩
  rw [parity_pack]
  cases c.parity <;> decide

/-! ### The form of a legal word -/

/-- The stop-bit count of a STOP code. -/
def StopBits.ofCode (v : BitVec 2) : StopBits :=
  if v = 0 then .one else if v = 1 then .half else if v = 2 then .two else .oneAndHalf

theorem StopBits.code_ofCode : ∀ v : BitVec 2, (StopBits.ofCode v).code = v := by decide

/-- The parity mode of a PAR code that has one. -/
def Parity.ofCode (v : BitVec 2) : Parity :=
  if v = 0 then .none else if v = 1 then .even else .odd

theorem Parity.code_ofCode : ∀ v : BitVec 2, v ≠ 3#2 → (Parity.ofCode v).code = v := by decide

/-- The SerialConfiguration whose fields stand in a CFG word. -/
def SerialConfig.unpack (w : Word) : SerialConfig where
  nineBits := bit w 0
  stop := .ofCode (w.extractLsb' 1 2)
  parity := .ofCode (w.extractLsb' 3 2)
  tx := bit w 5
  rx := bit w 6
  over8 := bit w 7
  rts := bit w 8
  cts := bit w 9

/-- Packing the fields of a legal word gives the word back. -/
theorem pack_unpack {w : Word} (h : cfgLegal w = true) : (SerialConfig.unpack w).pack = w := by
  obtain ⟨hres, hpar⟩ := (cfgLegal_iff_bit w).1 h
  refine word_ext fun n hn => ?_
  by_cases hlt : n < 10
  · rw [bit_pack _ n hn]
    simp only [SerialConfig.unpack, StopBits.code_ofCode, Parity.code_ofCode _ hpar, BitVec.getLsbD_extractLsb']
    interval_cases n <;> simp [bit]
  · rw [bit_pack_reserved _ n (not_lt.1 hlt), hres n (not_lt.1 hlt)]

end Sys2Proof.Machine

open Sys2Proof Sys2Proof.Machine

/-- Settles O5: a legal word is packed from the fields that stand in it, and a packed word's bits are its fields. -/
theorem legalCfgWordsAreThePackedForms : Obligations.LegalCfgWordsAreThePackedForms := by
  refine ⟨fun w => ⟨fun h => ⟨_, pack_unpack h⟩, ?_⟩, fun c => ?_⟩
  · rintro ⟨c, rfl⟩
    exact cfgLegal_pack c
  · obtain ⟨hnine, hflags⟩ := flags_pack c
    exact ⟨hnine, stop_pack c, parity_pack c, hflags⟩

end

section
/-! SUPPORT. Elapsed time across the counter's wrap (R105), and the timebase commands and the tick, position by position
(R100, R102, R104, R106). -/

namespace Sys2Proof.Machine

open Sys2Proof

/-- Fewer than 2^32 ticks after a start value the elapsed time is their number, across the wrap too (R105). -/
theorem elapsed_toNat_of_ticks (start : Word) {k : Nat} (hk : k < 2 ^ 32) :
    (start + BitVec.ofNat 32 k - start).toNat = k := by
  rw [BitVec.add_comm, BitVec.add_sub_cancel, BitVec.toNat_ofNat, Nat.mod_eq_of_lt hk]

/-- Where a legal clock leaves the tick period: at least 1, and in 32 bits (R3, R100). -/
theorem Params.tickPeriod_of_wf {p : Params} (h : p.wf = true) :
    1 ≤ p.clockHz / 1000 ∧ p.clockHz / 1000 < 2 ^ 32 := by
  rw [Params.wf, Bool.and_eq_true, decide_eq_true_eq, decide_eq_true_eq] at h
  omega

/-- While TICK_EN = 1 the tick counts (R102). -/
theorem exec_tbTick_of_on {s : State} (he : s.tb.tickEn = true) : exec .tbTick s = .next (tickCounter s) :=
  if_pos he

/-- While TICK_EN = 0 the tick does not occur (R102; log entry 2). -/
theorem exec_tbTick_of_off {s : State} (he : s.tb.tickEn = false) : exec .tbTick s = .next s :=
  if_neg (Bool.eq_false_iff.1 he)

section
variable {r : Running} {s : State} (hr : s.phase = .running r)
include hr

theorem exec_tbInit_entry (hm : r.mpc = .entry) :
    exec .tbInit s = .next (setRunning { r with mpc := .conclude } (startTickSource s)) := by
  simp only [exec, execTbInit, whileRunning_of_running hr, hm]

theorem exec_tbInit_conclude (hm : r.mpc = .conclude) : exec .tbInit s = .next (finish r s) := by
  simp only [exec, execTbInit, whileRunning_of_running hr, hm]

theorem exec_tbNow_entry (hm : r.mpc = .entry) : exec .tbNow s = .next (stepReadTime .useTime r s) := by
  simp only [exec, execTbNow, whileRunning_of_running hr, hm]

theorem exec_tbNow_useTime (hm : r.mpc = .useTime) : exec .tbNow s = .next (finishValue r.locals.t r s) := by
  simp only [exec, execTbNow, whileRunning_of_running hr, hm]

end

/-! ### TB_DELAY (R106) -/

/-- TB_DELAY's next access is a loop read: it enters its loop, or its last read came before `ms` ticks had passed. -/
def DelayReads (ms : Word) (r : Running) : Prop :=
  r.mpc = .enterLoop ∨ r.mpc = .useTime ∧ (r.locals.t - r.locals.start).toNat < ms.toNat

section
variable {ms : Word} {r : Running} {s : State} (hr : s.phase = .running r)
include hr

theorem exec_tbDelay_entry (hm : r.mpc = .entry) : exec (.tbDelay ms) s = .next (stepReadStart r s) := by
  simp only [exec, execTbDelay, whileRunning_of_running hr, hm]

/-- At the test of the elapsed time TB_DELAY finishes or reads again. -/
theorem exec_tbDelay_useTime (hm : r.mpc = .useTime) :
    exec (.tbDelay ms) s =
      .next (if ms.toNat ≤ (r.locals.t - r.locals.start).toNat then finish r s else stepReadTime .useTime r s) := by
  simp only [exec, execTbDelay, whileRunning_of_running hr, hm, BitVec.ule_iff_le, BitVec.le_def, elapsed]
  split_ifs <;> rfl

theorem exec_tbDelay_read (h : DelayReads ms r) : exec (.tbDelay ms) s = .next (stepReadTime .useTime r s) := by
  obtain hm | ⟨hm, hlt⟩ := h
  · simp only [exec, execTbDelay, whileRunning_of_running hr, hm]
  · rw [exec_tbDelay_useTime hr hm, if_neg (not_le.2 hlt)]

theorem exec_tbDelay_finish (hm : r.mpc = .useTime) (hle : ms.toNat ≤ (r.locals.t - r.locals.start).toNat) :
    exec (.tbDelay ms) s = .next (finish r s) := by
  rw [exec_tbDelay_useTime hr hm, if_pos hle]

end

end Sys2Proof.Machine

open Sys2Proof Sys2Proof.Machine

/-- Settles O15: the elapsed time is the number of ticks, and no 32-bit value is more than 0xFFFFFFFF. -/
theorem timeoutIsStrictlyExceeded : Obligations.TimeoutIsStrictlyExceeded := by
  refine ⟨fun start tmo k hk => ?_, fun start t => ?_⟩
  · rw [expired_iff, elapsed_toNat_of_ticks start hk]
  · rw [Bool.eq_false_iff, ne_eq, expired_iff, not_lt]
    exact Nat.le_of_lt_succ (t - start).isLt

/-- Settles O10: TB_INIT's two positions, and the bounds that a legal clock puts on the period. -/
theorem tbInitProgramsTheTickSource : Obligations.TbInitProgramsTheTickSource := by
  refine fun s r hr => ⟨exec_tbInit_entry hr, exec_tbInit_conclude hr, fun hwf => ?_⟩
  obtain ⟨hpos, hlt⟩ := Params.tickPeriod_of_wf hwf
  exact ⟨by rw [BitVec.toNat_ofNat, Nat.mod_eq_of_lt hlt], hpos⟩

/-- Settles O11: TB_NOW's two positions. -/
theorem tbNowReturnsTheCounter : Obligations.TbNowReturnsTheCounter :=
  fun _ _ hr => ⟨exec_tbNow_entry hr, exec_tbNow_useTime hr⟩

/-- Settles O12: TB_DELAY's three positions, the last by the outcome of its test. -/
theorem tbDelayFollowsItsPseudocode : Obligations.TbDelayFollowsItsPseudocode :=
  fun _ _ _ hr => ⟨exec_tbDelay_entry hr, exec_tbDelay_read hr, exec_tbDelay_finish hr⟩

/-- Settles O13: the tick by its enable; adding 1 to a word is adding 1 modulo 2^32. -/
theorem tickAddsOne : Obligations.TickAddsOne := by
  refine fun s => ⟨fun he => ?_, fun he t ht => ?_⟩
  · have hcnt : s.tb.tickCnt + 1 = BitVec.ofNat 32 ((s.tb.tickCnt.toNat + 1) % 2 ^ 32) :=
      BitVec.eq_of_toNat_eq (by simp [BitVec.toNat_add])
    rw [exec_tbTick_of_on he, ← hcnt]
    rfl
  · cases (exec_tbTick_of_off he).symm.trans ht
    exact ⟨rfl, rfl⟩

end

section
/-! SUPPORT. A whole TB_DELAY (R106, R107), step by step under a given schedule: the start read, one round of a tick and
a loop read for each of its ticks, and the finish. -/

namespace Sys2Proof.Machine

open Sys2Proof

/-! ### Runs of several steps -/

/-- A run of one step more begins with that step. -/
theorem run_succ {s t : State} (h : step s = .next t) (n : Nat) : core.run (n + 1) s = core.run n t := by
  simp only [Host.Core.run, show core.step s = .next t from h]

/-- A longer run goes on from where a shorter one got to. -/
theorem run_add {s t : State} {m : Nat} (h : core.run m s = .next t) (n : Nat) :
    core.run (m + n) s = core.run n t := by
  induction m generalizing s with
  | zero => cases h; rw [Nat.zero_add]
  | succ m ih =>
    cases hs : step s with
    | next u =>
      rw [run_succ hs] at h
      rw [Nat.add_right_comm, run_succ hs, ih h]
    | fault f => simp [Host.Core.run, show core.step s = _ from hs] at h
    | refused w => simp [Host.Core.run, show core.step s = _ from hs] at h

/-! ### The states of a delay -/

/-- `u` is a state of a TB_DELAY of `ms` that FG began in `s`, `k` ticks after its start read: everything but the
counter, FG's position and locals, the history and the schedule is as it was in `s`. -/
structure InDelay (ms : Word) (s : State) (k : Nat) (r : Running) (u : State) : Prop where
  running : u.runsInstr r (.tbDelay ms)
  start : r.locals.start = s.tb.tickCnt
  unmarked : u.fault = none
  tb : u.tb = { s.tb with tickCnt := s.tb.tickCnt + BitVec.ofNat 32 k }
  ci : u.ci = s.ci
  chan : u.chan = s.chan
  mem : u.mem = s.mem
  hpc : u.hpc = s.hpc

/-- A delay at the test of a read just taken, with `moves` still scheduled. -/
def DelayTests (ms : Word) (s : State) (k : Nat) (moves : List Move) (u : State) : Prop :=
  u.schedule = moves ∧
    ∃ r, InDelay ms s k r u ∧ r.mpc = .useTime ∧ r.locals.t = s.tb.tickCnt + BitVec.ofNat 32 k

section
variable {ms : Word} {s u : State} {k : Nat} {r : Running} {moves : List Move}

theorem nextMove_of_schedule {m : Move} (h : u.schedule = m :: moves) : nextMove u = m := by
  rw [nextMove, h, List.headD_cons]

theorem decodeCommand_tbDelay (hcmd : s.ci.cmd = 3) : decodeCommand (runningCommand r s) = .instr (.tbDelay r.a0) := by
  rw [decodeCommand_eq_instr_iff, decodeTable_eq_instr_iff_encode, runningCommand, hcmd]
  exact ⟨rfl, rfl⟩

/-- The command's first step reads its start and puts it in its loop. -/
theorem step_delay_entry (hf : s.fault = none) (hr : s.runsInstr r (.tbDelay ms)) (hm : r.mpc = .entry)
    (hs : s.schedule = .core :: moves) :
    step s = .next (stepReadStart r (takeMove s)) ∧
      InDelay ms s 0 { r with mpc := .enterLoop, locals := { r.locals with start := s.tb.tickCnt } }
        (stepReadStart r (takeMove s)) := by
  refine ⟨?_, ⟨rfl, hr.2⟩, rfl, hf, ?_, rfl, rfl, rfl, rfl⟩
  · rw [stepRunsTheDecodedCommand s r _ hf (nextMove_of_schedule hs) hr.1 hr.2]
    exact exec_tbDelay_entry (s := takeMove s) hr.1 hm
  · exact congrArg (fun c => { s.tb with tickCnt := c }) (BitVec.add_zero _).symm

/-- A tick counts, and leaves the command where it is. -/
theorem InDelay.step_tick (h : InDelay ms s k r u) (he : s.tb.tickEn = true) (hs : u.schedule = .tick :: moves) :
    step u = .next (tickCounter (takeMove u)) ∧ InDelay ms s (k + 1) r (tickCounter (takeMove u)) := by
  refine ⟨?_, h.running, h.start, h.unmarked, ?_, h.ci, h.chan, h.mem, h.hpc⟩
  · rw [step_of_unmarked h.unmarked, nextMove_of_schedule hs]
    exact exec_tbTick_of_on (by rw [takeMove_tb, h.tb]; exact he)
  · simp [h.tb, BitVec.ofNat_add, BitVec.add_assoc]

/-- FG's move runs TB_DELAY's own step. -/
theorem InDelay.step_core (h : InDelay ms s k r u) (hs : u.schedule = .core :: moves) :
    step u = exec (.tbDelay ms) (takeMove u) :=
  stepRunsTheDecodedCommand u r _ h.unmarked (nextMove_of_schedule hs) h.running.1 h.running.2

/-- A loop read takes the counter's present value and leaves the command at its test. -/
theorem InDelay.step_read (h : InDelay ms s k r u) (hr : DelayReads ms r) (hs : u.schedule = .core :: moves) :
    ∃ v, step u = .next v ∧ DelayTests ms s k moves v := by
  have ht : u.tb.tickCnt = s.tb.tickCnt + BitVec.ofNat 32 k := by rw [h.tb]
  refine ⟨stepReadTime .useTime r (takeMove u), ?_, congrArg List.tail hs,
    { r with mpc := .useTime, locals := { r.locals with t := u.tb.tickCnt } }, ?_, rfl, ht⟩
  · rw [h.step_core hs]
    exact exec_tbDelay_read (s := takeMove u) h.running.1 hr
  · exact ⟨⟨rfl, h.running.2⟩, h.start, h.unmarked, h.tb, h.ci, h.chan, h.mem, h.hpc⟩

/-- One round: a tick and a loop read. -/
theorem InDelay.run_round (h : InDelay ms s k r u) (he : s.tb.tickEn = true) (hr : DelayReads ms r)
    (hs : u.schedule = .tick :: .core :: moves) :
    ∃ v, core.run 2 u = .next v ∧ DelayTests ms s (k + 1) moves v := by
  obtain ⟨htick, hd⟩ := h.step_tick he hs
  obtain ⟨v, hread, hv⟩ := hd.step_read hr (congrArg List.tail hs)
  exact ⟨v, by rw [run_succ htick, run_succ hread]; rfl, hv⟩

/-- While its last read came before `ms` ticks, the command reads again: a round for each further tick up to `ms`. -/
theorem DelayTests.run_rounds {n : Nat} (he : s.tb.tickEn = true) (hn : k + n ≤ ms.toNat)
    (h : DelayTests ms s k ((List.replicate n [Move.tick, Move.core]).flatten ++ moves) u) :
    ∃ v, core.run (2 * n) u = .next v ∧ DelayTests ms s (k + n) moves v := by
  induction n generalizing k u with
  | zero => exact ⟨u, rfl, h⟩
  | succ n ih =>
    obtain ⟨hs, r, hd, hm, ht⟩ := h
    have hlt : (r.locals.t - r.locals.start).toNat < ms.toNat := by
      rw [ht, hd.start, elapsed_toNat_of_ticks _ (by omega)]
      omega
    obtain ⟨v, hrun, hv⟩ := hd.run_round he (.inr ⟨hm, hlt⟩) hs
    obtain ⟨w, hrun', hw⟩ := ih (k := k + 1) (by omega) hv
    refine ⟨w, ?_, by rwa [Nat.add_assoc, Nat.add_comm 1] at hw⟩
    rw [Nat.mul_succ, Nat.add_comm, run_add hrun, hrun']

/-- At `ms` ticks the command finishes. -/
theorem DelayTests.step_finish (h : DelayTests ms s ms.toNat (.core :: moves) u) :
    ∃ t, step u = .next t ∧ t.phase = .idle ∧ t.hpc = s.hpc + 1 ∧
      t.tb = { s.tb with tickCnt := s.tb.tickCnt + ms } ∧ t.ci = s.ci ∧ t.chan = s.chan ∧ t.mem = s.mem := by
  obtain ⟨hs, r, hd, hm, ht⟩ := h
  have hle : ms.toNat ≤ (r.locals.t - r.locals.start).toNat := by
    rw [ht, hd.start, elapsed_toNat_of_ticks _ ms.isLt]
  have htb := hd.tb
  rw [BitVec.ofNat_toNat, BitVec.setWidth_eq] at htb
  refine ⟨finish r (takeMove u), ?_, rfl, congrArg (· + 1) hd.hpc, htb, hd.ci, hd.chan, hd.mem⟩
  rw [hd.step_core hs]
  exact exec_tbDelay_finish (s := takeMove u) hd.running.1 hm hle

end

end Sys2Proof.Machine

open Sys2Proof Sys2Proof.Machine

/-- Settles O56: the start read, then a round for each tick, then the finish; a delay of 0 reads once, at elapsed 0. -/
theorem delayEndsAfterExactlyItsTicks : Obligations.DelayEndsAfterExactlyItsTicks := by
  intro s r rest hf hp hm hcmd he
  have hdec := decodeCommand_tbDelay (r := r) hcmd
  refine ⟨fun hpos hs => ?_, fun hzero hs => ?_⟩
  · obtain ⟨n, hn⟩ : ∃ n, r.a0.toNat = n + 1 := ⟨_, (Nat.sub_add_cancel hpos).symm⟩
    rw [hn] at hs ⊢
    obtain ⟨hstart, h0⟩ := step_delay_entry hf ⟨hp, hdec⟩ hm hs
    obtain ⟨u, hround, h1⟩ := h0.run_round he (.inl rfl) (congrArg List.tail hs)
    obtain ⟨v, hrounds, h2⟩ := h1.run_rounds he (by omega)
    rw [show 0 + 1 + n = r.a0.toNat by omega] at h2
    obtain ⟨t, hfinish, hidle, hhpc, htb, hrest⟩ := h2.step_finish
    refine ⟨t, ?_, hidle, hhpc, congrArg Timebase.tickCnt htb, hrest⟩
    rw [show 2 * (n + 1) + 2 = 2 + (2 * n + 1) + 1 by omega, run_succ hstart, run_add hround, run_add hrounds,
      run_succ hfinish]
    rfl
  · obtain ⟨hstart, h0⟩ := step_delay_entry hf ⟨hp, hdec⟩ hm hs
    obtain ⟨u, hread, h1⟩ := h0.step_read (.inl rfl) (congrArg List.tail hs)
    rw [show 0 = r.a0.toNat by rw [hzero]; rfl] at h1
    obtain ⟨t, hfinish, hidle, hhpc, htb, hrest⟩ := h1.step_finish
    refine ⟨t, ?_, hidle, hhpc, ?_, hrest⟩
    · rw [run_succ hstart, run_succ hread, run_succ hfinish]
      rfl
    · rw [htb, hzero, show s.tb.tickCnt + 0 = s.tb.tickCnt from BitVec.add_zero _]

end

section
/-! SUPPORT. The baud-rate divisor and its rounding, as arithmetic on the quotient (R120 to R122). -/

namespace Sys2Proof.Machine

open Sys2Proof

/-- The scaled remainder reaches 8 exactly when the remainder is at least half the divisor (R121, R122). -/
theorem scaledRemainder_ge_iff (clk : Nat) {b : Nat} (hb : b ≠ 0) :
    8 ≤ scaledRemainder clk b ↔ b ≤ 2 * (clk % b) := by
  rw [scaledRemainder, Nat.le_div_iff_mul_le (Nat.pos_of_ne_zero hb)]
  omega

/-- Mantissa and fraction put together again are the truncated quotient (R120). -/
theorem divisor_value (clk b o : Nat) : (divisor clk b o).1 * o + (divisor clk b o).2 = clk / b :=
  Nat.div_add_mod' _ _

/-- Adding one fraction step, with its carry, splits the quotient plus 1. -/
theorem divisor_add_one (clk b : Nat) :
    (if (divisor clk b 16).2 = 15 then ((divisor clk b 16).1 + 1, 0)
      else ((divisor clk b 16).1, (divisor clk b 16).2 + 1)) = ((clk / b + 1) / 16, (clk / b + 1) % 16) := by
  rw [divisor]
  split_ifs with h <;> rw [Prod.mk.injEq] <;> omega

/-- The rounded divisor splits the rounded quotient (R122). -/
theorem divisorRounded_eq (clk : Nat) {b : Nat} (hb : b ≠ 0) :
    divisorRounded clk b =
      ((clk / b + if b ≤ 2 * (clk % b) then 1 else 0) / 16, (clk / b + if b ≤ 2 * (clk % b) then 1 else 0) % 16) := by
  simp only [divisorRounded, scaledRemainder_ge_iff clk hb]
  by_cases h : b ≤ 2 * (clk % b)
  · simpa only [if_pos h] using divisor_add_one clk b
  · simp only [if_neg h, Nat.add_zero, divisor]

/-- Mantissa and fraction of the rounded divisor put together again are the rounded quotient (R122). -/
theorem divisorRounded_value (clk : Nat) {b : Nat} (hb : b ≠ 0) :
    (divisorRounded clk b).1 * 16 + (divisorRounded clk b).2 = clk / b + if b ≤ 2 * (clk % b) then 1 else 0 := by
  rw [divisorRounded_eq clk hb]
  exact Nat.div_add_mod' _ _

end Sys2Proof.Machine

open Sys2Proof Sys2Proof.Machine

/-- Settles O16: mantissa and fraction are quotient and remainder by the oversampling factor. -/
theorem divisorSplitsTheQuotient : Obligations.DivisorSplitsTheQuotient := by
  intro clk b o _ ho
  exact ⟨rfl, divisor_value clk b o, Nat.mod_lt _ (by omega)⟩

/-- Settles O17: the two divisors are told apart by the quotients they split, which differ by the rounding. -/
theorem roundedDivisorIsTheNearest : Obligations.RoundedDivisorIsTheNearest := by
  intro clk b hb
  have hround := divisorRounded_value clk hb
  have htrunc := divisor_value clk b 16
  refine ⟨divisorRounded_eq clk hb, ⟨fun hne => ?_, fun h heq => ?_⟩, fun h => ?_⟩
  · by_contra h
    refine hne ?_
    rw [divisorRounded_eq clk hb, if_neg h, Nat.add_zero, divisor]
  · rw [heq, htrunc, if_pos h] at hround
    omega
  · rw [hround, htrunc, if_pos h]

end

section
/-! SUPPORT. INIT_DEFAULT, position by position, and what its `atomic` block leaves (R124, R125). -/

namespace Sys2Proof.Machine

open Sys2Proof

section
variable {r : Running} {s : State} (hr : s.phase = .running r)
include hr

/-- INIT_DEFAULT's first step: the refusal of baud 0, then the `atomic` block. -/
theorem exec_initDefault_entry (baud : Word) (hm : r.mpc = .entry) :
    exec (.initDefault baud) s =
      .next
        (if baud = 0 then raiseFault .divideByZero s
        else
          setRunning { r with mpc := .conclude }
            (writeFields (initDefaultWrites s.params.clockHz baud) (enableClockAndPins s))) := by
  simp only [exec, execInitDefault, whileRunning_of_running hr, hm, stepRaise_unchanged hr]
  split_ifs <;> rfl

/-- Its second step finishes and writes no result. -/
theorem exec_initDefault_conclude (baud : Word) (hm : r.mpc = .conclude) :
    exec (.initDefault baud) s = .next (finish r s) := by
  simp only [exec, execInitDefault, whileRunning_of_running hr, hm]

end

/-- CR1 after INIT_DEFAULT's statements on it, in program order (R124). -/
def initDefaultCr1 (w : Word) : Word :=
  let w := setBit w Cr1.over8 false
  let w := setBit w Cr1.m false
  let w := setBit w Cr1.pce false
  let w := setBit w Cr1.ps false
  let w := setBit w Cr1.te true
  let w := setBit w Cr1.re true
  setBit w Cr1.ue true

/-- INIT_DEFAULT sets UE, TE and RE, clears OVER8, M, PCE and PS, and changes no other bit of CR1. -/
theorem bit_initDefaultCr1 (w : Word) (n : Nat) :
    bit (initDefaultCr1 w) n =
      if n = Cr1.ue ∨ n = Cr1.te ∨ n = Cr1.re then true
      else if n = Cr1.over8 ∨ n = Cr1.m ∨ n = Cr1.pce ∨ n = Cr1.ps then false
      else bit w n := by
  simp (disch := decide) only [initDefaultCr1, bit_setBit]
  by_cases h : n ∈ [Cr1.ue, Cr1.te, Cr1.re, Cr1.over8, Cr1.m, Cr1.pce, Cr1.ps]
  · fin_cases h <;> rfl
  · simp only [List.mem_cons, List.not_mem_nil, or_false, not_or] at h
    simp only [h, if_false, or_false]

theorem initDefaultCr1_idem (w : Word) : initDefaultCr1 (initDefaultCr1 w) = initDefaultCr1 w := by
  refine word_ext fun n _ => ?_
  simp only [bit_initDefaultCr1]
  split_ifs <;> rfl

/-- Writing STOP a second time with the same value changes nothing. -/
theorem setStop_idem (w : Word) (v : BitVec 2) : setStop (setStop w v) v = setStop w v := by
  refine word_ext fun n _ => ?_
  simp only [bit_setStop]
  split_ifs <;> rfl

/-- Writing STOP with 0 clears its two bits. -/
theorem setStop_zero (w : Word) : setStop w 0 = withBits w 0x3000 false :=
  BitVec.and_assoc w _ _

/-- The channel INIT_DEFAULT leaves: BRR, CR1 and CR2 change. -/
theorem chanAfter_initDefaultWrites (clk : Nat) (baud : Word) (c : Channel) :
    chanAfter true (initDefaultWrites clk baud) c =
      { c with
        brr := packDivisor (divisorRounded clk baud.toNat)
        cr1 := initDefaultCr1 c.cr1
        cr2 := setStop c.cr2 0 } := by
  simp only [chanAfter, if_true, initDefaultWrites, List.foldl, FieldWrite.apply, Channel.afterWrite,
    packDivisor_masked]
  rfl

/-- INIT_DEFAULT's block leaves a channel that holds what it writes as it is (R125). -/
theorem chanAfter_initDefaultWrites_idem (clk : Nat) (baud : Word) (c : Channel) :
    chanAfter true (initDefaultWrites clk baud) (chanAfter true (initDefaultWrites clk baud) c) =
      chanAfter true (initDefaultWrites clk baud) c := by
  simp only [chanAfter_initDefaultWrites, initDefaultCr1_idem, setStop_idem]

/-- What INIT_DEFAULT's first step leaves on a baud rate other than 0: its block runs on a clocked channel. -/
theorem exec_initDefault_of_ne_zero {baud : Word} {s : State} {r : Running} (hb : baud ≠ 0) (hs : s.standsAt .entry r) :
    exec (.initDefault baud) s = .next
      { s with
        plat := { s.plat with clkEn := true, pinRoute := true }
        chan := chanAfter true (initDefaultWrites s.params.clockHz baud) s.chan
        phase := .running { r with mpc := .conclude }
        hist := s.hist ++ fieldEvents true (initDefaultWrites s.params.clockHz baud) s.chan } := by
  obtain ⟨hr, hm⟩ := hs
  rw [exec_initDefault_entry hr baud hm, if_neg hb, writeFields_eq]
  rfl

end Sys2Proof.Machine

open Sys2Proof Sys2Proof.Machine

/-- Settles O19: baud 0 is refused, and past it the nine statements run on a clocked channel. -/
theorem initDefaultProgramsTheChannel : Obligations.InitDefaultProgramsTheChannel := by
  intro baud s r hr
  refine ⟨fun hm hb => ?_, fun hm hb => ?_, exec_initDefault_conclude hr baud⟩
  · rw [exec_initDefault_entry hr baud hm, if_pos hb]
  · have hexec := exec_initDefault_of_ne_zero hb ⟨hr, hm⟩
    rw [chanAfter_initDefaultWrites] at hexec
    refine ⟨_, _, hexec, rfl, ⟨rfl, setStop_zero _, ?_⟩, rfl, bit_initDefaultCr1 _, stopField_setStop _ _, ?_⟩
    · -- Each mask of the statement is the shifted bit that `setBit` writes, so the values agree by computation.
      simp only [initDefaultWrites, fieldEvents, if_true, FieldWrite.reg, FieldWrite.apply, Channel.afterWrite,
        Channel.value, packDivisor_masked, setStop_zero]
      rfl
    · intro n h12 h13
      exact (bit_setStop _ _ _).trans (by rw [if_neg h13, if_neg h12])

/-- Settles O20: the second block runs on the channel the first left, with the same statements. -/
theorem initDefaultTwiceIsOnce : Obligations.InitDefaultTwiceIsOnce := by
  intro baud s t u r q hb hs ht hexec hchan hplat hparams
  rw [exec_initDefault_of_ne_zero hb hs, Host.Outcome.next.injEq] at hexec
  subst hexec
  refine ⟨_, exec_initDefault_of_ne_zero hb ht, ?_, ?_⟩
  · rw [hparams, hchan]
    exact chanAfter_initDefaultWrites_idem _ _ _
  · rw [hplat]

/-- Settles O22: a packed word is legal, and each register field holds the bits of the word in which the
configuration's field stands. -/
theorem configurationFieldsReachTheRegisters : Obligations.ConfigurationFieldsReachTheRegisters := by
  intro c present baud s r ⟨hr, hm⟩ hp hb
  obtain ⟨hlt, hpar⟩ := (cfgLegal_iff _).1 (cfgLegal_pack c)
  obtain ⟨-, -, -, hprograms, -⟩ := initConfigProgramsTheChannel present baud c.pack s r hr
  obtain ⟨t, -, hexec, -, -, hbrr, hcr1, hstop, -, hcr3⟩ :=
    hprograms hm hp ((highBits_zero_iff c.pack 10 22 rfl).2 hlt) hpar hb
  obtain ⟨hnine, htx, hrx, hover8, hrts, hcts⟩ := flags_pack c
  refine ⟨t, hexec, (hcr1 _).trans hnine, ?_, ?_, ?_, (hcr1 _).trans hover8, ?_, ?_⟩
  · rw [hstop, stop_pack]
    cases c.stop <;> rfl
  · rw [hcr1, hcr1, parity_pack]
    cases c.parity <;> rfl
  · exact Prod.ext ((hcr1 _).trans htx) ((hcr1 _).trans hrx)
  · exact Prod.ext ((hcr3 _).trans hrts) ((hcr3 _).trans hcts)
  · rw [hbrr, hover8]

end

section
/-! SUPPORT. SEND_BYTE and RECEIVE_BYTE, position by position (R143, R164). -/

namespace Sys2Proof.Machine

open Sys2Proof

/-- The low byte of a word read from DR, zero-extended (R164). -/
theorem lowByte_word (d : Word) : (lowByte d).setWidth 32 = BitVec.ofNat 32 (d.toNat % 256) := by
  apply BitVec.eq_of_toNat_eq
  simp only [lowByte, BitVec.toNat_setWidth, BitVec.toNat_ofNat]

section
variable {r : Running} {s : State} (hr : s.phase = .running r)
include hr

/-! ### SEND_BYTE -/

theorem exec_sendByte_entry (x : Word) (hm : r.mpc = .entry) :
    exec (.sendByte x) s = .next (if x.toNat ≤ 255 then stepReadCr1 r s else raiseFault .badArg s) := by
  simp only [exec, execSendByte, whileRunning_of_running hr, hm, ← Bool.not_eq_true, isByteArg_iff,
    stepRaise_unchanged hr]
  split_ifs <;> rfl

theorem exec_sendByte_testDirection (x : Word) (hm : r.mpc = .testDirection) :
    exec (.sendByte x) s =
      .next (if bit r.locals.c1 Cr1.te = false then finish r (writeR0 .busy s) else stepReadStart r s) := by
  simp only [exec, execSendByte, whileRunning_of_running hr, hm]
  split_ifs <;> rfl

theorem exec_sendByte_enterLoop (x : Word) (hm : r.mpc = .enterLoop) :
    exec (.sendByte x) s = .next (stepPoll .txe r s) := by
  simp only [exec, execSendByte, whileRunning_of_running hr, hm]

theorem exec_sendByte_txe (x : Word) (hm : r.mpc = .testFlag .txe) :
    exec (.sendByte x) s = .next (waitPolled .txe (some 1000) (stepWriteData ((x.setWidth 8).setWidth 32)) r s) := by
  simp only [exec, execSendByte, whileRunning_of_running hr, hm, Config.fixedTimeout]

theorem exec_sendByte_testTimeout (x : Word) (hm : r.mpc = .testTimeout .txe) :
    exec (.sendByte x) s =
      .next
        (if 1000 < (r.locals.t - r.locals.start).toNat then finish r (writeR0 .timeout s) else stepPoll .txe r s) := by
  simp only [exec, execSendByte, whileRunning_of_running hr, hm, waitTimed_eq, finishWith]
  rfl

theorem exec_sendByte_endFrame (x : Word) (hm : r.mpc = .endFrame) :
    exec (.sendByte x) s = .next (finish r (writeR0 .ok s)) := by
  simp only [exec, execSendByte, whileRunning_of_running hr, hm, finishWith]

/-! ### RECEIVE_BYTE -/

theorem exec_receiveByte_entry (hm : r.mpc = .entry) : exec .receiveByte s = .next (stepReadStart r s) := by
  simp only [exec, execReceiveByte, whileRunning_of_running hr, hm]

theorem exec_receiveByte_testFlag (hm : r.mpc = .testFlag .rxne) :
    exec .receiveByte s = .next (waitPolled .rxne (some 1000) stepReadData r s) := by
  simp only [exec, execReceiveByte, whileRunning_of_running hr, hm, Config.fixedTimeout]

theorem exec_receiveByte_testTimeout (hm : r.mpc = .testTimeout .rxne) :
    exec .receiveByte s =
      .next
        (if 1000 < (r.locals.t - r.locals.start).toNat then finish r (writeR1 0 s) else stepPoll .rxne r s) := by
  simp only [exec, execReceiveByte, whileRunning_of_running hr, hm, waitTimed_eq, finishValue]
  rfl

theorem exec_receiveByte_useData (hm : r.mpc = .useData) :
    exec .receiveByte s = .next (finish r (writeR1 (BitVec.ofNat 32 (r.locals.d.toNat % 256)) s)) := by
  simp only [exec, execReceiveByte, whileRunning_of_running hr, hm, finishValue, lowByte_word]

end

/-- RECEIVE_BYTE's next access is a poll: it enters its wait, or its last counter read came in time. -/
def ReceivePolls (r : Running) : Prop :=
  r.mpc = .enterLoop ∨ r.mpc = .testTimeout .rxne ∧ (r.locals.t - r.locals.start).toNat ≤ 1000

theorem exec_receiveByte_poll {r : Running} {s : State} (hr : s.phase = .running r) (h : ReceivePolls r) :
    exec .receiveByte s = .next (stepPoll .rxne r s) := by
  obtain hm | ⟨hm, hle⟩ := h
  · simp only [exec, execReceiveByte, whileRunning_of_running hr, hm]
  · rw [exec_receiveByte_testTimeout hr hm, if_neg (not_lt.2 hle)]

end Sys2Proof.Machine

open Sys2Proof Sys2Proof.Machine

/-- Settles O24: each position's step, by the outcome of its test; a legal argument is the word written to DR. -/
theorem sendByteFollowsItsPseudocode : Obligations.SendByteFollowsItsPseudocode := by
  intro x s r hr
  refine ⟨fun hm hx => ?_, fun hm hx => ?_, fun hm hte => ?_, fun hm hte => ?_, exec_sendByte_enterLoop hr x,
    fun hm hs hx => ?_, fun hm hs => ?_, fun hm h => ?_, fun hm h => ?_, exec_sendByte_endFrame hr x⟩
  · rw [exec_sendByte_entry hr x hm, if_neg (not_le.2 hx)]
  · rw [exec_sendByte_entry hr x hm, if_pos hx]
    rfl
  · rw [exec_sendByte_testDirection hr x hm, if_pos hte]
  · rw [exec_sendByte_testDirection hr x hm, if_neg (by simp [hte])]
    rfl
  · rw [exec_sendByte_txe hr x hm, waitPolled_of_set hs, byteArg_word x hx]
    rfl
  · rw [exec_sendByte_txe hr x hm, waitPolled_of_clear hs]
    rfl
  · rw [exec_sendByte_testTimeout hr x hm, if_pos h]
  · rw [exec_sendByte_testTimeout hr x hm, if_neg (not_lt.2 h)]
    rfl

/-- Settles O27: each position's step, by the outcome of its test. -/
theorem receiveByteFollowsItsPseudocode : Obligations.ReceiveByteFollowsItsPseudocode := by
  intro s r hr
  refine ⟨exec_receiveByte_entry hr, exec_receiveByte_poll hr, fun hm hs => ?_, fun hm hs => ?_, fun hm h => ?_,
    exec_receiveByte_useData hr⟩
  · rw [exec_receiveByte_testFlag hr hm, waitPolled_of_set hs]
    rfl
  · rw [exec_receiveByte_testFlag hr hm, waitPolled_of_clear hs]
    rfl
  · rw [exec_receiveByte_testTimeout hr hm, if_pos h]

end

section
/-! SUPPORT. A state in the middle of a command, as the state the command began in and what has changed since (R47,
R50). -/

namespace Sys2Proof.Machine

open Sys2Proof

/-- `s` with FG at `r`, the counter at `x`, the channel at `c`, the events `l` appended to the history and `moves` still
scheduled. -/
def State.amid (s : State) (r : Running) (x : Word) (c : Channel) (l : List Event) (moves : List Move) : State :=
  { s with
    tb := { s.tb with tickCnt := x }
    chan := c
    phase := .running r
    hist := s.hist ++ l
    schedule := moves }

/-- A running command is in the middle of itself, with nothing changed yet. -/
theorem amid_self {s : State} {r : Running} (hr : s.phase = .running r) :
    s.amid r s.tb.tickCnt s.chan [] s.schedule = s := by
  rw [State.amid, List.append_nil, ← hr]

section
variable {s : State} {r r' : Running} {x : Word} {c : Channel} {l : List Event} {moves : List Move}

theorem record_amid (e : Event) : record e (s.amid r x c l moves) = s.amid r x c (l ++ [e]) moves := by
  rw [record, State.amid, List.append_assoc]
  rfl

theorem stepReadStart_amid :
    stepReadStart r' (s.amid r x c l moves) =
      s.amid { r' with mpc := .enterLoop, locals := { r'.locals with start := x } } x c (l ++ [.tickRd x]) moves :=
  congrArg (setRunning _) (record_amid _)

theorem stepReadTime_amid (m : Mpc) :
    stepReadTime m r' (s.amid r x c l moves) =
      s.amid { r' with mpc := m, locals := { r'.locals with t := x } } x c (l ++ [.tickRd x]) moves :=
  congrArg (setRunning _) (record_amid _)

theorem stepReadStatus_amid (m : Mpc) :
    stepReadStatus m r' (s.amid r x c l moves) =
      s.amid { r' with mpc := m, locals := { r'.locals with status := if s.plat.clkEn then c.sr else 0 } } x
        (if s.plat.clkEn then c.afterRead .sr else c) (l ++ [.regRd .sr (if s.plat.clkEn then c.sr else 0)]) moves :=
  congrArg (setRunning _) (record_amid (c := if s.plat.clkEn then c.afterRead .sr else c) _)

end

section
variable {s : State} (hf : s.fault = none) {r : Running} {x : Word} {c : Channel} {l : List Event} {moves : List Move}
include hf

/-- FG's move runs the decoded command's own step. -/
theorem run_amid_core {i : Instr} {t : State} (hd : decodeCommand (runningCommand r s) = .instr i)
    (ht : exec i (s.amid r x c l moves) = .next t) (n : Nat) :
    core.run (n + 1) (s.amid r x c l (.core :: moves)) = core.run n t :=
  run_succ ((stepRunsTheDecodedCommand (s.amid r x c l (.core :: moves)) r i hf rfl rfl hd).trans ht) n

/-- A tick counts. -/
theorem run_amid_tick (he : s.tb.tickEn = true) (n : Nat) :
    core.run (n + 1) (s.amid r x c l (.tick :: moves)) =
      core.run n (s.amid r (x + 1) c (l ++ [.tick (x + 1)]) moves) := by
  refine run_succ ?_ n
  rw [step_of_unmarked (s := s.amid r x c l (.tick :: moves)) hf, ← record_amid]
  exact exec_tbTick_of_on (s := s.amid r x c l moves) he

end

end Sys2Proof.Machine

end

section
/-! SUPPORT. A whole RECEIVE_BYTE that times out (R164, R165), step by step under a given schedule: the start read, one
round of a tick, a poll and a counter read for each tick, and the finish. -/

namespace Sys2Proof.Machine

open Sys2Proof

theorem decodeCommand_receiveByte {s : State} (hcmd : s.ci.cmd = 0x31) (r : Running) :
    decodeCommand (runningCommand r s) = .instr .receiveByte := by
  rw [decodeCommand_eq_instr_iff, decodeTable_eq_instr_iff_encode, runningCommand, hcmd]
  exact ⟨rfl, rfl⟩

/-- Of the channel's registers the events have read SR alone, `n` times, each time as `v`, and written none. -/
structure PollsOnly (v : Word) (n : Nat) (l : List Event) : Prop where
  data : ∀ w, .regRd .dr w ∉ l ∧ .regWr .dr w ∉ l
  count : l.count (.regRd .sr v) = n
  value : ∀ w, .regRd .sr w ∈ l → w = v

theorem PollsOnly.append {v : Word} {n m : Nat} {l l' : List Event} (h : PollsOnly v n l) (h' : PollsOnly v m l') :
    PollsOnly v (n + m) (l ++ l') where
  data w := by simp [h.data w, h'.data w]
  count := by rw [List.count_append, h.count, h'.count]
  value w hw := (List.mem_append.1 hw).elim (h.value w) (h'.value w)

/-- The events of one round of the wait: a tick, a poll and a counter read. -/
theorem pollsOnly_round (v x y : Word) : PollsOnly v 1 [.tick x, .regRd .sr v, .tickRd y] := by
  constructor <;> simp

/-- RECEIVE_BYTE's wait after `k` of its rounds: FG's position and times, and what the polls leave of the channel. -/
structure ReceiveWaits (s : State) (k : Nat) (r : Running) (c : Channel) : Prop where
  position : r.mpc = .enterLoop ∧ k = 0 ∨
    r.mpc = .testTimeout .rxne ∧ r.locals.t = s.tb.tickCnt + BitVec.ofNat 32 k
  start : r.locals.start = s.tb.tickCnt
  sr : c.sr = s.chan.sr
  rdr : c.rdr = s.chan.rdr
  tdr : c.tdr = s.chan.tdr

/-- `u` is a state of a RECEIVE_BYTE that began in `s`, after `k` rounds of its wait, with `moves` still scheduled. -/
def WaitedRounds (s : State) (k : Nat) (moves : List Move) (u : State) : Prop :=
  ∃ r c l, u = s.amid r (s.tb.tickCnt + BitVec.ofNat 32 k) c l moves ∧ ReceiveWaits s k r c ∧
    PollsOnly (readValue .sr s) k l

section
variable {s : State} {k : Nat} {r : Running} {c : Channel} {l : List Event} {moves : List Move}

theorem ReceiveWaits.elapsed_eq (h : ReceiveWaits s k r c) (hk : k < 2 ^ 32) (hm : r.mpc = .testTimeout .rxne) :
    (r.locals.t - r.locals.start).toNat = k := by
  obtain ⟨hm', -⟩ | ⟨-, ht⟩ := h.position
  · cases hm.symm.trans hm'
  · rw [ht, h.start, elapsed_toNat_of_ticks _ hk]

/-- Up to round 1000 the wait goes on (R140, R164). -/
theorem ReceiveWaits.polls (h : ReceiveWaits s k r c) (hk : k ≤ 1000) : ReceivePolls r := by
  obtain ⟨hm, -⟩ | ⟨hm, -⟩ := h.position
  · exact .inl hm
  · exact .inr ⟨hm, (h.elapsed_eq (by omega) hm).trans_le hk⟩

end

section
variable {s u : State} (hf : s.fault = none) (hcmd : s.ci.cmd = 0x31)
include hf hcmd

/-- The command's first step reads its start and puts it in its wait. -/
theorem run_receiveByte_entry {r : Running} {moves : List Move} (hr : s.phase = .running r) (hm : r.mpc = .entry)
    (hs : s.schedule = .core :: moves) :
    ∃ v, core.run 1 s = .next v ∧ WaitedRounds s 0 moves v := by
  have hself := amid_self hr
  rw [hs] at hself
  rw [← hself, run_amid_core hf (decodeCommand_receiveByte hcmd r) (exec_receiveByte_entry rfl hm),
    stepReadStart_amid, hself]
  refine ⟨_, rfl, _, _, _, congrArg (fun x => s.amid _ x _ _ _) (BitVec.add_zero _).symm,
    ⟨.inl ⟨rfl, rfl⟩, rfl, rfl, rfl, rfl⟩, ?_⟩
  constructor <;> simp

section
variable (he : s.tb.tickEn = true) (hv : bit (readValue .sr s) Sr.rxne = false)
include he hv

/-- One round: a tick, a poll that sees RXNE = 0, and a counter read. -/
theorem WaitedRounds.run_round {k : Nat} {moves : List Move} (hk : k ≤ 1000)
    (h : WaitedRounds s k (.tick :: .core :: .core :: moves) u) :
    ∃ v, core.run 3 u = .next v ∧ WaitedRounds s (k + 1) moves v := by
  obtain ⟨r, c, l, rfl, hw, hl⟩ := h
  have hread : (if s.plat.clkEn then c.sr else 0) = readValue .sr s := by rw [hw.sr]; rfl
  have htime : s.tb.tickCnt + BitVec.ofNat 32 k + 1 = s.tb.tickCnt + BitVec.ofNat 32 (k + 1) := by
    rw [BitVec.ofNat_add, BitVec.add_assoc]
    rfl
  have hd (r : Running) := decodeCommand_receiveByte hcmd r
  rw [run_amid_tick hf he, htime,
    run_amid_core hf (hd _) (exec_receiveByte_poll rfl (hw.polls hk)), stepPoll, stepReadStatus_amid, hread,
    run_amid_core hf (hd _) (exec_receiveByte_testFlag rfl rfl), waitPolled_of_clear hv, stepReadTime_amid,
    List.append_assoc, List.append_assoc]
  refine ⟨_, rfl, _, _, _, rfl, ⟨.inr ⟨rfl, rfl⟩, hw.start, ?_, ?_, ?_⟩, hl.append (pollsOnly_round _ _ _)⟩
  · split
    exacts [hw.sr, hw.sr]
  · split
    exacts [hw.rdr, hw.rdr]
  · split
    exacts [hw.tdr, hw.tdr]

theorem WaitedRounds.run_rounds {k n : Nat} {moves : List Move} (hn : k + n ≤ 1001)
    (h : WaitedRounds s k ((List.replicate n [Move.tick, Move.core, Move.core]).flatten ++ moves) u) :
    ∃ v, core.run (3 * n) u = .next v ∧ WaitedRounds s (k + n) moves v := by
  induction n generalizing k u with
  | zero => exact ⟨u, rfl, h⟩
  | succ n ih =>
    obtain ⟨v, hrun, hv'⟩ := h.run_round hf hcmd he hv (by omega)
    obtain ⟨w, hrun', hw⟩ := ih (k := k + 1) (by omega) hv'
    refine ⟨w, ?_, by rwa [Nat.add_assoc, Nat.add_comm 1] at hw⟩
    rw [Nat.mul_succ, Nat.add_comm, run_add hrun, hrun']

end

/-- At elapsed 1001 the command puts 0 in R1 and finishes. -/
theorem WaitedRounds.run_finish {moves : List Move} (h : WaitedRounds s 1001 (.core :: moves) u) :
    ∃ r x c l, core.run 1 u = .next (finish r (writeR1 0 (s.amid r x c l moves))) ∧
      ReceiveWaits s 1001 r c ∧ PollsOnly (readValue .sr s) 1001 l := by
  obtain ⟨r, c, l, rfl, hw, hl⟩ := h
  have hm : r.mpc = .testTimeout .rxne := (hw.position.resolve_left (by simp)).1
  refine ⟨r, s.tb.tickCnt + BitVec.ofNat 32 1001, c, l, ?_, hw, hl⟩
  rw [run_amid_core hf (decodeCommand_receiveByte hcmd r) (exec_receiveByte_testTimeout rfl hm),
    if_pos (by rw [hw.elapsed_eq (by omega) hm]; omega)]
  rfl

end

end Sys2Proof.Machine

open Sys2Proof Sys2Proof.Machine

/-- Settles O57: the start read, 1001 rounds of a tick, a poll and a counter read, and the finish at elapsed 1001. -/
theorem receiveByteTimesOutAfter1001Polls : Obligations.ReceiveByteTimesOutAfter1001Polls := by
  intro s r rest hf hr hm hcmd he hv hs
  obtain ⟨u, hentry, h0⟩ := run_receiveByte_entry hf hcmd hr hm hs
  obtain ⟨v, hrounds, h1⟩ := h0.run_rounds hf hcmd he hv (by omega)
  obtain ⟨r', x, c, l, hfinish, hw, hl⟩ := h1.run_finish hf hcmd
  have hall := hl.append (l' := [.finish r'.op (shownResult s.ci.r0Set s.ci.r0) (some 0)]) (m := 0)
    (by constructor <;> simp)
  have hrun := run_add hentry (3 * 1001 + 1)
  rw [run_add hrounds, hfinish, show 1 + (3 * 1001 + 1) = 3005 from rfl] at hrun
  exact ⟨_, _, hrun, rfl, rfl, rfl, rfl, rfl, hw.rdr, hw.tdr, hw.sr, List.append_assoc _ _ _, hall.data, hall.count,
    hall.value⟩

end

section
/-! SUPPORT. A whole TRANSMIT against a line that is always ready (R141, R148), step by step under a given schedule: the
CR1 read and the start read; for each byte a poll, the memory read, the DR write and the line's change back; the last
poll and the finish. -/

namespace Sys2Proof.Machine

open Sys2Proof

/-- TRANSMIT reads all three arguments, so its decoded form determines the command (R82, R89). -/
theorem decodeCommand_transmit_iff (c : HostCommand) (a n w : Word) :
    decodeCommand c = .instr (.transmit a n w) ↔ c = ⟨0x20, a, n, w⟩ := by
  rw [decodeCommand_eq_instr_iff, decodeTable_eq_instr_iff_encode, eq_comm (b := HostCommand.keepArgs _ _)]
  exact ⟨fun h => h.2, fun h => ⟨rfl, h⟩⟩

theorem decodeCommand_transmit {s : State} (hcmd : s.ci.cmd = 0x20) (r : Running) :
    decodeCommand (runningCommand r s) = .instr (.transmit r.a0 r.a1 r.a2) := by
  rw [decodeCommand_transmit_iff, runningCommand, hcmd]

/-! ### The steps of a byte -/

section
variable {s : State} {r r' : Running} {x : Word} {c : Channel} {l : List Event} {moves : List Move}

theorem stepReadByte_amid {a : Word} (h : s.grants a .read = true) :
    stepReadByte a r' (s.amid r x c l moves) =
      s.amid { r' with mpc := .useByte, locals := { r'.locals with b := (s.byteAt a).setWidth 32 } } x c
        (l ++ [.memRd a (s.byteAt a)]) moves := by
  rw [stepReadByte_of_granted (s := s.amid r x c l moves) h]
  exact congrArg (setRunning _) (record_amid _)

variable (hc : s.plat.clkEn = true)
include hc

theorem stepReadCr1_amid :
    stepReadCr1 r' (s.amid r x c l moves) =
      s.amid { r' with mpc := .testDirection, locals := { r'.locals with c1 := c.cr1 } } x c
        (l ++ [.regRd .cr1 c.cr1]) moves := by
  have hclk : (s.amid r x c l moves).plat.clkEn = true := hc
  rw [stepReadCr1, regRead, readValue, if_pos hclk, if_pos hclk]
  exact congrArg (setRunning _) (record_amid _)

theorem stepPoll_amid (k : PollFlag) :
    stepPoll k r' (s.amid r x c l moves) =
      s.amid { r' with mpc := .testFlag k, locals := { r'.locals with status := c.sr } } x (c.afterRead .sr)
        (l ++ [.regRd .sr c.sr]) moves := by
  rw [stepPoll, stepReadStatus_amid, if_pos hc, if_pos hc]

theorem stepWriteData_amid (v : Word) :
    stepWriteData v r' (s.amid r x c l moves) =
      s.amid { r' with mpc := .endFrame } x (c.afterWrite .dr v) (l ++ [.regWr .dr v]) moves := by
  rw [stepWriteData, regWrite, if_pos (show (s.amid r x c l moves).plat.clkEn = true from hc)]
  exact congrArg (setRunning _) (record_amid (c := c.afterWrite .dr v) _)

/-- In the free model the line sets SR's flags and RDR (R208). -/
theorem run_amid_free (hf : s.fault = none) (he : s.params.envModel = .free) (v : BitVec 10) (d : Frame) (n : Nat) :
    core.run (n + 1) (s.amid r x c l (.line (.free v d) :: moves)) =
      core.run n (s.amid r x { c with sr := srWithFlags c.sr v, rdr := d } (l ++ [.lineFree (srWithFlags c.sr v) d])
        moves) := by
  refine run_succ ?_ n
  rw [step_of_unmarked (s := s.amid r x c l (.line (.free v d) :: moves)) hf, ← record_amid]
  exact congrArg Host.Outcome.next (if_pos (by simp [lineEnabled, State.amid, he, hc]))

end

/-! ### The loop -/

/-- TRANSMIT comes to byte `i`: it enters its loop, or the byte before is written. -/
def AtByte (i : Nat) (r : Running) : Prop :=
  r.mpc = .enterLoop ∧ i = 0 ∨ r.mpc = .endFrame ∧ ∃ j, i = j + 1 ∧ r.locals.i = BitVec.ofNat 32 j

section
variable {a n w : Word} {i : Nat} {r : Running} {s : State} (hr : s.phase = .running r) (h : AtByte i r)
include hr h

/-- While bytes are left TRANSMIT polls for the next one. -/
theorem exec_transmit_nextByte (hi : i < n.toNat) :
    exec (.transmit a n w) s =
      .next (stepPoll .txe { r with locals := { r.locals with i := BitVec.ofNat 32 i } } s) := by
  obtain ⟨hm, rfl⟩ | ⟨hm, j, rfl, hj⟩ := h
  · exact exec_transmit_enterLoop hr a n w hm
  · rw [exec_transmit_endFrame hr a n w hm, if_pos (by rw [hj, BitVec.toNat_ofNat]; omega), hj, BitVec.ofNat_add]
    rfl

/-- After the last byte it polls for the end of the transmission. -/
theorem exec_transmit_lastByte (hi : i = n.toNat) (hn : n ≠ 0) :
    exec (.transmit a n w) s = .next (stepPoll .tc r s) := by
  obtain ⟨-, rfl⟩ | ⟨hm, j, rfl, hj⟩ := h
  · exact absurd (BitVec.eq_of_toNat_eq hi.symm) hn
  · have := n.isLt
    rw [exec_transmit_endFrame hr a n w hm, if_neg (by rw [hj, BitVec.toNat_ofNat]; omega)]

end

theorem ready_txe : bit 0xC0 Sr.txe = true := by decide

theorem ready_tc : bit 0xC0 Sr.tc = true := by decide

/-- The line's free change puts SR back to 0xC0 after a DR write (R67, R208). -/
theorem srWithFlags_afterDataWrite {c : Channel} (h : c.sr = 0xC0) : srWithFlags (srAfterDataWrite c) 0xC0 = 0xC0 := by
  rw [srAfterDataWrite, h]
  cases c.tcArmed <;> decide

/-- `u` is a state of the TRANSMIT that runs as `r` in `s`, come to byte `i` with SR = 0xC0, with `l` appended to the
history and `moves` still scheduled. -/
def TransmitsFrom (s : State) (r : Running) (i : Nat) (l : List Event) (moves : List Move) (u : State) : Prop :=
  ∃ m loc c, u = s.amid { r with mpc := m, locals := loc } s.tb.tickCnt c l moves ∧
    AtByte i { r with mpc := m, locals := loc } ∧ c.sr = 0xC0

section
variable {s u : State} {r : Running} {l : List Event} {moves : List Move}
  (hf : s.fault = none) (hcmd : s.ci.cmd = 0x20) (hc : s.plat.clkEn = true)
include hf hcmd hc

/-- The command's first two steps read CR1 and the start, and put it in its loop. -/
theorem run_transmit_entry (hr : s.phase = .running r) (hm : r.mpc = .entry) (hte : bit s.chan.cr1 Cr1.te = true)
    (hsr : s.chan.sr = 0xC0) (ha : r.a0 ≠ 0) (hn : r.a1 ≠ 0) (hwrap : r.a0.toNat + r.a1.toNat ≤ 2 ^ 32)
    (hs : s.schedule = .core :: .core :: moves) :
    ∃ v, core.run 2 s = .next v ∧
      TransmitsFrom s r 0 [.regRd .cr1 s.chan.cr1, .tickRd s.tb.tickCnt] moves v := by
  have hself := amid_self hr
  rw [hs] at hself
  rw [← hself, run_amid_core hf (decodeCommand_transmit hcmd r) (exec_transmit_entry rfl _ _ _ hm),
    if_neg (not_or.2 ⟨ha, hn⟩), stepReadCr1_amid hc,
    run_amid_core hf (decodeCommand_transmit hcmd _) (exec_transmit_testDirection rfl _ _ _ rfl),
    if_neg (by simp [hte]), if_neg (not_lt.2 hwrap), stepReadStart_amid, hself]
  exact ⟨_, rfl, _, _, _, rfl, .inl ⟨rfl, rfl⟩, hsr⟩

section
variable {d : Frame} (hfree : s.params.envModel = .free)
  (hgrants : ∀ i, i < r.a1.toNat → s.grants (r.a0 + BitVec.ofNat 32 i) .read = true)
include hfree hgrants

/-- One byte: a poll that sees TXE = 1, the memory read, the DR write, and the line's change back to ready. -/
theorem TransmitsFrom.run_byte {i : Nat} (hi : i < r.a1.toNat)
    (h : TransmitsFrom s r i l (.core :: .core :: .core :: .line (.free 0xC0 d) :: moves) u) :
    ∃ v, core.run 4 u = .next v ∧ TransmitsFrom s r (i + 1) (l ++ alwaysReadyEvents s r.a0 d i 1) moves v := by
  obtain ⟨m, loc, c, rfl, hat, hsr⟩ := h
  have hd (m : Mpc) (loc : Locals) := decodeCommand_transmit hcmd { r with mpc := m, locals := loc }
  rw [run_amid_core hf (hd _ _) (exec_transmit_nextByte rfl hat hi), stepPoll_amid hc, hsr,
    run_amid_core hf (hd _ _) (exec_transmit_txe rfl _ _ _ rfl), waitPolled_of_set ready_txe,
    stepReadByte_amid (hgrants i hi),
    run_amid_core hf (hd _ _) (exec_transmit_useByte rfl _ _ _ rfl), stepWriteData_amid hc,
    run_amid_free hc hf hfree]
  have hback := srWithFlags_afterDataWrite (c := c.afterRead .sr) hsr
  refine ⟨_, rfl, _, _, _, congrArg (fun l => s.amid _ _ _ l _) ?_, .inr ⟨rfl, i, rfl, rfl⟩, hback⟩
  simp only [List.append_assoc]
  exact congrArg (fun sr => l ++ [.regRd .sr 0xC0, _, _, .lineFree sr d]) hback

theorem TransmitsFrom.run_bytes {i k : Nat} (hk : i + k ≤ r.a1.toNat)
    (h : TransmitsFrom s r i l
      ((List.replicate k [Move.core, .core, .core, .line (.free 0xC0 d)]).flatten ++ moves) u) :
    ∃ v, core.run (4 * k) u = .next v ∧
      TransmitsFrom s r (i + k) (l ++ alwaysReadyEvents s r.a0 d i k) moves v := by
  induction k generalizing i l u with
  | zero => exact ⟨u, rfl, by rwa [alwaysReadyEvents, List.append_nil]⟩
  | succ k ih =>
    obtain ⟨v, hrun, hv⟩ := h.run_byte hf hcmd hc hfree hgrants (by omega)
    obtain ⟨w, hrun', hw⟩ := ih (i := i + 1) (by omega) hv
    refine ⟨w, by rw [Nat.mul_succ, Nat.add_comm, run_add hrun, hrun'], ?_⟩
    rw [Nat.add_assoc, Nat.add_comm 1, List.append_assoc] at hw
    exact hw

end

/-- After its last byte the command polls TC, which is set, and finishes with Ok. -/
theorem TransmitsFrom.run_finish (hn : r.a1 ≠ 0) (h : TransmitsFrom s r r.a1.toNat l (.core :: .core :: moves) u) :
    ∃ r' x c, r'.op = r.op ∧
      core.run 2 u = .next (finish r' (writeR0 .ok (s.amid r' x c (l ++ [.regRd .sr 0xC0]) moves))) := by
  obtain ⟨m, loc, c, rfl, hat, hsr⟩ := h
  have hd (m : Mpc) (loc : Locals) := decodeCommand_transmit hcmd { r with mpc := m, locals := loc }
  rw [run_amid_core hf (hd _ _) (exec_transmit_lastByte rfl hat rfl hn), stepPoll_amid hc, hsr,
    run_amid_core hf (hd _ _) (exec_transmit_tc rfl _ _ _ rfl), waitPolled_of_set ready_tc]
  exact ⟨_, _, _, rfl, rfl⟩

end

end Sys2Proof.Machine

open Sys2Proof Sys2Proof.Machine

/-- Settles O58: the CR1 read and the start read, a round for each byte, and the last poll and the finish. -/
theorem transmitWritesItsBytesInOrder : Obligations.TransmitWritesItsBytesInOrder := by
  intro s r d rest hf hr hm hcmd hfree hc hte hsr ha hn hwrap hgrants hs
  rw [List.append_assoc, List.append_assoc] at hs
  obtain ⟨u, hentry, h0⟩ := run_transmit_entry hf hcmd hc hr hm hte hsr ha hn hwrap hs
  obtain ⟨v, hbytes, h1⟩ := h0.run_bytes hf hcmd hc hfree hgrants (by omega)
  rw [Nat.zero_add] at h1
  obtain ⟨r', x, c, hop, hfinish⟩ := h1.run_finish hf hcmd hc hn
  have hrun := run_add hentry (4 * r.a1.toNat + 2)
  rw [run_add hbytes, hfinish, show 2 + (4 * r.a1.toNat + 2) = 4 * r.a1.toNat + 4 by omega] at hrun
  refine ⟨_, hrun, rfl, rfl, rfl, rfl, rfl, ?_⟩
  rw [finish_hist, writeR0_hist, State.amid, hop]
  simp only [List.append_assoc]
  rfl

end

section
/-! SUPPORT. Timeout monotonicity (R147): with a smaller timeout TRANSMIT and RECEIVE take the same steps under the same
schedule, until they time out. -/

namespace Sys2Proof.Machine

open Sys2Proof

/-- FG is Idle and R0 reports Timeout. -/
def State.timedOut (s : State) : Prop := s.phase = .idle ∧ s.ci.r0 = 1

/-- Where `x` answers a next state, `y` answers the same state with the timeout `w`, or a state that has timed out. -/
def FollowsOrTimesOut (w : Word) (x y : Result) : Prop :=
  ∀ v, x = .next v → y = .next (withTimeout w v) ∨ ∃ u, y = .next u ∧ u.timedOut

section
variable {w : Word} {x x' y y' : Result}

theorem FollowsOrTimesOut.next {s t : State} (h : t = withTimeout w s) : FollowsOrTimesOut w (.next s) (.next t) := by
  rintro v ⟨⟩
  exact .inl (congrArg Host.Outcome.next h)

theorem FollowsOrTimesOut.refused (why : Refusal) (y : Result) : FollowsOrTimesOut w (.refused why) y :=
  fun _ h => nomatch h

theorem FollowsOrTimesOut.ite {p : Prop} [Decidable p] (h : FollowsOrTimesOut w x y) (h' : FollowsOrTimesOut w x' y') :
    FollowsOrTimesOut w (if p then x else x') (if p then y else y') := by
  by_cases hp : p
  · rwa [if_pos hp, if_pos hp]
  · rwa [if_neg hp, if_neg hp]

end

/-! ### The steps of TRANSMIT and RECEIVE with another timeout -/

/-- The running command with the timeout `w` in A2. -/
def Running.withTimeout (w : Word) (r : Running) : Running := { r with a2 := w }

section
variable (w : Word)

@[simp] theorem Running.withTimeout_mpc (r : Running) : (r.withTimeout w).mpc = r.mpc := rfl
@[simp] theorem Running.withTimeout_locals (r : Running) : (r.withTimeout w).locals = r.locals := rfl

theorem withTimeout_withTimeout (w' : Word) (s : State) : withTimeout w (withTimeout w' s) = withTimeout w s := by
  unfold withTimeout
  cases s.phase <;> rfl

theorem withTimeout_running {s : State} {r : Running} (hr : s.phase = .running r) :
    (withTimeout w s).phase = .running (r.withTimeout w) := by
  simp only [withTimeout, hr, Running.withTimeout]

theorem withTimeout_idle {s : State} (hp : s.phase = .idle) : (withTimeout w s).phase = .idle := by
  simp only [withTimeout, hp]

end

/-- A test that does not read the timeout chooses between two steps that do not. -/
theorem ite_withTimeout {w : Word} {p : Prop} [Decidable p] {s s' t t' : State} (h : s' = withTimeout w s)
    (h' : t' = withTimeout w t) : (if p then s' else t') = withTimeout w (if p then s else t) := by
  rw [h, h', apply_ite (withTimeout w)]

section
variable {w : Word} {r : Running} {s : State}

theorem stepReadByte_withTimeout (a : Word) :
    stepReadByte a (r.withTimeout w) (withTimeout w s) = withTimeout w (stepReadByte a r s) :=
  ite_withTimeout rfl rfl

theorem storeOrReport_withTimeout (a : Word) :
    storeOrReport a (r.withTimeout w) (withTimeout w s) = withTimeout w (storeOrReport a r s) :=
  ite_withTimeout rfl (ite_withTimeout rfl rfl)

theorem nextByte_withTimeout {n : Word} {more last : Running → State → State}
    (hmore : ∀ r, more (r.withTimeout w) (withTimeout w s) = withTimeout w (more r s))
    (hlast : last (r.withTimeout w) (withTimeout w s) = withTimeout w (last r s)) :
    nextByte n more last (r.withTimeout w) (withTimeout w s) = withTimeout w (nextByte n more last r s) :=
  ite_withTimeout (hmore { r with locals := { r.locals with i := r.locals.i + 1 } }) hlast

/-- After a poll the timeout decides nothing: the flag is set, or the counter is read (R140). -/
theorem waitPolled_withTimeout {k : PollFlag} {t t' : Word} {ready : Running → State → State}
    (h : ready (r.withTimeout w) (withTimeout w s) = withTimeout w (ready r s)) :
    waitPolled k (some t') ready (r.withTimeout w) (withTimeout w s) =
      withTimeout w (waitPolled k (some t) ready r s) :=
  ite_withTimeout h rfl

end

section
variable {t1 t2 : Word} (hlt : t2.toNat < t1.toNat) {r : Running} {s : State}
include hlt

/-- At the test of the elapsed time the smaller timeout has expired wherever the larger one has (R140, R147). -/
theorem waitTimed_follows (k : PollFlag) :
    FollowsOrTimesOut t2 (.next (waitTimed k t1 (finishWith .timeout) r s))
      (.next (waitTimed k t2 (finishWith .timeout) (r.withTimeout t2) (withTimeout t2 s))) := by
  rw [waitTimed_eq, waitTimed_eq, Running.withTimeout_locals]
  by_cases h : t2.toNat < (r.locals.t - r.locals.start).toNat
  · rw [if_pos h]
    exact fun _ _ => .inr ⟨_, rfl, rfl, rfl⟩
  · rw [if_neg h, if_neg (by omega)]
    exact .next rfl

variable (hr : s.phase = .running r) (a n : Word)
include hr

theorem execTransmit_follows :
    FollowsOrTimesOut t2 (execTransmit a n t1 s) (execTransmit a n t2 (withTimeout t2 s)) := by
  simp only [execTransmit, whileRunning_of_running hr, whileRunning_of_running (withTimeout_running t2 hr),
    Running.withTimeout_mpc, Running.withTimeout_locals]
  generalize r.mpc = m
  cases m with
  | entry => exact .ite (.next rfl) (.next rfl)
  | testDirection => exact .ite (.next rfl) (.ite (.next rfl) (.next rfl))
  | enterLoop | useByte => exact .next rfl
  | testFlag k =>
    cases k with
    | txe => exact .next (waitPolled_withTimeout (stepReadByte_withTimeout _))
    | tc => exact .next (waitPolled_withTimeout rfl)
    | rxne => exact .refused _ _
  | testTimeout k =>
    cases k with
    | rxne => exact .refused _ _
    | _ => exact waitTimed_follows hlt _
  | endFrame => exact .next (nextByte_withTimeout (fun _ => rfl) rfl)
  | _ => exact .refused _ _

theorem execReceive_follows :
    FollowsOrTimesOut t2 (execReceive a n t1 s) (execReceive a n t2 (withTimeout t2 s)) := by
  simp only [execReceive, whileRunning_of_running hr, whileRunning_of_running (withTimeout_running t2 hr),
    Running.withTimeout_mpc, Running.withTimeout_locals]
  generalize r.mpc = m
  cases m with
  | entry => exact .ite (.next rfl) (.next rfl)
  | testDirection => exact .ite (.next rfl) (.ite (.next rfl) (.next rfl))
  | enterLoop | useStatus => exact .next rfl
  | testFlag k =>
    cases k with
    | rxne => exact .next (waitPolled_withTimeout rfl)
    | _ => exact .refused _ _
  | testTimeout k =>
    cases k with
    | rxne => exact waitTimed_follows hlt _
    | _ => exact .refused _ _
  | useData => exact .next (storeOrReport_withTimeout _)
  | endStore => exact .next (nextByte_withTimeout (fun _ => rfl) rfl)
  | _ => exact .refused _ _

end

/-! ### Every agent's step -/

/-- `i` is a TRANSMIT or a RECEIVE with the timeout `w` (R141, R160). -/
def HasTimeout (w : Word) (i : Instr) : Prop := ∃ a n, i = .transmit a n w ∨ i = .receive a n w

/-- RECEIVE reads all three arguments, so its decoded form determines the command (R82, R89). -/
theorem decodeCommand_receive_iff (c : HostCommand) (a n w : Word) :
    decodeCommand c = .instr (.receive a n w) ↔ c = ⟨0x30, a, n, w⟩ := by
  rw [decodeCommand_eq_instr_iff, decodeTable_eq_instr_iff_encode, eq_comm (b := HostCommand.keepArgs _ _)]
  exact ⟨fun h => h.2, fun h => ⟨rfl, h⟩⟩

theorem lineStep_withTimeout (w : Word) (e : LineEvent) (s : State) :
    lineStep e (withTimeout w s) = withTimeout w (lineStep e s) := by
  cases e with
  | rx b pe fe nf => exact ite_withTimeout (ite_withTimeout rfl rfl) rfl
  | _ => exact ite_withTimeout rfl rfl

section
variable {t1 t2 : Word} {r : Running} {i : Instr} {s t : State}

/-- FG's turn with a smaller timeout. -/
theorem coreTurn_follows (hlt : t2.toNat < t1.toNat) (hr : s.runsInstr r i) (hi : HasTimeout t1 i) :
    FollowsOrTimesOut t2 (coreTurn s) (coreTurn (withTimeout t2 s)) := by
  have hp := withTimeout_running t2 hr.1
  have hcmd (c : Word) (a n : Word) (h : runningCommand r s = ⟨c, a, n, t1⟩) :
      runningCommand (r.withTimeout t2) (withTimeout t2 s) = ⟨c, a, n, t2⟩ :=
    congrArg (fun c : HostCommand => { c with a2 := t2 }) h
  rw [coreTurn_of_runsInstr hr]
  obtain ⟨a, n, rfl | rfl⟩ := hi
  · have hd := (decodeCommand_transmit_iff _ _ _ _).2 (hcmd _ _ _ ((decodeCommand_transmit_iff _ _ _ _).1 hr.2))
    rw [coreTurn_of_runsInstr ⟨hp, hd⟩]
    exact execTransmit_follows hlt hr.1 a n
  · have hd := (decodeCommand_receive_iff _ _ _ _).2 (hcmd _ _ _ ((decodeCommand_receive_iff _ _ _ _).1 hr.2))
    rw [coreTurn_of_runsInstr ⟨hp, hd⟩]
    exact execReceive_follows hlt hr.1 a n

/-- The step with a smaller timeout does the same or times out: the other agents do not read the timeout. -/
theorem step_follows (hlt : t2.toNat < t1.toNat) (hr : s.runsInstr r i) (hi : HasTimeout t1 i) :
    FollowsOrTimesOut t2 (step s) (step (withTimeout t2 s)) := by
  intro v hv
  have hf := (step_effect hv).1
  rw [step_of_unmarked hf] at hv
  rw [step_of_unmarked (s := withTimeout t2 s) hf]
  refine (?_ : FollowsOrTimesOut t2 (moveStep (nextMove s) (takeMove s))
    (moveStep (nextMove s) (withTimeout t2 (takeMove s)))) v hv
  cases nextMove s with
  | core => exact coreTurn_follows (s := takeMove s) hlt hr hi
  | tick => exact .ite (.next rfl) (.next rfl)
  | line e => exact .next (lineStep_withTimeout t2 e _)

/-- A command that goes on is the same instruction, with the same arguments (R24, R47). -/
theorem step_idle_or_runsInstr (hr : s.runsInstr r i) (h : step s = .next t) :
    t.phase = .idle ∨ ∃ r', t.runsInstr r' i := by
  rw [step_of_unmarked (step_effect h).1] at h
  by_cases hm : nextMove s = .core
  · rw [hm, moveStep, coreTurn_of_runsInstr (s := takeMove s) hr] at h
    obtain ⟨⟨r', hp, ⟨-, ha0, ha1, ha2⟩, -⟩, hci, -⟩ | ⟨c, rfl⟩ :=
      (command_effect hr h).runsOn_or_finish hr.1
    · have hcmd : runningCommand r' t = runningCommand r s := by
        rw [runningCommand, runningCommand, hci, ha0, ha1, ha2]
        rfl
      exact .inr ⟨r', hp, hcmd ▸ hr.2⟩
    · exact .inl rfl
  · exact .inr ⟨r, other_keeps_runsInstr (s := takeMove s) hm hr h⟩

end

/-! ### Whole runs -/

section
variable {s : State} {n : Nat}

theorem timesOutAfter_zero_iff : TimesOutAfter 0 s ↔ s.timedOut :=
  ⟨fun ⟨_, _, hrun, h⟩ => by cases hrun; exact h, fun h => ⟨nofun, s, rfl, h⟩⟩

theorem timesOutAfter_succ_iff :
    TimesOutAfter (n + 1) s ↔ s.phase ≠ .idle ∧ ∃ t, step s = .next t ∧ TimesOutAfter n t := by
  constructor
  · rintro ⟨hrun, u, hu, hidle⟩
    obtain ⟨v, hv, hp⟩ := hrun 0 (Nat.succ_pos n)
    cases hv
    cases hs : step s with
    | next t =>
      refine ⟨hp, t, rfl, fun k hk => ?_, u, by rw [← run_succ hs, hu], hidle⟩
      obtain ⟨w, hw, hpw⟩ := hrun (k + 1) (by omega)
      exact ⟨w, by rw [← run_succ hs, hw], hpw⟩
    | fault f => simp [Host.Core.run, show core.step s = _ from hs] at hu
    | refused why => simp [Host.Core.run, show core.step s = _ from hs] at hu
  · rintro ⟨hp, t, hs, hrun, u, hu, hidle⟩
    refine ⟨fun k hk => ?_, u, by rw [run_succ hs, hu], hidle⟩
    cases k with
    | zero => exact ⟨s, rfl, hp⟩
    | succ k =>
      obtain ⟨v, hv, hpv⟩ := hrun k (by omega)
      exact ⟨v, by rw [run_succ hs, hv], hpv⟩

/-- By induction on the steps: with the smaller timeout the command takes the same step or times out in it. -/
theorem timesOutAfter_withTimeout {t1 t2 : Word} (hlt : t2.toNat < t1.toNat)
    (hrun : s.phase = .idle ∨ ∃ r i, s.runsInstr r i ∧ HasTimeout t1 i) (h : TimesOutAfter n s) :
    ∃ m, m ≤ n ∧ TimesOutAfter m (withTimeout t2 s) := by
  induction n generalizing s with
  | zero =>
    obtain ⟨hp, h0⟩ := timesOutAfter_zero_iff.1 h
    exact ⟨0, le_rfl, timesOutAfter_zero_iff.2 ⟨withTimeout_idle t2 hp, h0⟩⟩
  | succ n ih =>
    obtain ⟨hp, t, hs, ht⟩ := timesOutAfter_succ_iff.1 h
    obtain ⟨r, i, hr, hi⟩ := hrun.resolve_left hp
    have hp' : (withTimeout t2 s).phase ≠ .idle := withTimeout_running t2 hr.1 ▸ nofun
    obtain hstep | ⟨u, hstep, hu⟩ := step_follows hlt hr hi t hs
    · have hgoes : t.phase = .idle ∨ ∃ r i, t.runsInstr r i ∧ HasTimeout t1 i :=
        (step_idle_or_runsInstr hr hs).imp_right fun ⟨r', hr'⟩ => ⟨r', i, hr', hi⟩
      obtain ⟨m, hm, htm⟩ := ih hgoes ht
      exact ⟨m + 1, Nat.succ_le_succ hm, timesOutAfter_succ_iff.2 ⟨hp', _, hstep, htm⟩⟩
    · exact ⟨1, by omega, timesOutAfter_succ_iff.2 ⟨hp', u, hstep, timesOutAfter_zero_iff.2 hu⟩⟩

end

end Sys2Proof.Machine

open Sys2Proof Sys2Proof.Machine

/-- Settles O59: both commands start with their timeout in A2, and the smaller one expires no later. -/
theorem timeoutIsMonotone : Obligations.TimeoutIsMonotone := by
  intro s r t1 t2 n hr _ hcmd hlt h
  have hp := withTimeout_running t1 hr
  have hrun : ∃ i, (withTimeout t1 s).runsInstr (r.withTimeout t1) i ∧ HasTimeout t1 i := by
    obtain hcmd | hcmd := hcmd
    · exact ⟨_, ⟨hp, decodeCommand_transmit (s := withTimeout t1 s) hcmd _⟩, _, _, .inl rfl⟩
    · refine ⟨_, ⟨hp, (decodeCommand_receive_iff _ _ _ _).2 ?_⟩, r.a0, r.a1, .inr rfl⟩
      exact congrArg (fun cmd => HostCommand.mk cmd r.a0 r.a1 t1) hcmd
  rw [← withTimeout_withTimeout t2 t1 s]
  exact timesOutAfter_withTimeout hlt (.inr ⟨_, hrun⟩) h

end

section
/-! SUPPORT. IS_DATA_AVAILABLE, position by position (R166), and the error-flag decoder (R161). -/

namespace Sys2Proof.Machine

open Sys2Proof

/-- `zext_32(s[RXNE])` is the flag as 0 or 1 (R166). -/
theorem rxneValue_eq (w : Word) : rxneValue w = BitVec.ofNat 32 (bit w Sr.rxne).toNat := by
  rw [rxneValue]
  cases bit w Sr.rxne <;> rfl

section
variable {r : Running} {s : State} (hr : s.phase = .running r)
include hr

theorem exec_isDataAvailable_entry (hm : r.mpc = .entry) :
    exec .isDataAvailable s = .next (stepReadStatus .useStatus r s) := by
  simp only [exec, execIsDataAvailable, whileRunning_of_running hr, hm]

theorem exec_isDataAvailable_useStatus (hm : r.mpc = .useStatus) :
    exec .isDataAvailable s =
      .next (finish r (writeR1 (BitVec.ofNat 32 (bit r.locals.status Sr.rxne).toNat) s)) := by
  simp only [exec, execIsDataAvailable, whileRunning_of_running hr, hm, finishValue, rxneValue_eq]

end

/-- No status decodes to Overflow: the local `e` would end in its code. -/
theorem decodeErrors_ne_overflow (w : Word) : decodeErrors w ≠ some .overflow := by
  intro h
  have hcode := decodedCode_ne_overflow w
  rw [h] at hcode
  exact hcode (by decide)

end Sys2Proof.Machine

open Sys2Proof Sys2Proof.Machine

/-- Settles O28: each position's step; the model's zero-extended flag is the flag as a number. -/
theorem isDataAvailableReturnsRxne : Obligations.IsDataAvailableReturnsRxne :=
  fun _ _ hr => ⟨exec_isDataAvailable_entry hr, exec_isDataAvailable_useStatus hr⟩

/-- Settles O29: each flag answers where the flags before it in the decoder's order are clear. -/
theorem errorFlagsDecodeInFixedPrecedence : Obligations.ErrorFlagsDecodeInFixedPrecedence := by
  intro w
  refine ⟨fun hpe => ?_, fun hpe hfe => ?_, fun hpe hfe hnf => ?_, fun hpe hfe hnf hore => ?_,
    fun hpe hfe hnf hore => ?_, decodeErrors_ne_overflow w⟩
  · simp [decodeErrors, hpe]
  · simp [decodeErrors, hpe, hfe]
  · simp [decodeErrors, hpe, hfe, hnf]
  · simp [decodeErrors, hpe, hfe, hnf, hore]
  · simp [decodeErrors, hpe, hfe, hnf, hore]

end

section
/-! SUPPORT. CLEAR_ERRORS, position by position (R180). -/

namespace Sys2Proof.Machine

open Sys2Proof

theorem anyError_eq_false_iff (w : Word) : anyError w = false ↔ ∀ k, k < 4 → bit w k = false := by
  rw [← Bool.not_eq_true, anyError_iff]
  simp

section
variable {r : Running} {s : State} (hr : s.phase = .running r)
include hr

theorem exec_clearErrors_entry (hm : r.mpc = .entry) :
    exec .clearErrors s = .next (stepReadStatus .useStatus r s) := by
  simp only [exec, execClearErrors, whileRunning_of_running hr, hm]

/-- The DR read is made only where the status read saw an error flag. -/
theorem exec_clearErrors_useStatus (hm : r.mpc = .useStatus) :
    exec .clearErrors s =
      .next (if anyError r.locals.status then stepReadData r s else finish r (writeR0 .ok s)) := by
  simp only [exec, execClearErrors, whileRunning_of_running hr, hm]
  split_ifs <;> rfl

theorem exec_clearErrors_useData (hm : r.mpc = .useData) :
    exec .clearErrors s = .next (finish r (writeR0 .ok s)) := by
  simp only [exec, execClearErrors, whileRunning_of_running hr, hm, finishWith]

end

end Sys2Proof.Machine

open Sys2Proof Sys2Proof.Machine

/-- Settles O30: each position's step; the test of the status is whether one of its bits 0 to 3 is set. -/
theorem clearErrorsFollowsItsPseudocode : Obligations.ClearErrorsFollowsItsPseudocode := by
  intro s r hr
  refine ⟨exec_clearErrors_entry hr, fun hm hflag => ?_, fun hm hclear => ?_, exec_clearErrors_useData hr⟩
  · rw [exec_clearErrors_useStatus hr hm, if_pos ((anyError_iff _).2 hflag)]
    rfl
  · rw [exec_clearErrors_useStatus hr hm, (anyError_eq_false_iff _).2 hclear]
    rfl

end

section
/-! SUPPORT. One move of LINE: the guard of each event as a conjunction, the step where it holds and where it does not
(R200 to R204, R207, R208), and the interrupt request under the invariant of the unwritten bits (R206). -/

namespace Sys2Proof.Machine

open Sys2Proof

/-! ### The step of LINE -/

section
variable {s : State} {e : LineEvent} (hf : s.fault = none) (hm : nextMove s = .line e)
include hf hm

theorem step_line : step s = .next (lineStep e (takeMove s)) := by
  rw [step_of_unmarked hf, hm, moveStep]

/-- An event's guard reads nothing of the schedule, so it holds of the state as it stood before the move was taken. -/
theorem step_line_of_enabled (he : lineEnabled e s = true) : step s = .next (lineEffect e (takeMove s)) :=
  (step_line hf hm).trans (congrArg Host.Outcome.next (if_pos he))

theorem step_line_of_not_enabled (he : ¬lineEnabled e s = true) : step s = .next (takeMove s) :=
  (step_line hf hm).trans (congrArg Host.Outcome.next (if_neg he))

end

/-! ### The guards -/

theorem deviceLineRuns_iff (s : State) :
    deviceLineRuns s = true ↔ s.params.envModel = .device ∧ s.plat.clkEn = true ∧ bit s.chan.cr1 Cr1.ue = true := by
  simp only [deviceLineRuns, Bool.and_eq_true, decide_eq_true_eq, and_assoc]

theorem lineEnabled_txLoad_iff (s : State) :
    lineEnabled .txLoad s = true ↔
      s.params.envModel = .device ∧ s.plat.clkEn = true ∧ bit s.chan.cr1 Cr1.ue = true ∧
      bit s.chan.cr1 Cr1.te = true ∧ bit s.chan.sr Sr.txe = false ∧ s.chan.shiftBusy = false := by
  simp only [lineEnabled, Bool.and_eq_true, Bool.not_eq_true', deviceLineRuns_iff, and_assoc]

theorem lineEnabled_txDone_iff (s : State) :
    lineEnabled .txDone s = true ↔
      s.params.envModel = .device ∧ s.plat.clkEn = true ∧ bit s.chan.cr1 Cr1.ue = true ∧ s.chan.shiftBusy = true := by
  simp only [lineEnabled, Bool.and_eq_true, deviceLineRuns_iff, and_assoc]

/-- A frame's bit 8 is 0 when its value is one byte. -/
theorem frame_bit8_eq_false_iff (b : Frame) : b.getLsbD 8 = false ↔ b.toNat < 256 := by
  have hmsb : b.getLsbD 8 = decide (256 ≤ b.toNat) := (BitVec.msb_eq_getLsbD_last b).symm.trans (BitVec.msb_eq_decide b)
  rw [hmsb, decide_eq_false_iff_not, not_le]

/-- The draws a frame may carry (R203). -/
theorem drawLegal_iff (cr1 : Word) (b : Frame) (pe : Bool) :
    drawLegal cr1 b pe = true ↔
      (b.toNat < 256 ∨ bit cr1 Cr1.m = true) ∧ (pe = false ∨ bit cr1 Cr1.pce = true) := by
  simp only [drawLegal, Bool.and_eq_true, Bool.or_eq_true, Bool.not_eq_true', frame_bit8_eq_false_iff]
  exact and_congr or_comm or_comm

theorem lineEnabled_rx_iff (b : Frame) (pe fe nf : Bool) (s : State) :
    lineEnabled (.rx b pe fe nf) s = true ↔
      s.params.envModel = .device ∧ s.plat.clkEn = true ∧ bit s.chan.cr1 Cr1.ue = true ∧
      bit s.chan.cr1 Cr1.re = true ∧ (b.toNat < 256 ∨ bit s.chan.cr1 Cr1.m = true) ∧
      (pe = false ∨ bit s.chan.cr1 Cr1.pce = true) := by
  simp only [lineEnabled, Bool.and_eq_true, deviceLineRuns_iff, drawLegal_iff, and_assoc]

theorem lineEnabled_free_iff (v : BitVec 10) (d : Frame) (s : State) :
    lineEnabled (.free v d) s = true ↔ s.params.envModel = .free ∧ s.plat.clkEn = true := by
  simp only [lineEnabled, Bool.and_eq_true, decide_eq_true_eq]

/-! ### What the events leave -/

/-- The frame sent has TDR's value, or with CR1.M = 0 its value in 8 bits (R201). -/
theorem frameBits_toNat (c : Channel) :
    (frameBits c).toNat = if bit c.cr1 Cr1.m then c.tdr.toNat else c.tdr.toNat % 256 := by
  rw [frameBits]
  split_ifs
  · rfl
  · exact (BitVec.toNat_setWidth_of_le (by decide)).trans (BitVec.toNat_setWidth 8 c.tdr)

theorem lineEffect_rx_of_ready {s : State} (h : bit s.chan.sr Sr.rxne = false) (b : Frame) (pe fe nf : Bool) :
    lineEffect (.rx b pe fe nf) s = rxFrame b pe fe nf s :=
  if_neg (Bool.eq_false_iff.1 h)

theorem lineEffect_rx_of_full {s : State} (h : bit s.chan.sr Sr.rxne = true) (b : Frame) (pe fe nf : Bool) :
    lineEffect (.rx b pe fe nf) s = rxOverrun b pe fe nf s :=
  if_pos h

/-- SR after a delivered frame: RXNE is set and the frame's error flags are added (R203). -/
theorem bit_sr_rxFrame (b : Frame) (pe fe nf : Bool) (s : State) (n : Nat) :
    bit (rxFrame b pe fe nf s).chan.sr n =
      if n = Sr.rxne then true
      else if n = Sr.pe then bit s.chan.sr n || pe
      else if n = Sr.fe then bit s.chan.sr n || fe
      else if n = Sr.nf then bit s.chan.sr n || nf
      else bit s.chan.sr n := by
  simp (disch := decide) only [rxFrame, record_chan, bit_orBit, bit_setBit]
  by_cases hrxne : n = Sr.rxne
  · subst hrxne; rfl
  by_cases hpe : n = Sr.pe
  · subst hpe; exact Bool.or_comm _ _
  by_cases hfe : n = Sr.fe
  · subst hfe; exact Bool.or_comm _ _
  by_cases hnf : n = Sr.nf
  · subst hnf; exact Bool.or_comm _ _
  · simp only [hrxne, hpe, hfe, hnf, if_false]

/-! ### The interrupt request (R206) -/

/-- The other disjuncts of R206 each need an enable that no command writes, so they are false. -/
theorem ConfigBitsZero.chLine_iff {c : Channel} (h : ConfigBitsZero c) :
    chLine c = true ↔
      (bit c.sr Sr.txe = true ∧ bit c.cr1 Cr1.txeie = true) ∨
      (bit c.sr Sr.tc = true ∧ bit c.cr1 Cr1.tcie = true) ∨
      ((bit c.sr Sr.rxne = true ∨ bit c.sr Sr.ore = true) ∧ bit c.cr1 Cr1.rxneie = true) := by
  have hcr1 := (masked_zero_iff _ _).1 h.cr1
  have hcr3 := (masked_zero_iff _ _).1 h.cr3
  have hidle := hcr1 Cr1.idleie (by decide) (by decide)
  have hpe := hcr1 Cr1.peie (by decide) (by decide)
  have hlbd := (masked_zero_iff _ _).1 h.cr2 Cr2.lbdie (by decide) (by decide)
  have hcts := hcr3 Cr3.ctsie (by decide) (by decide)
  have hdmar := hcr3 Cr3.dmar (by decide) (by decide)
  simp only [chLine, hidle, hpe, hlbd, hcts, hdmar, Bool.and_false, Bool.or_false, Bool.or_eq_true, Bool.and_eq_true,
    or_assoc]

end Sys2Proof.Machine

open Sys2Proof Sys2Proof.Machine

/-- Settles O37: the invariant keeps the enables of R206's other disjuncts 0. -/
theorem interruptRequestIsALevelOfEnabledFlags : Obligations.InterruptRequestIsALevelOfEnabledFlags := fun s hs =>
  ⟨((unwrittenBitsZero_iff s).1 hs).2.chLine_iff, Bool.and_eq_true_iff⟩

/-- Settles O38: each event's effect under its guard, and no change where the guard fails. -/
theorem transmitterMovesFramesOnlyWhenEnabled : Obligations.TransmitterMovesFramesOnlyWhenEnabled := by
  intro s hf
  refine ⟨fun hm => ?_, fun hm => ?_⟩
  · rw [← lineEnabled_txLoad_iff]
    exact ⟨fun he => ⟨_, step_line_of_enabled hf hm he, frameBits_toNat s.chan⟩, step_line_of_not_enabled hf hm⟩
  · rw [← lineEnabled_txDone_iff]
    exact ⟨step_line_of_enabled hf hm, step_line_of_not_enabled hf hm⟩

/-- Settles O39: an enabled frame is delivered or lost by RXNE, with SR after a delivery taken bit by bit. -/
theorem receiverDeliversOrOverruns : Obligations.ReceiverDeliversOrOverruns := by
  intro s b pe fe nf hf hm
  rw [← lineEnabled_rx_iff b pe fe nf]
  refine ⟨fun he => ⟨fun hready => ⟨_, ?_, bit_sr_rxFrame b pe fe nf s⟩, fun hfull => ?_⟩,
    step_line_of_not_enabled hf hm⟩
  · rw [step_line_of_enabled hf hm he, lineEffect_rx_of_ready (s := takeMove s) hready]
    rfl
  · rw [step_line_of_enabled hf hm he, lineEffect_rx_of_full (s := takeMove s) hfull]
    rfl

/-- Settles O40: the free change under its guard, with SR taken bit by bit. -/
theorem freeChangeSetsFlagsAndReceiveData : Obligations.FreeChangeSetsFlagsAndReceiveData := by
  intro s v d hf hm
  rw [← lineEnabled_free_iff v d]
  exact ⟨fun he => ⟨_, step_line_of_enabled hf hm he, bit_srWithFlags s.chan.sr v⟩, step_line_of_not_enabled hf hm⟩

end
